-- ==== Sys2Proof/Word.lean ====
section
/-! DEFINITION. The word types of the GBPrinter Circular FIFO block (spec/00_scope.md R12): a byte, the
16-bit length, checksum and status, the 32-bit command word, and a line level. Nothing is signed. -/

namespace Sys2Proof

/-- A byte: 8 bits, unsigned (R12). -/
abbrev Byte := BitVec 8

/-- A 16-bit unsigned value: a length, a checksum or a status word (R12, R82). -/
abbrev Half := BitVec 16

/-- A 32-bit unsigned value: a command word (R83) or a host-side image size (R226). -/
abbrev Word := BitVec 32

/-- The level of a line: `false` is 0, `true` is 1 (R12). -/
abbrev Level := Bool

end Sys2Proof
end

