-- ==== Sys2Proof/Config.lean ====
section
/-! DEFINITION. What is fixed before reset and never changed (spec/00_scope.md R8, spec/10_state.md R29),
and the free values: opaque constants without a body for everything the spec leaves without a value. -/

namespace Sys2Proof

/-- The transport form of the transceiver (R8, R29, R130): bit-banged, or the byte stream of the test form. -/
inductive Mode where
  /-- `LINK`: the three lines (R131). -/
  | link
  /-- `LOOPBACK`: the byte stream (R138). -/
  | loopback
  deriving DecidableEq, Repr

/-- Who issues operations to the block (R5, R11): any controller at all, or the reference controller. -/
inductive Driver where
  /-- An arbitrary controller: the operations are those presented at the port, whatever they are (R5). -/
  | external
  /-- The reference controller of spec/44_printer_session.md and spec/45_host_session.md. -/
  | reference
  deriving DecidableEq, Repr

/-- The parameters of R8 that are not constants of the wire format. -/
structure Config where
  /-- `C`: the capacity of the FIFO storage in bytes (R8, R21). -/
  capacity : Nat
  /-- `MODE` (R8, R29). -/
  mode : Mode
  /-- `DELAY_US`: the inter-bit delay in microseconds (R8, R132). -/
  delayUs : Nat
  /-- Which controller drives the block (R5). -/
  driver : Driver
  /-- `MAX_PAYLOAD`: the largest payload of one TRANSFER, controller only (R8, R205). -/
  maxPayload : Nat
  /-- `READY_EMPTY`: ready, no image data held, controller only (R8, R188). -/
  readyEmpty : Half
  /-- `READY_DATA`: ready, image data held, controller only (R8, R188). -/
  readyData : Half
  /-- `MARGIN_SET`, controller only (R8, R208). -/
  marginSet : Byte
  /-- `MARGIN_CLEAR`, controller only (R8, R208). -/
  marginClear : Byte
  /-- `POLL_DELAY`: the inter-poll delay, controller only (R8, R211). -/
  pollDelay : Nat
  /-- `HOST_TIMEOUT`: when a short host read gives up, controller only (R8, R228). -/
  hostTimeout : Nat
  deriving DecidableEq, Repr

/-- The bounds R8 puts on its parameters: `C >= 1`, `1 <= MAX_PAYLOAD <= 65535`. -/
abbrev Config.Wf (c : Config) : Prop :=
  1 ≤ c.capacity ∧ 1 ≤ c.maxPayload ∧ c.maxPayload ≤ 65535

/-- `W = ceil(log2 C)`, the width of a cursor in bits (R8, R22): 10 for `C = 640`, 0 for `C = 1`. -/
def Config.cursorWidth (c : Config) : Nat :=
  if c.capacity ≤ 1 then 0 else Nat.log2 (c.capacity - 1) + 1

/-! The parameters marked OPEN in R8: no source gives a value, so each is a constant nothing can evaluate
(notes/assumptions/10.md). -/

/-- `DELAY_US` as configured; OPEN (R8, decision D9). -/
opaque Config.openDelayUs : Nat
/-- `READY_EMPTY` as configured; OPEN (R8, decision D22). -/
opaque Config.openReadyEmpty : Half
/-- `READY_DATA` as configured; OPEN (R8, decision D22). -/
opaque Config.openReadyData : Half
/-- `MARGIN_SET` as configured; OPEN (R8, decision D23). -/
opaque Config.openMarginSet : Byte
/-- `MARGIN_CLEAR` as configured; OPEN (R8, decision D23). -/
opaque Config.openMarginClear : Byte
/-- `POLL_DELAY` as configured; OPEN (R8, decision D24). -/
opaque Config.openPollDelay : Nat
/-- `HOST_TIMEOUT` as configured; OPEN (R8, decision D24). -/
opaque Config.openHostTimeout : Nat

/-- The configuration with every default of R8 (`C = 640`, `MODE = LINK`, `MAX_PAYLOAD = C`), the OPEN
parameters as configured, and an arbitrary controller (R5). -/
def Config.default : Config :=
  { capacity := 640
    mode := .link
    delayUs := Config.openDelayUs
    driver := .external
    maxPayload := 640
    readyEmpty := Config.openReadyEmpty
    readyData := Config.openReadyData
    marginSet := Config.openMarginSet
    marginClear := Config.openMarginClear
    pollDelay := Config.openPollDelay
    hostTimeout := Config.openHostTimeout }

/-! Free values. The first argument is the number of the power-on (`State.boot`); a second one is the
draw counter of State or the place the value belongs to. -/

/-- The level the link peer presents at a sample for which State lists none (R136, U7;
notes/assumptions/5.md). -/
opaque Config.freeLevel : Nat → Nat → Level
/-- What cell `i` of `mem` holds at power-on: an arbitrary byte per cell (R36, U4; notes/assumptions/7.md). -/
opaque Config.powerOnByte : Nat → Nat → Byte
/-- The level of `SOUT` at power-on (R36, U6; notes/assumptions/8.md). -/
opaque Config.powerOnSout : Nat → Level
/-- The byte a read hands back once a model fault is recorded: any value (R112, R254, U1;
notes/assumptions/9.md). The third argument is the byte the cell mechanically holds. -/
opaque Config.faultedRead : Nat → Nat → Byte → Byte
/-- `PrinterSession.status` before the first packet of a batch: unspecified (R201;
notes/assumptions/19.md). -/
opaque Config.freeStatus : Nat → Nat → Half
/-- Whether the bytes of a short host read stay in the stream (R227, R228, U20;
notes/assumptions/17.md). -/
opaque Config.keepsShortRead : Nat → Nat → Bool

end Sys2Proof
end

