-- ==== Sys2Proof/Syntax.lean ====
section
/-! DEFINITION. The instructions: one constructor per row of spec/opcode_table.json. Five are the
operations of the block (spec/30_encoding.md R80); four are the wire commands, rows of packet headers
(R91, spec/43_wire_commands.md R180). -/

namespace Sys2Proof

/-- What can be presented to the block. An operand is as wide as its field (R82, R84, R91), so every value
of the type is one the encoding admits. -/
inductive Instr where
  /-- `RBWR b`: write one byte into the FIFO (R111). -/
  | rbwr (b : Byte)
  /-- `RBRD`: read one byte from the FIFO (R112). -/
  | rbrd
  /-- `RBRST`: logical reset of the FIFO (R113). -/
  | rbrst
  /-- `XCHG b`: exchange one byte with the peer (R131, R138). -/
  | xchg (b : Byte)
  /-- `SENDPKT cmd, len`: send one packet and return the status word (R151). -/
  | sendpkt (cmd : Byte) (len : Half)
  /-- The wire command INITIALIZE, `SENDPKT 0x01, len` (R181). -/
  | wireInitialize (len : Half)
  /-- The wire command PRINT, `SENDPKT 0x02, len` (R182). -/
  | wirePrint (len : Half)
  /-- The wire command TRANSFER, `SENDPKT 0x04, len` (R183). -/
  | wireTransfer (len : Half)
  /-- The wire command REPORT, `SENDPKT 0x0F, len` (R184). -/
  | wireReport (len : Half)
  deriving DecidableEq, Repr

/-! Constants of the wire format (R8, R91). -/

/-- `MAGIC0` (R8). -/
def Wire.magic0 : Byte := 0x88
/-- `MAGIC1` (R8). -/
def Wire.magic1 : Byte := 0x33
/-- `COMP`, the compression flag: compression unsupported (R8, R90). -/
def Wire.comp : Byte := 0x00
/-- `STATUS_OUT`, shifted out during the two status exchanges (R8, decision D7). -/
def Wire.statusOut : Byte := 0x00
/-- The command code of INITIALIZE (R91, R181). -/
def Wire.codeInitialize : Byte := 0x01
/-- The command code of PRINT (R91, R182). -/
def Wire.codePrint : Byte := 0x02
/-- The command code of TRANSFER (R91, R183). -/
def Wire.codeTransfer : Byte := 0x04
/-- The command code of REPORT (R91, R184). -/
def Wire.codeReport : Byte := 0x0F
/-- `PALETTE`, third byte of the PRINT payload (R8, R209). -/
def Wire.palette : Byte := 0xFF
/-- `EXPOSURE`, fourth byte of the PRINT payload (R8, R209). -/
def Wire.exposure : Byte := 0xFF
/-- `BUSY_MASK`, the one documented bit of the status word (R8, R187). -/
def Wire.busyMask : Half := 0x0002

end Sys2Proof
end

