-- ==== Sys2Proof/Decode.lean ====
section
/-! DEFINITION. The encodings (spec/30_encoding.md): the 32-bit command word of an operation (R83 to R85) and
the 6-byte header of a wire command (R89, R91). An instruction is presented as the list of its bytes: a
command word as four bytes, least significant first; a header as six bytes in the order of exchange
(notes/assumptions/2.md). Decoding is total and rejects by name. -/

namespace Sys2Proof

/-! Halves and bytes (R12, R88). -/

/-- `low(v) = v[7:0]` (R12). -/
def low (v : Half) : Byte := v.extractLsb' 0 8

/-- `high(v) = v[15:8]` (R12). -/
def high (v : Half) : Byte := v.extractLsb' 8 8

/-- `hi : lo = hi * 256 + lo` (R12). -/
def join (hi lo : Byte) : Half := hi ++ lo

/-! The fields of a command word (R83). -/

/-- `op = w[31:28]`. -/
def fieldOp (w : Word) : BitVec 4 := w.extractLsb' 28 4
/-- `z = w[27:24]`. -/
def fieldZ (w : Word) : BitVec 4 := w.extractLsb' 24 4
/-- `a = w[23:16]`: the operand `b` or `cmd` (R84). -/
def fieldA (w : Word) : Byte := w.extractLsb' 16 8
/-- `n = w[15:0]`: the operand `len` (R84). -/
def fieldN (w : Word) : Half := w.extractLsb' 0 16

/-- A command word from its fields (R83): `op`, a zero field, `a`, `n`. -/
def packWord (op : BitVec 4) (a : Byte) (n : Half) : Word := op ++ (0 : BitVec 4) ++ a ++ n

/-- The rows of the command-word table of R83. -/
inductive WordRow where
  | rbwr
  | rbrd
  | rbrst
  | xchg
  | sendpkt
  deriving DecidableEq, Repr

/-- The `mask` column of R83. -/
def WordRow.mask : WordRow → Word
  | .rbwr => 0xFF00FFFF
  | .rbrd => 0xFFFFFFFF
  | .rbrst => 0xFFFFFFFF
  | .xchg => 0xFF00FFFF
  | .sendpkt => 0xFF000000

/-- The `match` column of R83. -/
def WordRow.value : WordRow → Word
  | .rbwr => 0x10000000
  | .rbrd => 0x20000000
  | .rbrst => 0x30000000
  | .xchg => 0x40000000
  | .sendpkt => 0x50000000

/-- A row is selected when `w AND mask = match` (R84). -/
def WordRow.selects (r : WordRow) (w : Word) : Bool := w &&& r.mask == r.value

/-- The operation a selected row stands for, its operands assembled as R84 says. -/
def WordRow.build (r : WordRow) (w : Word) : Instr :=
  match r with
  | .rbwr => .rbwr (fieldA w)
  | .rbrd => .rbrd
  | .rbrst => .rbrst
  | .xchg => .xchg (fieldA w)
  | .sendpkt => .sendpkt (fieldA w) (fieldN w)

/-- The rows in the order of R83. -/
def wordRows : List WordRow := [.rbwr, .rbrd, .rbrst, .xchg, .sendpkt]

/-- Why a presentation is not an instruction. -/
inductive Reject where
  /-- A 32-bit word that matches no row: a reserved command word (R85). -/
  | reservedWord (w : Word)
  /-- Six bytes that are no header of a listed wire command (R91, R92). -/
  | unlistedHeader (bytes : List Byte)
  /-- Neither four bytes nor six: no form of R83 or R91. -/
  | badLength (bytes : List Byte)
  deriving DecidableEq, Repr

/-- The operation of a command word, or reserved (R84, R85). -/
def decodeWord (w : Word) : Except Reject Instr :=
  match wordRows.find? (fun r => r.selects w) with
  | some r => .ok (r.build w)
  | none => .error (.reservedWord w)

/-- The wire command with a given code (R91). -/
def wireCommand (cmd : Byte) (len : Half) : Option Instr :=
  if cmd = Wire.codeInitialize then some (.wireInitialize len)
  else if cmd = Wire.codePrint then some (.wirePrint len)
  else if cmd = Wire.codeTransfer then some (.wireTransfer len)
  else if cmd = Wire.codeReport then some (.wireReport len)
  else none

/-- The wire command of a 6-byte header: the magic bytes, the code, the compression flag and the length,
low byte first (R87, R91). -/
def decodeHeader (m0 m1 cmd comp lo hi : Byte) : Except Reject Instr :=
  if m0 = Wire.magic0 ∧ m1 = Wire.magic1 ∧ comp = Wire.comp then
    match wireCommand cmd (join hi lo) with
    | some i => .ok i
    | none => .error (.unlistedHeader [m0, m1, cmd, comp, lo, hi])
  else .error (.unlistedHeader [m0, m1, cmd, comp, lo, hi])

/-- The instruction that a list of bytes presents. -/
def decode : List Byte → Except Reject Instr
  | [b0, b1, b2, b3] => decodeWord (b3 ++ b2 ++ b1 ++ b0)
  | [m0, m1, cmd, comp, lo, hi] => decodeHeader m0 m1 cmd comp lo hi
  | bytes => .error (.badLength bytes)

/-! The encoder, from the same tables. -/

/-- The bytes of a command word, least significant first (notes/assumptions/2.md). -/
def wordBytes (w : Word) : List Byte :=
  [w.extractLsb' 0 8, w.extractLsb' 8 8, w.extractLsb' 16 8, w.extractLsb' 24 8]

/-- The header of a packet: the first six bytes out (R87, R89). -/
def headerBytes (cmd : Byte) (len : Half) : List Byte :=
  [Wire.magic0, Wire.magic1, cmd, Wire.comp, low len, high len]

/-- The bytes an instruction is presented as (R83, R91). -/
def encode : Instr → List Byte
  | .rbwr b => wordBytes (packWord 1 b 0)
  | .rbrd => wordBytes (packWord 2 0 0)
  | .rbrst => wordBytes (packWord 3 0 0)
  | .xchg b => wordBytes (packWord 4 b 0)
  | .sendpkt cmd len => wordBytes (packWord 5 cmd len)
  | .wireInitialize len => headerBytes Wire.codeInitialize len
  | .wirePrint len => headerBytes Wire.codePrint len
  | .wireTransfer len => headerBytes Wire.codeTransfer len
  | .wireReport len => headerBytes Wire.codeReport len

/-- `n` bytes of a number, least significant first: the table's numbering, where the second byte is bits
15 to 8 (notes/assumptions/2.md). -/
def bytesOfNat : Nat → Nat → List Byte
  | 0, _ => []
  | n + 1, w => BitVec.ofNat 8 w :: bytesOfNat n (w / 256)

/-- The bytes of a table row's word of `nbits` bits: a command word for up to 32 bits, a header above. -/
def tableBytes (nbits w : Nat) : List Byte :=
  bytesOfNat (if nbits ≤ 32 then 4 else 6) w

/-- The instruction the decoder reads from a table row's word. -/
def decodeTableWord (nbits w : Nat) : Option Instr :=
  match decode (tableBytes nbits w) with
  | .ok i => some i
  | .error _ => none

end Sys2Proof
end

