-- ==== Sys2Proof/Machine/State.lean ====
section
/-! DEFINITION. The state of the machine: every element of spec/10_state.md R20, the ghost state of R30, R31
and R38, the port through which operations are presented, the inputs of the environment, and the reference
controller of spec/44_printer_session.md and spec/45_host_session.md. -/

namespace Sys2Proof.Machine

/-! The storage (R21): a list of (index, byte) pairs in one canonical form, indices strictly rising. A cell
that nothing has written is not listed and has no value of its own (notes/assumptions/7.md). -/

/-- `mem[0 .. C-1]` (R21, R50). -/
abbrev Memory := List Host.Cell

/-! Transients of the framer and of the transceiver (R26, R28). -/

/-- The framer's place in the one emission order of a packet (R26, R161). -/
inductive Phase where
  | magic0
  | magic1
  | cmd
  | comp
  | lenLo
  | lenHi
  | payload
  | chkLo
  | chkHi
  | statHi
  | statLo
  deriving DecidableEq, Repr

/-- The framer's working values while one `SENDPKT` runs (R26), with the operands it was given. -/
structure Framer where
  /-- The operand `cmd`. -/
  cmd : Byte
  /-- The operand `len`. -/
  len : Half
  /-- `csum`, the checksum accumulator. -/
  csum : Half
  /-- `rem`, the count of payload bytes still to send. -/
  rem : Half
  /-- `phase`, the place in the emission order. -/
  phase : Phase
  /-- `stat_hi`, the first reply byte of the status pair. -/
  statHi : Byte
  deriving DecidableEq, Repr

/-- The transceiver's working values while one `XCHG` runs (R28). -/
structure Exchange where
  /-- `b`, the byte being sent. -/
  out : Byte
  /-- `r`, the reply being assembled. -/
  reply : Byte
  /-- `i`, the index of the bit to send next, 7 down to 0. -/
  bit : Nat
  deriving DecidableEq, Repr

/-! The ghost trace (R12, R13, R38). -/

/-- The output lines (R27). -/
inductive Line where
  /-- `SCK`, the clock. -/
  | sck
  /-- `SOUT`, data out. -/
  | sout
  deriving DecidableEq, Repr

/-- The events of the pin trace (R12, R13). -/
inductive Event where
  /-- `Drive(p, l)`. -/
  | drive (line : Line) (level : Level)
  /-- `Sample(SIN, l)`. -/
  | sample (level : Level)
  /-- `Delay(t)`. -/
  | delay (micros : Nat)
  /-- `StreamWrite(b)`. -/
  | streamWrite (b : Byte)
  /-- `StreamRead(b)`. -/
  | streamRead (b : Byte)
  deriving DecidableEq, Repr

/-! Model faults (R252, R253). -/

/-- The two model faults (R253). There is no third. -/
inductive ModelFault where
  /-- `FIFO_OVERRUN`, code 1. -/
  | fifoOverrun
  /-- `FIFO_UNDERRUN`, code 2. -/
  | fifoUnderrun
  deriving DecidableEq, Repr

/-- A recorded model fault with the information R253 gives it. -/
structure FaultRecord where
  /-- Which fault. -/
  kind : ModelFault
  /-- The index, in issue order and from 1, of the operation that raised it (notes/assumptions/12.md). -/
  op : Nat
  /-- The payload index `k` of the deficient read, for a read inside `SENDPKT`. -/
  payload : Option Nat
  deriving DecidableEq, Repr

/-- The value an operation hands back to the controller (R86). -/
inductive Reply where
  /-- The byte of `RBRD` or of `XCHG`. -/
  | byte (v : Byte)
  /-- The status word of `SENDPKT`. -/
  | status (w : Half)
  deriving DecidableEq, Repr

/-! The reference controller (R5, R200 to R239). -/

/-- The states of PrinterSession (R201, R202). -/
inductive PrinterState where
  | initializing
  | transfer
  | print
  deriving DecidableEq, Repr

/-- The states of HostSession (R226). -/
inductive HostState where
  | idle
  | setup
  | print
  deriving DecidableEq, Repr

/-- Where the controller stands inside the running invocation of a session state: the model's own field,
one value for each place where the pseudocode of R203, R205, R213, R227, R230 and R231 waits for an
operation or for the host (notes/assumptions/16.md). -/
inductive Point where
  /-- About to invoke HostSession's current state; in `Setup`, also waiting for the acknowledgement. -/
  | hostInvoke
  /-- `Idle`: `RBRST` is issued; `HostRead(4)` comes next (R227). -/
  | idleRead
  /-- `Print` of HostSession: this many chunk bytes are still to be read from the host (R231). -/
  | load (left : Nat)
  /-- About to invoke PrinterSession's current state (R204). -/
  | printerInvoke
  /-- `Initialize`: waiting for the status of the INITIALIZE packet (R203). -/
  | initStatus
  /-- `Transfer`: waiting for the status of a data packet of this many bytes (R205). -/
  | dataStatus (chunk : Nat)
  /-- `Transfer`: waiting for the terminator to return (R205). -/
  | endStatus
  /-- `Print`: waiting for the PRINT packet to return (R210). -/
  | printStatus
  /-- `Print`, first poll loop: waiting for the status of a REPORT packet (R211). -/
  | pollBusy
  /-- `Print`, second poll loop: waiting for the status of a REPORT packet (R212). -/
  | pollClear
  /-- The batch is complete; HostSession closes its `Print` invocation (R204, R231). -/
  | batchDone
  deriving DecidableEq, Repr

/-- What the host stream presents to the controller (R227, R228). -/
inductive HostInput where
  /-- One byte. -/
  | byte (b : Byte)
  /-- `HOST_TIMEOUT` passes without a byte. -/
  | timeout
  deriving DecidableEq, Repr

/-- What the controller does besides issuing operations. -/
inductive HostEvent where
  /-- `HostRead` obtained these bytes (R227, R230, R231). -/
  | read (bytes : List Byte)
  /-- `HostRead` gave up with only these bytes (R228). -/
  | shortRead (bytes : List Byte)
  /-- `HostWrite` of these bytes (R227, R230, R231). -/
  | write (bytes : List Byte)
  /-- `Delay(POLL_DELAY)` before a poll (R211, R213). -/
  | pollDelay (micros : Nat)
  deriving DecidableEq, Repr

/-- The reference controller: the attributes of HostSession (R226) and of PrinterSession (R201), the inputs
of the running batch (R202), and its place in the running invocation. -/
structure Controller where
  /-- `HostSession.total`, the declared image size. -/
  total : Word
  /-- `HostSession.printed`, the bytes completed. -/
  printed : Word
  /-- `HostSession.state`. -/
  hostState : HostState
  /-- `PrinterSession.state`. -/
  printerState : PrinterState
  /-- `PrinterSession.status`, the last status word returned. -/
  status : Half
  /-- `PrinterSession.bytesSentThisBatch`. -/
  bytesSent : Nat
  /-- `batchLen`, HostSession's `toRead` (R202); the ceiling of the batch (R217). -/
  batchLen : Nat
  /-- `isFirst` (R202). -/
  isFirst : Bool
  /-- `isLast` (R202). -/
  isLast : Bool
  /-- The place in the running invocation. -/
  point : Point
  /-- The host byte stream, toward the device, next item first. -/
  hostIn : List HostInput
  /-- What the controller read, wrote and waited for, oldest first. -/
  log : List HostEvent
  deriving DecidableEq, Repr

/-- The machine. -/
structure State where
  /-- `C`, `MODE`, `DELAY_US` and the controller's parameters; no operation changes them (R29). -/
  cfg : Config
  /-- The storage of the FIFO (R21). -/
  mem : Memory
  /-- `head`, the next read index (R22). -/
  head : Nat
  /-- `tail`, the next write index (R22). -/
  tail : Nat
  /-- The level of `SCK` (R27). -/
  sck : Level
  /-- The level of `SOUT` (R27). -/
  sout : Level
  /-- The framer's working values while a `SENDPKT` runs (R26). -/
  framer : Option Framer
  /-- The transceiver's working values while an `XCHG` runs (R28). -/
  xchg : Option Exchange
  /-- Ghost: `fill`, writes less reads since the last reset (R30). -/
  fill : Nat
  /-- Ghost: `fault`, the first model fault recorded (R31). -/
  fault : Option FaultRecord
  /-- Ghost: `trace`, the pin trace, oldest first (R38). -/
  trace : List Event
  /-- Ghost: how many operations have been issued; the index of the running one (R31). -/
  issued : Nat
  /-- The operations presented at the port and not yet begun, next one first (R11). -/
  pending : List (List Byte)
  /-- What the last operation handed back to the controller (R86). -/
  result : Option Reply
  /-- The levels the link peer presents at the samples to come, next one first (R136). -/
  sinIn : List Level
  /-- The bytes the stream peer supplies to the reads to come, next one first (R138). -/
  streamIn : List Byte
  /-- Which power-on this is: two resets need not leave the same bytes (R36). -/
  boot : Nat
  /-- How many free values have been drawn. -/
  draws : Nat
  /-- The reference controller (R5). -/
  ctl : Controller
  deriving DecidableEq, Repr

/-- Why the machine stops with a fault. -/
inductive Fault where
  /-- Raised by `RBWR`, `RBRD` and `SENDPKT` when the cursor stands outside `mem`: an access is defined only
  for indices below `C` (R12, R50, R53). No run from reset reaches it. Safe: the machine stops. -/
  | indexOutOfRange (index : Nat)
  deriving DecidableEq, Repr

/-- Why a presentation is refused. -/
inductive Refusal where
  /-- Raised by an arm of `exec` that has no meaning yet; none is left. Safe: nothing is claimed. -/
  | notModelled (mnemonic : String)
  /-- "Reserved command word", with the word and its index (R85, R265). Raised by `step` before any effect.
  Safe: the refused run supports no claim. -/
  | reservedCommandWord (w : Word) (index : Nat)
  /-- Six bytes that are no header of a listed wire command (R91, R92), with the index. Raised by `step`
  before any effect. Safe. -/
  | unlistedWireHeader (bytes : List Byte) (index : Nat)
  /-- A presentation that is neither a command word nor a header (R83, R91), with the index. Raised by `step`
  before any effect. Safe. -/
  | malformedPresentation (bytes : List Byte) (index : Nat)
  deriving DecidableEq, Repr

/-- The controller at startup: HostSession at `Idle/0/0` (R226), PrinterSession at `Initialize` with
nothing sent (R202), `status` unspecified (R201). -/
def Controller.reset (boot : Nat) : Controller :=
  { total := 0
    printed := 0
    hostState := .idle
    printerState := .initializing
    status := Config.freeStatus boot 0
    bytesSent := 0
    batchLen := 0
    isFirst := false
    isLast := false
    point := .hostInvoke
    hostIn := []
    log := [] }

/-- The state after hardware reset number `boot` under a configuration (R36, R281). -/
def State.resetWith (cfg : Config) (boot : Nat) : State :=
  { cfg := cfg
    mem := []
    head := 0
    tail := 0
    sck := true
    sout := Config.powerOnSout boot
    framer := none
    xchg := none
    fill := 0
    fault := none
    trace := []
    issued := 0
    pending := []
    result := none
    sinIn := []
    streamIn := []
    boot := boot
    draws := 0
    ctl := Controller.reset boot }

/-- The machine right after hardware reset, with every parameter at its default (R8, R36). -/
def State.reset : State := State.resetWith Config.default 0

end Sys2Proof.Machine
end

