-- ==== Sys2Proof/Machine/Memory.lean ====
section
/-! DEFINITION. The storage as data (spec/10_state.md R21, spec/20_memory.md R50 to R53): reading and writing one
cell of the list, and the canonical form. -/

namespace Sys2Proof.Machine

/-- The byte listed for an index, or nothing for a cell that has not been written since hardware reset (R33,
R36; notes/assumptions/7.md). -/
def Memory.read : Memory → Nat → Option Byte
  | [], _ => none
  | (k, v) :: rest, a => if k = a then some v else Memory.read rest a

/-- `mem[a] <- v` (R12), keeping the indices strictly rising. -/
def Memory.write : Memory → Nat → Byte → Memory
  | [], a, v => [(a, v)]
  | (k, w) :: rest, a, v =>
    if a < k then (a, v) :: (k, w) :: rest
    else if a = k then (a, v) :: rest
    else (k, w) :: Memory.write rest a v

/-- The indices rise strictly, all of them above a bound when one is given. -/
def Memory.rising : Option Nat → Memory → Bool
  | _, [] => true
  | none, (k, _) :: rest => Memory.rising (some k) rest
  | some b, (k, _) :: rest => decide (b < k) && Memory.rising (some k) rest

/-- The canonical form: indices strictly rising. An unlisted cell reads as no byte, so no entry repeats what
an unlisted one reads as, and equal storages are equal lists. -/
def Memory.wf (m : Memory) : Bool := Memory.rising none m

/-- Every listed index lies in the address space `0 .. C-1` (R50, R62). -/
def Memory.within (m : Memory) (capacity : Nat) : Bool := m.all (fun c => decide (c.1 < capacity))

end Sys2Proof.Machine
end

