-- ==== Sys2Proof/Machine/Operands.lean ====
section
/-! DEFINITION. The operand forms: the cursors (spec/20_memory.md R52, R70), the cell a cursor points at, the queue
content (spec/10_state.md R35), and the bytes and the checksum of a packet (spec/42_packet_framer.md). -/

namespace Sys2Proof.Machine

/-- `(x + 1) mod C`, the cursor after an access (R70). -/
def nextCursor (capacity x : Nat) : Nat := (x + 1) % capacity

/-- What cell `i` holds: the byte written last, or the arbitrary byte of power-on (R33, R36). -/
def State.cell (s : State) (i : Nat) : Byte :=
  (s.mem.read i).getD (Config.powerOnByte s.boot i)

/-- The queue content `Q`, oldest byte first (R35). -/
def State.queue (s : State) : List Byte :=
  (List.range s.fill).map (fun k => s.cell ((s.head + k) % s.cfg.capacity))

/-- The header's part of the checksum: `(cmd + low(len) + high(len)) mod 65536` (R88, R151, R153). -/
def headerSum (cmd : Byte) (len : Half) : Half :=
  cmd.setWidth 16 + (low len).setWidth 16 + (high len).setWidth 16

/-- One payload byte accumulated into the checksum (R151). -/
def addSum (csum : Half) (p : Byte) : Half := csum + p.setWidth 16

/-- The whole checksum of a command with a given payload (R88, R153). -/
def checksum (cmd : Byte) (len : Half) (payload : List Byte) : Half :=
  payload.foldl addSum (headerSum cmd len)

/-- The bytes a packet shifts out, in the order of exchange (R87). -/
def packetBytes (cmd : Byte) (len : Half) (payload : List Byte) : List Byte :=
  headerBytes cmd len ++ payload ++
    [low (checksum cmd len payload), high (checksum cmd len payload), Wire.statusOut, Wire.statusOut]

end Sys2Proof.Machine
end

