-- ==== Sys2Proof/Machine/Ops.lean ====
section
/-! DEFINITION. The shared operations: issuing an operation, recording a model fault, the pin and stream primitives,
the FIFO (spec/40_fifo_ops.md), one exchange (spec/41_transceiver.md) and one packet
(spec/42_packet_framer.md). Every meaning is written over these. -/

namespace Sys2Proof.Machine

/-- An operation is issued: it takes the next index, no earlier result is held (R86), and the transients have
no value before it starts (R26, R28; notes/assumptions/13.md). -/
def State.issue (s : State) : State :=
  { s with issued := s.issued + 1, result := none, framer := none, xchg := none }

/-- The operation hands a value back to the controller (R86). -/
def State.handBack (r : Reply) (s : State) : State := { s with result := some r }

/-- What a meaning answers: the next state, or the fault that stopped it. -/
def answer : Except Fault State → Host.Outcome State Fault Refusal
  | .ok s => .next s
  | .error f => .fault f

/-! ## Model faults. The block has no trap entry and no return (R250, R257, R258): this record is the whole of
what a faulting operation adds. -/

/-- `raise F(info)`: the first fault is kept, and no hardware state changes (R252, R254). -/
def State.raise (k : ModelFault) (payload : Option Nat) (s : State) : State :=
  match s.fault with
  | none => { s with fault := some { kind := k, op := s.issued, payload := payload } }
  | some _ => s

/-- The code of a model fault (R253). -/
def ModelFault.code : ModelFault → Nat
  | .fifoOverrun => 1
  | .fifoUnderrun => 2

/-- The ghost effect of a write, on the state before it (R111). -/
def State.ghostWrite (s : State) : State :=
  match s.fault with
  | none =>
    if s.fill = s.cfg.capacity then s.raise .fifoOverrun none
    else { s with fill := s.fill + 1 }
  | some _ => s

/-- The ghost effect of a read, on the state before it (R112). `payload` is the payload index of a read inside
`SENDPKT` (R253). -/
def State.ghostRead (payload : Option Nat) (s : State) : State :=
  match s.fault with
  | none =>
    if s.fill = 0 then s.raise .fifoUnderrun payload
    else { s with fill := s.fill - 1 }
  | some _ => s

/-! ## The FIFO -/

/-- One write: the ghost effect, then `mem[tail] <- b` and `tail <- (tail + 1) mod C` (R111). -/
def rbWrite (b : Byte) (s : State) : Except Fault State :=
  if s.tail < s.cfg.capacity then
    .ok { s.ghostWrite with
          mem := s.mem.write s.tail b
          tail := nextCursor s.cfg.capacity s.tail }
  else .error (.indexOutOfRange s.tail)

/-- The byte a read hands back: the cell's byte, or any value once a model fault is recorded (R112, R254, U1;
notes/assumptions/9.md). -/
def readValue (faulted : Bool) (s : State) : Byte :=
  if faulted then Config.faultedRead s.boot s.draws (s.cell s.head) else s.cell s.head

/-- One read: the ghost effect, then `v <- mem[head]` and `head <- (head + 1) mod C` (R112). -/
def rbRead (payload : Option Nat) (s : State) : Except Fault (Byte × State) :=
  if s.head < s.cfg.capacity then
    let g := s.ghostRead payload
    .ok (readValue g.fault.isSome s,
      { g with
        head := nextCursor s.cfg.capacity s.head
        draws := if g.fault.isSome then s.draws + 1 else s.draws })
  else .error (.indexOutOfRange s.head)

/-- The logical reset: both cursors and the ghost fill to 0; storage, lines, fault and trace stay (R113,
R282). -/
def rbReset (s : State) : State := { s with head := 0, tail := 0, fill := 0 }

/-! ## The primitives (R12) -/

/-- `Drive(p, l)`: the line takes the level, and the event is recorded even if the level repeats (R12,
R131). -/
def State.drive (line : Line) (level : Level) (s : State) : State :=
  match line with
  | .sck => { s with sck := level, trace := s.trace ++ [.drive .sck level] }
  | .sout => { s with sout := level, trace := s.trace ++ [.drive .sout level] }

/-- `Delay(t)`: recorded; the model keeps no time (R12, R132). -/
def State.wait (micros : Nat) (s : State) : State :=
  { s with trace := s.trace ++ [.delay micros] }

/-- The level the peer presents now: the next one listed, or a free value when none is listed (R136;
notes/assumptions/5.md). -/
def State.sinLevel (s : State) : Level :=
  match s.sinIn with
  | l :: _ => l
  | [] => Config.freeLevel s.boot s.draws

/-- The level is consumed. -/
def State.sinAdvance (s : State) : State :=
  match s.sinIn with
  | _ :: rest => { s with sinIn := rest }
  | [] => { s with draws := s.draws + 1 }

/-- `Sample(SIN)`: the level is recorded and consumed (R12, R136). -/
def State.sample (s : State) : State :=
  { s.sinAdvance with trace := s.trace ++ [.sample s.sinLevel] }

/-- `StreamWrite(b)` (R12). -/
def State.streamWrite (b : Byte) (s : State) : State :=
  { s with trace := s.trace ++ [.streamWrite b] }

/-- `StreamRead()` of a byte that is available (R12). -/
def State.streamRead (r : Byte) (rest : List Byte) (s : State) : State :=
  { s with streamIn := rest, trace := s.trace ++ [.streamRead r] }

/-! ## One exchange -/

/-- `v[i] <- l`. -/
def setBit (v : Byte) (i : Nat) (l : Level) : Byte :=
  (v &&& ~~~(BitVec.twoPow 8 i)) ||| (if l then BitVec.twoPow 8 i else 0)

/-- Steps 1 to 4 of a bit: clock low, data out, first delay, clock high (R131). -/
def State.driveBit (level : Level) (s : State) : State :=
  (((s.drive .sck false).drive .sout level).wait s.cfg.delayUs).drive .sck true

/-- The six steps of bit `i`, in their order (R131). -/
def linkBit (i : Nat) (x : Exchange) (s : State) : Exchange × State :=
  let s1 := s.driveBit (x.out.getLsbD i)
  ({ x with reply := setBit x.reply i s1.sinLevel, bit := i - 1 },
    s1.sample.wait s.cfg.delayUs)

/-- The bits below `n`, highest first: for `n = 8`, `i = 7 downto 0` (R56, R131). -/
def linkBits : Nat → Exchange → State → Exchange × State
  | 0, x, s => (x, s)
  | i + 1, x, s => linkBits i (linkBit i x s).1 (linkBit i x s).2

/-- An exchange goes on from its bit index. In `LINK` it always completes (R137). In `LOOPBACK` it completes when
the stream has a byte; until then it stays in progress (R138, R266; notes/assumptions/6.md). -/
def continueExchange (x : Exchange) (s : State) : Option Byte × State :=
  match s.cfg.mode with
  | .link => (some (linkBits (x.bit + 1) x s).1.reply, (linkBits (x.bit + 1) x s).2)
  | .loopback =>
    match s.streamIn with
    | [] => (none, { s with xchg := some x })
    | r :: rest => (some r, s.streamRead r rest)

/-- One exchange of byte `b` from its start: the reply, unless it has to wait (R131, R138). -/
def exchange (b : Byte) (s : State) : Option Byte × State :=
  match s.cfg.mode with
  | .link => continueExchange { out := b, reply := 0, bit := 7 } s
  | .loopback => continueExchange { out := b, reply := 0, bit := 7 } (s.streamWrite b)

/-! ## One packet -/

/-- The framer at the start of a packet (R151, R161). `stat_hi` has no value yet; it is written before it is
read. -/
def Framer.start (cmd : Byte) (len : Half) : Framer :=
  { cmd := cmd, len := len, csum := headerSum cmd len, rem := len, phase := .magic0, statHi := 0 }

/-- The byte of the framer's phase (R87). The payload phase first performs one `RBRD` and one checksum addition
(R161); the payload index of that read is `len - rem` (R253). -/
def framerFetch (f : Framer) (s : State) : Except Fault (Byte × Framer × State) :=
  match f.phase with
  | .magic0 => .ok (Wire.magic0, f, s)
  | .magic1 => .ok (Wire.magic1, f, s)
  | .cmd => .ok (f.cmd, f, s)
  | .comp => .ok (Wire.comp, f, s)
  | .lenLo => .ok (low f.len, f, s)
  | .lenHi => .ok (high f.len, f, s)
  | .payload =>
    match rbRead (some (f.len - f.rem).toNat) s with
    | .ok (p, s') => .ok (p, { f with csum := addSum f.csum p }, s')
    | .error e => .error e
  | .chkLo => .ok (low f.csum, f, s)
  | .chkHi => .ok (high f.csum, f, s)
  | .statHi => .ok (Wire.statusOut, f, s)
  | .statLo => .ok (Wire.statusOut, f, s)

/-- The phase after an exchange with reply `r`, or the status word when the packet is complete. The one loop test
is on `rem`; every other reply is discarded (R156, R157, R161). -/
def framerNext (f : Framer) (r : Byte) : Framer ⊕ Half :=
  match f.phase with
  | .magic0 => .inl { f with phase := .magic1 }
  | .magic1 => .inl { f with phase := .cmd }
  | .cmd => .inl { f with phase := .comp }
  | .comp => .inl { f with phase := .lenLo }
  | .lenLo => .inl { f with phase := .lenHi }
  | .lenHi => .inl { f with phase := if f.rem = 0 then .chkLo else .payload }
  | .payload =>
    .inl { f with rem := f.rem - 1, phase := if f.rem - 1 = 0 then .chkLo else .payload }
  | .chkLo => .inl { f with phase := .chkHi }
  | .chkHi => .inl { f with phase := .statHi }
  | .statHi => .inl { f with statHi := r, phase := .statLo }
  | .statLo => .inr (join f.statHi r)

/-- The framer runs, one exchange a round, until the packet is complete or an exchange has to wait. The number of
rounds bounds it: no packet has more than `10 + len` (R160). -/
def framerRun : Nat → Framer → State → Except Fault State
  | 0, f, s => .ok { s with framer := some f }
  | n + 1, f, s =>
    match framerFetch f s with
    | .error e => .error e
    | .ok (b, f1, s1) =>
      match exchange b s1 with
      | (none, s2) => .ok { s2 with framer := some f1 }
      | (some r, s2) =>
        match framerNext f1 r with
        | .inl f2 => framerRun n f2 s2
        | .inr w => .ok (s2.handBack (.status w))

/-- A framer runs on from its phase: at most `10 + rem` exchanges are left (R160). -/
def framerGo (f : Framer) (s : State) : Except Fault State := framerRun (10 + f.rem.toNat) f s

/-- `SENDPKT(cmd, len)`: frame a command, send it, read back the status word (R151). -/
def sendPacket (cmd : Byte) (len : Half) (s : State) : Except Fault State :=
  framerGo (Framer.start cmd len) s

/-! ## An operation in progress -/

/-- An operation has begun and not returned: only in `LOOPBACK`, waiting for the stream (R266). -/
def State.busy (s : State) : Bool := s.xchg.isSome || s.framer.isSome

/-- The operation in progress goes on: a packet once begun is always completed (R161, R258). While the stream has no
byte nothing changes (R138, R266). -/
def resume (s : State) : Except Fault State :=
  match s.xchg with
  | some x =>
    match continueExchange x { s with xchg := none } with
    | (none, s1) => .ok s1
    | (some r, s1) =>
      match s1.framer with
      | none => .ok (s1.handBack (.byte r))
      | some f =>
        match framerNext f r with
        | .inl f1 => framerGo f1 { s1 with framer := none }
        | .inr w => .ok ({ s1 with framer := none }.handBack (.status w))
  | none =>
    match s.framer with
    | some f => framerGo f { s with framer := none }
    | none => .ok s

end Sys2Proof.Machine
end

