-- ==== Sys2Proof/Machine/Fifo.lean ====
section
/-! DEFINITION. The meanings of the FIFO operations `RBWR`, `RBRD`, `RBRST` (spec/40_fifo_ops.md). -/

namespace Sys2Proof.Machine

/-- `RBWR b` (R111). -/
def execRbwr (b : Byte) (s : State) : Host.Outcome State Fault Refusal :=
  answer (rbWrite b s.issue)

/-- `RBRD` (R112): the byte is handed back to the controller. -/
def execRbrd (s : State) : Host.Outcome State Fault Refusal :=
  match rbRead none s.issue with
  | .ok (v, s') => .next (s'.handBack (.byte v))
  | .error f => .fault f

/-- `RBRST` (R113). -/
def execRbrst (s : State) : Host.Outcome State Fault Refusal :=
  .next (rbReset s.issue)

end Sys2Proof.Machine
end

