-- ==== Sys2Proof/Machine/Framing.lean ====
section
/-! DEFINITION. The meanings that send a packet: `SENDPKT` (spec/42_packet_framer.md), and the four wire commands, each
of which is a packet with its code in the command field (spec/43_wire_commands.md). The framer frames every
command and length alike (R164; notes/assumptions/3.md). -/

namespace Sys2Proof.Machine

/-- `SENDPKT cmd, len` (R151). -/
def execSendpkt (cmd : Byte) (len : Half) (s : State) : Host.Outcome State Fault Refusal :=
  answer (sendPacket cmd len s.issue)

/-- INITIALIZE, `SENDPKT 0x01, len` (R181). -/
def execWireInitialize (len : Half) (s : State) : Host.Outcome State Fault Refusal :=
  answer (sendPacket Wire.codeInitialize len s.issue)

/-- PRINT, `SENDPKT 0x02, len` (R182). -/
def execWirePrint (len : Half) (s : State) : Host.Outcome State Fault Refusal :=
  answer (sendPacket Wire.codePrint len s.issue)

/-- TRANSFER, `SENDPKT 0x04, len` (R183). -/
def execWireTransfer (len : Half) (s : State) : Host.Outcome State Fault Refusal :=
  answer (sendPacket Wire.codeTransfer len s.issue)

/-- REPORT, `SENDPKT 0x0F, len` (R184). -/
def execWireReport (len : Half) (s : State) : Host.Outcome State Fault Refusal :=
  answer (sendPacket Wire.codeReport len s.issue)

end Sys2Proof.Machine
end

