-- ==== Sys2Proof/Machine/Transceiver.lean ====
section
/-! DEFINITION. The meaning of the transceiver operation `XCHG` (spec/41_transceiver.md). -/

namespace Sys2Proof.Machine

/-- `XCHG b` (R131 in `LINK`, R138 in `LOOPBACK`): the reply is handed back to the controller. -/
def execXchg (b : Byte) (s : State) : Host.Outcome State Fault Refusal :=
  match exchange b s.issue with
  | (some r, s') => .next (s'.handBack (.byte r))
  | (none, s') => .next s'

end Sys2Proof.Machine
end

