-- ==== Sys2Proof/Machine/Dispatch.lean ====
section
/-! DEFINITION. One arm per instruction, one meaning per arm. -/

namespace Sys2Proof.Machine

def exec (i : Instr) (s : State) : Host.Outcome State Fault Refusal :=
  match i with
  | .rbwr b => Sys2Proof.Machine.execRbwr b s
  | .rbrd => Sys2Proof.Machine.execRbrd s
  | .rbrst => Sys2Proof.Machine.execRbrst s
  | .xchg b => Sys2Proof.Machine.execXchg b s
  | .sendpkt cmd len => Sys2Proof.Machine.execSendpkt cmd len s
  | .wireInitialize len => Sys2Proof.Machine.execWireInitialize len s
  | .wirePrint len => Sys2Proof.Machine.execWirePrint len s
  | .wireTransfer len => Sys2Proof.Machine.execWireTransfer len s
  | .wireReport len => Sys2Proof.Machine.execWireReport len s

end Sys2Proof.Machine
end

