-- ==== Sys2Proof/Machine/Flags.lean ====
section
/-! DEFINITION. The flag computations. The block has no flags (spec/10_state.md R32) and no operation sets one. What
stands here is read from a received status word by the controller (spec/43_wire_commands.md R187, R188), and
the margin flags it sends (spec/44_printer_session.md R208). -/

namespace Sys2Proof.Machine

/-- The busy bit of a status word: bit 1, mask `0x0002` (R187). -/
def busyBit (status : Half) : Bool := status &&& Wire.busyMask == Wire.busyMask

/-- A status word equal to one of the two ready values, compared whole (R188, R203, R205). -/
def isReady (cfg : Config) (status : Half) : Bool :=
  status == cfg.readyEmpty || status == cfg.readyData

/-- The byte of a margin flag (R208). -/
def marginByte (cfg : Config) (flag : Bool) : Byte :=
  if flag then cfg.marginSet else cfg.marginClear

end Sys2Proof.Machine
end

