-- ==== Sys2Proof/Machine/Notation.lean ====
section
/-! DEFINITION. The text notation of spec/30_encoding.md: operations as text (R93) and the pseudo-operations with
their expansions (R94). -/

namespace Sys2Proof.Machine

/-- One hexadecimal digit. -/
def hexDigit (n : Nat) : String :=
  match n with
  | 0 => "0" | 1 => "1" | 2 => "2" | 3 => "3" | 4 => "4" | 5 => "5" | 6 => "6" | 7 => "7"
  | 8 => "8" | 9 => "9" | 10 => "A" | 11 => "B" | 12 => "C" | 13 => "D" | 14 => "E" | _ => "F"

/-- A byte as `0x` and two digits (R93). -/
def hexByte (b : Byte) : String :=
  "0x" ++ hexDigit (b.toNat / 16) ++ hexDigit (b.toNat % 16)

/-- A 16-bit number as `0x` and four digits (R93). -/
def hexHalf (v : Half) : String :=
  "0x" ++ hexDigit (v.toNat / 4096) ++ hexDigit (v.toNat / 256 % 16) ++
    hexDigit (v.toNat / 16 % 16) ++ hexDigit (v.toNat % 16)

/-- The text of an operation: the mnemonic, then the operands separated by commas. A wire mnemonic stands in the
command position (R93). -/
def instrText : Instr → String
  | .rbwr b => "RBWR " ++ hexByte b
  | .rbrd => "RBRD"
  | .rbrst => "RBRST"
  | .xchg b => "XCHG " ++ hexByte b
  | .sendpkt cmd len => "SENDPKT " ++ hexByte cmd ++ ", " ++ hexHalf len
  | .wireInitialize len => "SENDPKT INITIALIZE, " ++ hexHalf len
  | .wirePrint len => "SENDPKT PRINT, " ++ hexHalf len
  | .wireTransfer len => "SENDPKT TRANSFER, " ++ hexHalf len
  | .wireReport len => "SENDPKT REPORT, " ++ hexHalf len

/-- The text of a result, written after `->` (R93). -/
def replyText : Option Reply → String
  | none => ""
  | some (.byte v) => " -> " ++ hexByte v
  | some (.status w) => " -> " ++ hexHalf w

/-! The pseudo-operations (R94). -/

/-- `PKT.INIT`. -/
def pktInit : List Instr := [.sendpkt Wire.codeInitialize 0]
/-- `PKT.DATA n`. -/
def pktData (n : Half) : List Instr := [.sendpkt Wire.codeTransfer n]
/-- `PKT.END`. -/
def pktEnd : List Instr := [.sendpkt Wire.codeTransfer 0]
/-- `PKT.PRINT`. -/
def pktPrint : List Instr := [.sendpkt Wire.codePrint 4]
/-- `PKT.REPORT`. -/
def pktReport : List Instr := [.sendpkt Wire.codeReport 0]
/-- `RBWR4 a, b, c, d`. -/
def rbwr4 (a b c d : Byte) : List Instr := [.rbwr a, .rbwr b, .rbwr c, .rbwr d]

end Sys2Proof.Machine
end

