-- ==== Sys2Proof/Machine/Controller.lean ====
section
/-! DEFINITION. The reference controller: PrinterSession (spec/44_printer_session.md) and HostSession
(spec/45_host_session.md). A move is what the controller does between two operations: it takes the result of
the last one, reads or writes the host stream, changes its attributes and presents the next operations. It
touches no state of the block (R5, R11, R293). -/

namespace Sys2Proof.Machine

/-- Operations are presented at the port, as the bytes that encode them (R11, R83). -/
def State.present (ops : List Instr) (s : State) : State :=
  { s with pending := s.pending ++ ops.map encode }

/-- The controller's own state changes. -/
def State.withCtl (c : Controller) (s : State) : State := { s with ctl := c }

/-! ## The host stream -/

/-- What `HostRead(n)` finds in the stream (R227, R228). -/
inductive HostRead where
  /-- `n` bytes, and what follows them. -/
  | got (bytes : List Byte) (rest : List HostInput)
  /-- The timeout passed: the bytes obtained, and what follows the timeout. -/
  | short (bytes : List Byte) (rest : List HostInput)
  /-- Neither yet: the read blocks. -/
  | blocked
  deriving DecidableEq, Repr

/-- One more byte in front of what a read finds. -/
def HostRead.cons (b : Byte) : HostRead → HostRead
  | .got bytes rest => .got (b :: bytes) rest
  | .short bytes rest => .short (b :: bytes) rest
  | .blocked => .blocked

/-- `HostRead(n)`: obtain `n` bytes, blocking, giving up at the timeout (R227, R228). -/
def hostRead : Nat → List HostInput → HostRead
  | 0, input => .got [] input
  | _ + 1, [] => .blocked
  | _ + 1, .timeout :: rest => .short [] rest
  | n + 1, .byte b :: rest => (hostRead n rest).cons b

/-- The next chunk byte: this read blocks and has no timeout (R231, U21). -/
def hostByte : List HostInput → Option (Byte × List HostInput)
  | [] => none
  | .timeout :: rest => hostByte rest
  | .byte b :: rest => some (b, rest)

/-- The stream after a short read: whether the bytes obtained stay in it is a free value (R227, U20;
notes/assumptions/17.md). -/
def afterShort (keeps : Bool) (bytes : List Byte) (rest : List HostInput) : List HostInput :=
  if keeps then bytes.map .byte ++ rest else rest

/-- A 32-bit number from bytes, big-endian (R57, R227). -/
def word32 (bytes : List Byte) : Word :=
  bytes.foldl (fun acc b => acc <<< 8 ||| b.setWidth 32) 0

/-- The four bytes of a 32-bit number, big-endian (R57, R227). -/
def bigEndian32 (w : Word) : List Byte :=
  [w.extractLsb' 24 8, w.extractLsb' 16 8, w.extractLsb' 8 8, w.extractLsb' 0 8]

/-- `"OK"` in ASCII (R95, R235). -/
def ackOk : List Byte := [0x4F, 0x4B]

/-- `"KO"` in ASCII (R95, R235). -/
def ackKo : List Byte := [0x4B, 0x4F]

/-- The controller writes to the host (R12, R227). -/
def Controller.hostWrite (bytes : List Byte) (c : Controller) : Controller :=
  { c with log := c.log ++ [.write bytes] }

/-- Everything written to the host so far, oldest byte first. -/
def Controller.hostOut (c : Controller) : List Byte :=
  c.log.flatMap (fun e => match e with | .write bytes => bytes | _ => [])

/-! ## HostSession -/

/-- `Idle`, first part: zero `total` and `printed`, present `RBRST` (R227, R238). -/
def idleStart (s : State) : State :=
  (s.withCtl { s.ctl with total := 0, printed := 0, point := .idleRead }).present [.rbrst]

/-- A short read: the session stays in its state and retries on the next invocation (R228). -/
def shortRead (bytes : List Byte) (rest : List HostInput) (s : State) : State :=
  { s with
    ctl := { s.ctl with
      hostIn := afterShort (Config.keepsShortRead s.boot s.draws) bytes rest
      log := s.ctl.log ++ [.shortRead bytes]
      point := .hostInvoke }
    draws := s.draws + 1 }

/-- `Idle`, second part: read the image size, reply with the capacity, go to `Setup` (R227). -/
def idleRead (s : State) : State :=
  match hostRead 4 s.ctl.hostIn with
  | .blocked => s
  | .short bytes rest => shortRead bytes rest s
  | .got bytes rest =>
    s.withCtl (Controller.hostWrite (bigEndian32 (BitVec.ofNat 32 s.cfg.capacity))
      { s.ctl with
        total := word32 bytes
        hostState := .setup
        point := .hostInvoke
        hostIn := rest
        log := s.ctl.log ++ [.read bytes] })

/-- `Setup`: read the acknowledgement; `"OK"` goes on to `Print`, anything else aborts to `Idle` (R230). -/
def setupRead (s : State) : State :=
  match hostRead 2 s.ctl.hostIn with
  | .blocked => s
  | .short bytes rest => shortRead bytes rest s
  | .got bytes rest =>
    s.withCtl (Controller.hostWrite (if bytes = ackOk then ackOk else ackKo)
      { s.ctl with
        hostState := if bytes = ackOk then .print else .idle
        point := .hostInvoke
        hostIn := rest
        log := s.ctl.log ++ [.read bytes] })

/-- `toRead = min(total - printed, C)` (R231). -/
def toRead (s : State) : Nat := min (s.ctl.total.toNat - s.ctl.printed.toNat) s.cfg.capacity

/-- `Print`, first part: compute `toRead` and the inputs of the batch (R202, R231). -/
def chunkStart (s : State) : State :=
  s.withCtl { s.ctl with
    batchLen := toRead s
    isFirst := s.ctl.printed == 0
    isLast := decide (s.ctl.total.toNat ≤ s.ctl.printed.toNat + toRead s)
    point := .load (toRead s) }

/-- One invocation of HostSession's current state begins (R225, R226). -/
def hostInvoke (s : State) : State :=
  match s.ctl.hostState with
  | .idle => idleStart s
  | .setup => setupRead s
  | .print => chunkStart s

/-- `Print`, the chunk: one byte from the host into the FIFO, blocking (R231). -/
def loadByte (left : Nat) (s : State) : State :=
  match hostByte s.ctl.hostIn with
  | none => s
  | some (b, rest) =>
    (s.withCtl { s.ctl with
      hostIn := rest
      log := s.ctl.log ++ [.read [b]]
      point := .load left }).present [.rbwr b]

/-- `Print`, the session: PrinterSession is reset and run (R201, R204, R231). `status` has no specified value
until the first packet returns (R201; notes/assumptions/19.md). -/
def batchStart (s : State) : State :=
  { s with
    ctl := { s.ctl with
      printerState := .initializing
      bytesSent := 0
      status := Config.freeStatus s.boot s.draws
      point := .printerInvoke }
    draws := s.draws + 1 }

/-- `Print`, last part: count the chunk, reply with the status word, go on or end the session (R231). -/
def chunkEnd (s : State) : State :=
  let printed := s.ctl.printed + BitVec.ofNat 32 s.ctl.batchLen
  s.withCtl (Controller.hostWrite (ackOk ++ [high s.ctl.status, low s.ctl.status])
    { s.ctl with
      printed := printed
      hostState := if s.ctl.total ≤ printed then .idle else .print
      point := .hostInvoke })

/-! ## PrinterSession -/

/-- `min(ceiling - bytesSentThisBatch, MAX_PAYLOAD)` with `ceiling = batchLen` (R205, R217). -/
def chunkSize (s : State) : Nat := min (s.ctl.batchLen - s.ctl.bytesSent) s.cfg.maxPayload

/-- One invocation of PrinterSession's current state begins: the operations of R203, R205, R208 to R210 up to the
first result it needs. -/
def printerInvoke (s : State) : State :=
  match s.ctl.printerState with
  | .initializing =>
    (s.withCtl { s.ctl with bytesSent := 0, point := .initStatus }).present pktInit
  | .transfer =>
    (s.withCtl { s.ctl with point := .dataStatus (chunkSize s) }).present
      (pktData (BitVec.ofNat 16 (chunkSize s)))
  | .print =>
    (s.withCtl { s.ctl with point := .printStatus }).present
      (rbwr4 (marginByte s.cfg s.ctl.isFirst) (marginByte s.cfg s.ctl.isLast) Wire.palette
        Wire.exposure ++ pktPrint)

/-- `Initialize`, after the INITIALIZE packet: on to `Transfer` when ready, else again (R203). -/
def initStatus (w : Half) (s : State) : State :=
  s.withCtl { s.ctl with
    status := w
    printerState := if isReady s.cfg w then .transfer else .initializing
    point := .printerInvoke }

/-- `Transfer`, after a data packet: the next one, the terminator, or the fallback to `Initialize` (R205). -/
def dataStatus (chunk : Nat) (w : Half) (s : State) : State :=
  let c := { s.ctl with status := w, bytesSent := s.ctl.bytesSent + chunk }
  if isReady s.cfg w then
    if c.bytesSent < c.batchLen then
      s.withCtl { c with printerState := .transfer, point := .printerInvoke }
    else (s.withCtl { c with point := .endStatus }).present pktEnd
  else s.withCtl { c with printerState := .initializing, point := .printerInvoke }

/-- `Transfer`, after the terminator: on to `Print`; the status is not tested (R205). -/
def endStatus (w : Half) (s : State) : State :=
  s.withCtl { s.ctl with status := w, printerState := .print, point := .printerInvoke }

/-- One poll: `Delay(POLL_DELAY)`, then a REPORT packet (R211, R213; notes/assumptions/18.md). -/
def poll (next : Point) (w : Half) (s : State) : State :=
  (s.withCtl { s.ctl with
    status := w
    log := s.ctl.log ++ [.pollDelay s.cfg.pollDelay]
    point := next }).present pktReport

/-- First poll loop: poll until the busy bit is set, then go to the second loop (R211, R213). -/
def pollBusy (w : Half) (s : State) : State :=
  if busyBit w then poll .pollClear w s else poll .pollBusy w s

/-- Second poll loop: poll until the busy bit is clear; then the batch is complete (R204, R212, R213). -/
def pollClear (w : Half) (s : State) : State :=
  if busyBit w then poll .pollClear w s
  else s.withCtl { s.ctl with status := w, printerState := .initializing, point := .batchDone }

/-- A move that needs the status word the last packet handed back; without one the controller waits. -/
def withStatus (k : Half → State → State) (s : State) : State :=
  match s.result with
  | some (.status w) => k w s
  | _ => s

/-- One move of the reference controller, by its place in the running invocation. -/
def referenceMove (s : State) : State :=
  match s.ctl.point with
  | .hostInvoke => hostInvoke s
  | .idleRead => idleRead s
  | .load 0 => batchStart s
  | .load (left + 1) => loadByte left s
  | .printerInvoke => printerInvoke s
  | .initStatus => withStatus initStatus s
  | .dataStatus chunk => withStatus (dataStatus chunk) s
  | .endStatus => withStatus endStatus s
  | .printStatus => withStatus (poll .pollBusy) s
  | .pollBusy => withStatus pollBusy s
  | .pollClear => withStatus pollClear s
  | .batchDone => chunkEnd s

/-- What happens when no operation is presented: the reference controller moves, if it is attached; an arbitrary
controller simply presents nothing and nothing changes (R5, R11; notes/assumptions/15.md). -/
def controllerMove (s : State) : State :=
  match s.cfg.driver with
  | .external => s
  | .reference => referenceMove s

end Sys2Proof.Machine
end

