-- ==== Sys2Proof/Machine/Fetch.lean ====
section
/-! DEFINITION. What the block does next (spec/00_scope.md R10, R11): go on with the operation in progress, begin the
operation presented first, refuse a presentation that is none, or wait for the controller. -/

namespace Sys2Proof.Machine

/-- The four cases of a step. -/
inductive Fetched where
  /-- An operation is in progress; no other can begin (R293). -/
  | busy
  /-- No operation is presented. -/
  | idle
  /-- This instruction begins, in this state. -/
  | instr (i : Instr) (s : State)
  /-- The presentation is not an instruction. -/
  | reject (r : Refusal)
  deriving DecidableEq, Repr

/-- The refusal of a presentation, with the index it would have had (R265). -/
def refusalOf (index : Nat) : Reject → Refusal
  | .reservedWord w => .reservedCommandWord w index
  | .unlistedHeader bytes => .unlistedWireHeader bytes index
  | .badLength bytes => .malformedPresentation bytes index

/-- The presented instruction, taken from the port. -/
def fetch (s : State) : Fetched :=
  if s.busy then .busy
  else
    match s.pending with
    | [] => .idle
    | bytes :: rest =>
      match decode bytes with
      | .ok i => .instr i { s with pending := rest }
      | .error r => .reject (refusalOf (s.issued + 1) r)

/-- The state in which a table row's word is the operation presented first and no operation is in progress. -/
def placeWord (s : State) (nbits w : Nat) : State :=
  { s with pending := tableBytes nbits w :: s.pending, framer := none, xchg := none }

end Sys2Proof.Machine
end

