-- ==== Sys2Proof/Machine/Step.lean ====
section
/-! DEFINITION. One step of the machine (spec/00_scope.md R10, R11): one operation, or one move of the controller. -/

namespace Sys2Proof.Machine

/-- One step. A presented instruction runs as `exec` says; a presentation that is none is refused and nothing
changes (R265). -/
def step (s : State) : Host.Outcome State Fault Refusal :=
  match fetch s with
  | .busy => answer (resume s)
  | .idle => .next (controllerMove s)
  | .instr i s' => exec i s'
  | .reject r => .refused r

/-- The state whose next step runs the instruction of a table row's word (notes/assumptions/4.md). -/
def State.withFetchWord (s : State) (nbits w : Nat) : State := placeWord s nbits w

end Sys2Proof.Machine
end

