-- ==== Sys2Proof/Machine/Trace.lean ====
section
/-! DEFINITION. Views of the ghost trace (spec/00_scope.md R13, spec/41_transceiver.md R134) and of the inputs to come
(R136). Nothing here is read by a meaning. -/

namespace Sys2Proof.Machine

/-- The levels driven on `SOUT`, first to last. -/
def soutLevels (events : List Event) : List Level :=
  events.filterMap (fun e => match e with | .drive .sout l => some l | _ => none)

/-- The levels sampled on `SIN`, first to last. -/
def sinLevels (events : List Event) : List Level :=
  events.filterMap (fun e => match e with | .sample l => some l | _ => none)

/-- The bytes written to the stream, first to last. -/
def streamOuts (events : List Event) : List Byte :=
  events.filterMap (fun e => match e with | .streamWrite b => some b | _ => none)

/-- The bytes read from the stream, first to last. -/
def streamIns (events : List Event) : List Byte :=
  events.filterMap (fun e => match e with | .streamRead b => some b | _ => none)

/-- The byte whose bits are eight levels, bit 7 first (R56, R134). -/
def packByte (l7 l6 l5 l4 l3 l2 l1 l0 : Level) : Byte :=
  BitVec.ofBool l7 ++ BitVec.ofBool l6 ++ BitVec.ofBool l5 ++ BitVec.ofBool l4 ++
    BitVec.ofBool l3 ++ BitVec.ofBool l2 ++ BitVec.ofBool l1 ++ BitVec.ofBool l0

/-- Levels taken eight at a time (R134). -/
def packBytes : List Level → List Byte
  | l7 :: l6 :: l5 :: l4 :: l3 :: l2 :: l1 :: l0 :: rest =>
    packByte l7 l6 l5 l4 l3 l2 l1 l0 :: packBytes rest
  | _ => []

/-- The levels of a byte, bit 7 first (R56). -/
def bitLevels (b : Byte) : List Level :=
  [b.getLsbD 7, b.getLsbD 6, b.getLsbD 5, b.getLsbD 4,
    b.getLsbD 3, b.getLsbD 2, b.getLsbD 1, b.getLsbD 0]

/-- The bytes shifted out, one per exchange begun (R13, R134, R138). -/
def bytesOut (mode : Mode) (events : List Event) : List Byte :=
  match mode with
  | .link => packBytes (soutLevels events)
  | .loopback => streamOuts events

/-- The reply bytes, one per exchange completed (R13, R134, R138). -/
def bytesIn (mode : Mode) (events : List Event) : List Byte :=
  match mode with
  | .link => packBytes (sinLevels events)
  | .loopback => streamIns events

/-- The byte trace: the pairs `(out, in)`, one per completed exchange, a function of the pin trace (R13,
R134). -/
def byteTrace (mode : Mode) (events : List Event) : List (Byte × Byte) :=
  (bytesOut mode events).zip (bytesIn mode events)

/-- The byte trace of a state (R13). -/
def State.byteTrace (s : State) : List (Byte × Byte) :=
  Sys2Proof.Machine.byteTrace s.cfg.mode s.trace

/-- The delays of a trace added up: a lower bound on the time it took, in microseconds (R132, R294). -/
def delayTotal : List Event → Nat
  | [] => 0
  | .delay t :: rest => t + delayTotal rest
  | _ :: rest => delayTotal rest

/-- The six events of a bit that sends one level and samples another (R131). -/
def bitEvents (micros : Nat) (out sampled : Level) : List Event :=
  [.drive .sck false, .drive .sout out, .delay micros, .drive .sck true, .sample sampled,
    .delay micros]

/-- The 48 events of an exchange of `b` with reply `r`, bit 7 first (R131, R134). -/
def exchangeEvents (micros : Nat) (b r : Byte) : List Event :=
  bitEvents micros (b.getLsbD 7) (r.getLsbD 7) ++ bitEvents micros (b.getLsbD 6) (r.getLsbD 6) ++
  bitEvents micros (b.getLsbD 5) (r.getLsbD 5) ++ bitEvents micros (b.getLsbD 4) (r.getLsbD 4) ++
  bitEvents micros (b.getLsbD 3) (r.getLsbD 3) ++ bitEvents micros (b.getLsbD 2) (r.getLsbD 2) ++
  bitEvents micros (b.getLsbD 1) (r.getLsbD 1) ++ bitEvents micros (b.getLsbD 0) (r.getLsbD 0)

/-- The events of the bits below `n` of a byte, highest first, with the levels sampled (R131). -/
def linkEvents (micros : Nat) (b : Byte) : Nat → List Level → List Event
  | i + 1, l :: ls => bitEvents micros (b.getLsbD i) l ++ linkEvents micros b i ls
  | _, _ => []

/-- The next `n` levels the peer presents in a state (R136). -/
def State.upcoming : Nat → State → List Level
  | 0, _ => []
  | n + 1, s => s.sinLevel :: State.upcoming n s.sinAdvance

/-- The state after the next `n` levels are consumed (R136). -/
def State.advanced : Nat → State → State
  | 0, s => s
  | n + 1, s => State.advanced n s.sinAdvance

/-- The byte that the next eight levels of the peer make, bit 7 first (R131, R136). -/
def State.comingByte (s : State) : Byte :=
  packByte s.sinLevel (State.advanced 1 s).sinLevel (State.advanced 2 s).sinLevel
    (State.advanced 3 s).sinLevel (State.advanced 4 s).sinLevel (State.advanced 5 s).sinLevel
    (State.advanced 6 s).sinLevel (State.advanced 7 s).sinLevel

/-- The status word the peer answers to a packet of `len` payload bytes that begins with the next level: the replies
of exchanges `8 + len` and `9 + len`, high byte first (R156, R160). -/
def State.comingStatus (len : Nat) (s : State) : Half :=
  join (State.advanced (8 * (8 + len)) s).comingByte (State.advanced (8 * (9 + len)) s).comingByte

/-- The status words the peer answers to packets of these lengths, sent one after another (R136, R156). -/
def State.comingStatuses : List Nat → State → List Half
  | [], _ => []
  | len :: rest, s =>
    s.comingStatus len :: State.comingStatuses rest (State.advanced (8 * (10 + len)) s)

end Sys2Proof.Machine
end

