-- ==== Sys2Proof/Safety.lean ====
section
/-! DEFINITION. What counts as a good run (spec/70_reset_and_hazards.md R296, spec/60_exceptions.md R254), the duties of
the controller (R285 to R287), and the invariants of the block (spec/10_state.md R23, R34, R35) and of the
reference controller (R216, R237). -/

namespace Sys2Proof.Machine

/-! ## Good runs -/

/-- The state after `n` steps, if none of them faults or is refused. -/
def runSteps : Nat → State → Option State
  | 0, s => some s
  | n + 1, s =>
    match step s with
    | .next t => runSteps n t
    | .fault _ => none
    | .refused _ => none

/-- Every operation begun has returned: the state is the end state of the operations issued so far. In `LOOPBACK` an
exchange or a packet that waits for the stream has not returned (R266, R293, R296). -/
def State.ended (s : State) : Bool := !s.busy

/-- The state after a list of instructions, each begun once the one before has returned (R63, R293): nothing where one
faults or does not return. -/
def runInstrs : List Instr → State → Option State
  | [], s => some s
  | i :: rest, s =>
    match exec i s with
    | .next t => if t.ended then runInstrs rest t else none
    | .fault _ => none
    | .refused _ => none

/-- A good end state: the last operation has returned and no model fault is recorded (R254, R296). -/
def State.good (s : State) : Bool := s.ended && s.fault.isNone

/-- A run of `n` steps is good: nothing was refused, the last operation has returned, and no fault is recorded in the
state it left (R296). The run is the sequence of the operations issued in those steps. -/
def goodRun (n : Nat) (s : State) : Bool :=
  match runSteps n s with
  | some t => t.good
  | none => false

/-! ## Sessions of the reference controller (R296) -/

/-- The controller is about to invoke `Idle` of HostSession. -/
def State.atIdle (s : State) : Bool :=
  s.ended && s.pending.isEmpty && s.ctl.point == .hostInvoke && s.ctl.hostState == .idle

/-- The end of the session that runs in a state: the state that the `Print` invocation which yields `Idle` leaves, if
that happens within `n` steps and `Idle` is not invoked before it. -/
def sessionRest : Nat → State → Option State
  | 0, _ => none
  | n + 1, s =>
    match step s with
    | .next t =>
      if t.atIdle then (if s.ctl.point == .batchDone then some t else none)
      else sessionRest n t
    | .fault _ => none
    | .refused _ => none

/-- The end of the session that an `Idle` invocation begins, if it ends within `n` steps: no other `Idle` invocation
stands between, so this one has read the size (R296). -/
def session (n : Nat) (s : State) : Option State :=
  if s.atIdle then sessionRest n s else none

/-- The expected end of a session: `fill = 0` and `printed = total` once the last operation has returned and
HostSession is back at `Idle` (R296). -/
def State.sessionEnd (s : State) : Bool :=
  s.atIdle && s.fill == 0 && s.ctl.printed == s.ctl.total

/-! ## The duties of the controller -/

/-- `RBWR` respects the FIFO contract (R285). -/
def State.mayWrite (s : State) : Bool := decide (s.fill < s.cfg.capacity)

/-- `RBRD` respects the FIFO contract (R286). -/
def State.mayRead (s : State) : Bool := decide (0 < s.fill)

/-- `SENDPKT` with this length respects the FIFO contract (R286). -/
def State.maySend (len : Half) (s : State) : Bool := decide (len.toNat ≤ s.fill)

/-! ## Frames: what two states agree on -/

/-- Every byte of the storage reads the same. -/
def State.sameMemory (s t : State) : Prop := ∀ a, t.mem.read a = s.mem.read a

/-- The FIFO is as it was: every byte, both cursors, and the ghost fill and fault. -/
def State.sameFifo (s t : State) : Prop :=
  s.sameMemory t ∧ t.head = s.head ∧ t.tail = s.tail ∧ t.fill = s.fill ∧ t.fault = s.fault

/-- The lines and the trace are as they were, and no input of a peer was consumed. -/
def State.sameLink (s t : State) : Prop :=
  t.sck = s.sck ∧ t.sout = s.sout ∧ t.trace = s.trace ∧ t.sinIn = s.sinIn ∧
    t.streamIn = s.streamIn

/-- What no operation touches: the configuration, the operations presented, the controller and the number of the
power-on (R11, R29). -/
def State.sameOutside (s t : State) : Prop :=
  t.cfg = s.cfg ∧ t.pending = s.pending ∧ t.ctl = s.ctl ∧ t.boot = s.boot

/-- The operation was issued and has returned: it took the next index and left no transient value (R26, R28). -/
def State.returned (s t : State) : Prop :=
  t.issued = s.issued + 1 ∧ t.framer = none ∧ t.xchg = none

/-- The command and the length of an instruction that sends a packet (R151, R180). -/
def packetOf : Instr → Option (Byte × Half)
  | .rbwr _ => none
  | .rbrd => none
  | .rbrst => none
  | .xchg _ => none
  | .sendpkt cmd len => some (cmd, len)
  | .wireInitialize len => some (Wire.codeInitialize, len)
  | .wirePrint len => some (Wire.codePrint, len)
  | .wireTransfer len => some (Wire.codeTransfer, len)
  | .wireReport len => some (Wire.codeReport, len)

/-! ## The abstract queue (R35, R114) -/

/-- The FIFO operations on an abstract queue of a given capacity: the queue left and the bytes read, or nothing where
the sequence overruns, underruns, or holds another instruction. -/
def queueRun (capacity : Nat) : List Instr → List Byte → Option (List Byte × List Byte)
  | [], q => some (q, [])
  | .rbwr b :: rest, q => if q.length < capacity then queueRun capacity rest (q ++ [b]) else none
  | .rbrd :: rest, v :: q =>
    match queueRun capacity rest q with
    | some (q', out) => some (q', v :: out)
    | none => none
  | .rbrst :: rest, _ => queueRun capacity rest []
  | _, _ => none

/-- The machine over the same operations: the state left and the bytes handed back by the reads. -/
def fifoRun : List Instr → State → Option (State × List Byte)
  | [], s => some (s, [])
  | i :: rest, s =>
    match exec i s with
    | .next t =>
      match fifoRun rest t with
      | some (u, out) =>
        match t.result with
        | some (.byte v) => some (u, v :: out)
        | _ => some (u, out)
      | none => none
    | .fault _ => none
    | .refused _ => none

/-- An operation of the FIFO (R110). -/
def isFifoOp : Instr → Bool
  | .rbwr _ => true
  | .rbrd => true
  | .rbrst => true
  | _ => false

/-! ## The timing of the lines (R133) -/

/-- The data line against the clock: `SOUT` changes only while `SCK` is 0, a rising `SCK` finds `SOUT` settled by a
delay, and `SIN` is sampled while `SCK` is 1. The arguments are the levels of `SCK` and `SOUT` and whether a delay has
passed since `SOUT` was last driven. -/
def dataTiming : Level → Level → Bool → List Event → Bool
  | _, _, _, [] => true
  | sck, sout, settled, .drive .sck l :: rest =>
    (!(l && !sck) || settled) && dataTiming l sout settled rest
  | sck, sout, _, .drive .sout l :: rest =>
    (l == sout || !sck) && dataTiming sck l false rest
  | sck, sout, _, .delay _ :: rest => dataTiming sck sout true rest
  | sck, sout, settled, .sample _ :: rest => sck && dataTiming sck sout settled rest
  | sck, sout, settled, _ :: rest => dataTiming sck sout settled rest

/-! ## The invariant of the block -/

/-- What holds after hardware reset and after every step: the parameters are legal (R8), the storage has its
canonical form inside the address space (R21, R50), the cursors are in range (R23), `fill` is at most `C` (R30), the
clock line idles at 1 (R36, R135), an operation in progress is one that waits for the stream (R137, R266), and as
long as no fault is recorded the cursors differ by `fill` (R34) and every queued cell has been written (R35). -/
structure State.Inv (s : State) : Prop where
  cfg : s.cfg.Wf
  memWf : s.mem.wf = true
  memWithin : s.mem.within s.cfg.capacity = true
  headRange : s.head < s.cfg.capacity
  tailRange : s.tail < s.cfg.capacity
  fillRange : s.fill ≤ s.cfg.capacity
  clockIdle : s.sck = true
  waiting : s.busy = true → s.cfg.mode = .loopback ∧ s.xchg.isSome = true
  cursors : s.fault = none → s.tail = (s.head + s.fill) % s.cfg.capacity
  written : s.fault = none →
    ∀ k, k < s.fill → (s.mem.read ((s.head + k) % s.cfg.capacity)).isSome = true

/-! ## The accounting of the reference controller (R216, R237) -/

/-- What a list of presented operations does to `fill`, or nothing if it would overrun or underrun (R111 to R113,
R159). -/
def account (capacity : Nat) : List (List Byte) → Nat → Option Nat
  | [], fill => some fill
  | bytes :: rest, fill =>
    match decode bytes with
    | .ok (.rbwr _) => if fill < capacity then account capacity rest (fill + 1) else none
    | .ok (.rbrd) => if 0 < fill then account capacity rest (fill - 1) else none
    | .ok (.rbrst) => account capacity rest 0
    | .ok (.xchg _) => account capacity rest fill
    | .ok (.sendpkt _ len) =>
      if len.toNat ≤ fill then account capacity rest (fill - len.toNat) else none
    | .ok (.wireInitialize len) =>
      if len.toNat ≤ fill then account capacity rest (fill - len.toNat) else none
    | .ok (.wirePrint len) =>
      if len.toNat ≤ fill then account capacity rest (fill - len.toNat) else none
    | .ok (.wireTransfer len) =>
      if len.toNat ≤ fill then account capacity rest (fill - len.toNat) else none
    | .ok (.wireReport len) =>
      if len.toNat ≤ fill then account capacity rest (fill - len.toNat) else none
    | .error _ => none

/-- How many bytes the FIFO holds at each place of the controller's invocations, once the operations presented there
have run (R216, R237). -/
def Controller.owed (c : Controller) : Nat :=
  match c.point with
  | .hostInvoke => 0
  | .idleRead => 0
  | .load left => c.batchLen - left
  | .printerInvoke =>
    match c.printerState with
    | .initializing => c.batchLen
    | .transfer => c.batchLen - c.bytesSent
    | .print => 0
  | .initStatus => c.batchLen
  | .dataStatus chunk => c.batchLen - c.bytesSent - chunk
  | .endStatus => 0
  | .printStatus => 0
  | .pollBusy => 0
  | .pollClear => 0
  | .batchDone => 0

/-- The FIFO accounting of the reference controller in `LINK` (R216, R237): the operations presented run without
overrun or underrun and leave exactly the bytes that are owed. -/
structure State.Accounted (s : State) : Prop where
  cfg : s.cfg.Wf
  driver : s.cfg.driver = .reference
  mode : s.cfg.mode = .link
  room : 4 ≤ s.cfg.capacity
  noFault : s.fault = none
  idle : s.busy = false
  batch : s.ctl.batchLen ≤ s.cfg.capacity
  nothingSent : s.ctl.point = .initStatus → s.ctl.bytesSent = 0
  sent : s.ctl.point = .printerInvoke → s.ctl.printerState = .transfer →
    s.ctl.bytesSent ≤ s.ctl.batchLen
  chunkFits : ∀ chunk, s.ctl.point = .dataStatus chunk →
    s.ctl.bytesSent + chunk ≤ s.ctl.batchLen
  loading : ∀ left, s.ctl.point = .load left → left ≤ s.ctl.batchLen
  account : account s.cfg.capacity s.pending s.fill = some s.ctl.owed

/-- The lengths of the data packets of a batch when every status is ready: full ones, then the rest; an empty batch
still sends one (R205, R216, R217). -/
def dataPackets (maxPayload batchLen : Nat) : List Nat :=
  if batchLen = 0 then [0]
  else
    List.replicate (batchLen / maxPayload) maxPayload ++
      (if batchLen % maxPayload = 0 then [] else [batchLen % maxPayload])

/-- The counts of HostSession (R226): `printed` never passes `total`, and the chunk in hand fits what is left
(R231). -/
structure State.Counted (s : State) : Prop where
  printed : s.ctl.printed.toNat ≤ s.ctl.total.toNat
  zeroed : s.ctl.point = .idleRead → s.ctl.printed = 0
  chunk : s.ctl.point ≠ .hostInvoke → s.ctl.point ≠ .idleRead →
    s.ctl.printed.toNat + s.ctl.batchLen ≤ s.ctl.total.toNat

/-- The controller is about to fall back from `Transfer` to `Initialize` (R205, R207). -/
def State.fallsBack (s : State) : Prop :=
  s.busy = false ∧ s.pending = [] ∧
    ∃ chunk w, s.ctl.point = .dataStatus chunk ∧ s.result = some (.status w) ∧
      isReady s.cfg w = false

end Sys2Proof.Machine
end

