-- ==== Sys2Proof/WellFormed.lean ====
section
/-! DEFINITION. Which instructions have the packet shape their row of the table gives. The framer checks
none of this (spec/42_packet_framer.md R164): an instruction of another shape still runs. Well-formedness
is what the controller owes, never a condition of a meaning. -/

namespace Sys2Proof

/-- The shape of a wire command as spec/43_wire_commands.md gives it: INITIALIZE and REPORT carry no payload
(R181, R184), PRINT carries four bytes (R182), TRANSFER carries at most `MAX_PAYLOAD` (R183, R288). The five
operations admit every operand (R82). -/
def Instr.wellFormed (c : Config) : Instr → Bool
  | .rbwr _ => true
  | .rbrd => true
  | .rbrst => true
  | .xchg _ => true
  | .sendpkt _ _ => true
  | .wireInitialize len => len == 0
  | .wirePrint len => len == 4
  | .wireTransfer len => decide (len.toNat ≤ c.maxPayload)
  | .wireReport len => len == 0

end Sys2Proof
end

