-- ==== Sys2Proof/Certificates/Slice0/Obligations.lean ====
section
/-! DEFINITION. The statements about the machine. -/

open Sys2Proof Sys2Proof.Machine

/-! ## Encodings -/

/-- Decoding what encodes an instruction gives that instruction, for every instruction and operand (R83, R84,
R91). -/
def Obligations.DecodeEncodeAgree : Prop :=
  ∀ i : Instr, decode (encode i) = .ok i

/-- Every presentation that decodes is the encoding of the instruction it decodes to: no bit is ignored (R83, R85,
R87). -/
def Obligations.EncodeDecodeAgree : Prop :=
  ∀ (bytes : List Byte) (i : Instr), decode bytes = .ok i → encode i = bytes

/-- R85: the reserved command words are exactly those with an `op` outside 1 to 5, a non-zero `z`, or a non-zero
unused field. Such a word is refused by name with its index (R265); that operations are numbered from 1, and that the
refusal is an outcome of the step without a state, are the model's reading (log entries 12 and 26). -/
def Obligations.ReservedWordsAreRefused : Prop :=
  (∀ w : Word,
    decodeWord w = .error (.reservedWord w) ↔
      (fieldOp w = 0 ∨ 6 ≤ (fieldOp w).toNat) ∨ fieldZ w ≠ 0 ∨
        ((fieldOp w = 1 ∨ fieldOp w = 4) ∧ fieldN w ≠ 0) ∨
        ((fieldOp w = 2 ∨ fieldOp w = 3) ∧ (fieldA w ≠ 0 ∨ fieldN w ≠ 0))) ∧
  (∀ (w : Word) (s : State) (rest : List (List Byte)),
    s.busy = false → s.pending = wordBytes w :: rest →
      decodeWord w = .error (.reservedWord w) →
        step s = .refused (.reservedCommandWord w (s.issued + 1)))

/-- R84: the `mask` and `match` pairs are disjoint: no word selects two rows. -/
def Obligations.CommandRowsAreDisjoint : Prop :=
  ∀ (r q : WordRow) (w : Word), r.selects w = true → q.selects w = true → r = q

/-- Command words and headers written out from the tables of R83 and R91 decode to the instructions they stand
for. R83 numbers the bits of a 32-bit command word. For the 48-bit rows the spec gives the bytes in the order of
exchange and no number: that the first byte out is bits 7 to 0 of the number is the model's choice (log entry 2). -/
def Obligations.SampleWordsDecode : Prop :=
  decodeTableWord 32 0x10FF0000 = some (.rbwr 0xFF) ∧
  decodeTableWord 32 0x20000000 = some .rbrd ∧
  decodeTableWord 32 0x30000000 = some .rbrst ∧
  decodeTableWord 32 0x40880000 = some (.xchg 0x88) ∧
  decodeTableWord 32 0x50040280 = some (.sendpkt 0x04 640) ∧
  decodeTableWord 48 0x000000013388 = some (.wireInitialize 0) ∧
  decodeTableWord 48 0x000400023388 = some (.wirePrint 4) ∧
  decodeTableWord 48 0x028000043388 = some (.wireTransfer 640) ∧
  decodeTableWord 48 0x0000000F3388 = some (.wireReport 0)

/-- R88: how the fields of a packet are assembled, over the naturals. -/
def Obligations.WireFieldAssembly : Prop :=
  (∀ len : Half, (low len).toNat = len.toNat % 256 ∧ (high len).toNat = len.toNat / 256 ∧
    len.toNat = (low len).toNat + 256 * (high len).toNat) ∧
  (∀ (cmd : Byte) (len : Half) (payload : List Byte),
    (checksum cmd len payload).toNat =
      (cmd.toNat + (low len).toNat + (high len).toNat + (payload.map BitVec.toNat).sum) % 65536) ∧
  (∀ hi lo : Byte, (join hi lo).toNat = hi.toNat * 256 + lo.toNat)

/-- R187: the busy bit of a status word is bit 1. -/
def Obligations.BusyBitIsBitOne : Prop :=
  ∀ w : Half, busyBit w = w.getLsbD 1

/-! ## The FIFO operations -/

/-- R111: `RBWR b`, the command word `0x1 0 b 0x0000`, stores at `tail` and advances `tail` modulo `C`, with its ghost
effect, and leaves everything else. That the recorded index counts from 1 is the model's reading (log entry 12), and the
order of the four bytes in the `decode` clause its choice (log entry 2). -/
def Obligations.RbwrStoresAtTail : Prop :=
  ∀ (b : Byte) (s : State), s.tail < s.cfg.capacity →
    ∃ t, decode [0x00, 0x00, b, 0x10] = .ok (.rbwr b) ∧ exec (.rbwr b) s = .next t ∧
      t.mem.read s.tail = some b ∧
      (∀ a, a ≠ s.tail → t.mem.read a = s.mem.read a) ∧
      t.tail = (if s.tail = s.cfg.capacity - 1 then 0 else s.tail + 1) ∧
      t.head = s.head ∧
      (s.fault = none → s.fill = s.cfg.capacity →
        t.fill = s.fill ∧
          t.fault = some { kind := .fifoOverrun, op := s.issued + 1, payload := none }) ∧
      (s.fault = none → s.fill ≠ s.cfg.capacity → t.fill = s.fill + 1 ∧ t.fault = none) ∧
      (s.fault ≠ none → t.fill = s.fill ∧ t.fault = s.fault) ∧
      t.result = none ∧ s.sameLink t ∧ s.sameOutside t ∧ s.returned t

/-- R112: `RBRD`, the command word `0x20000000`, hands back the byte at `head` and advances `head` modulo `C`, with its ghost effect, and leaves
everything else. With a fault recorded it still hands back a byte; which one is not said (log entry 9). That the
recorded index counts from 1 is the model's reading (log entry 12), and the order of the four bytes in the `decode`
clause its choice (log entry 2). -/
def Obligations.RbrdFetchesAtHead : Prop :=
  ∀ s : State, s.head < s.cfg.capacity →
    ∃ t v, decode [0x00, 0x00, 0x00, 0x20] = .ok .rbrd ∧ exec .rbrd s = .next t ∧
      t.result = some (.byte v) ∧
      (s.fault = none → s.fill ≠ 0 → v = s.cell s.head) ∧
      t.head = (if s.head = s.cfg.capacity - 1 then 0 else s.head + 1) ∧
      t.tail = s.tail ∧ s.sameMemory t ∧
      (s.fault = none → s.fill = 0 →
        t.fill = 0 ∧
          t.fault = some { kind := .fifoUnderrun, op := s.issued + 1, payload := none }) ∧
      (s.fault = none → s.fill ≠ 0 → t.fill = s.fill - 1 ∧ t.fault = none) ∧
      (s.fault ≠ none → t.fill = s.fill ∧ t.fault = s.fault) ∧
      s.sameLink t ∧ s.sameOutside t ∧ s.returned t

/-- R113, R282: `RBRST`, the command word `0x30000000`, sets both cursors and the ghost fill to 0 and touches neither the
storage, the lines, the trace nor a recorded fault. The order of the four bytes in the `decode` clause is the model's
choice (log entry 2). -/
def Obligations.RbrstZeroesTheCursors : Prop :=
  ∀ s : State,
    ∃ t, decode [0x00, 0x00, 0x00, 0x30] = .ok .rbrst ∧ exec .rbrst s = .next t ∧
      t.head = 0 ∧ t.tail = 0 ∧ t.fill = 0 ∧ t.fault = s.fault ∧ s.sameMemory t ∧
      t.result = none ∧ s.sameLink t ∧ s.sameOutside t ∧ s.returned t

/-- A FIFO operation whose cursor stands outside `mem` stops, and only then. The stop is the model's choice (log
entry 20): R53 says that there is no out-of-range fault because no run forms such an index, and R12 defines an access
only below `C`. -/
def Obligations.CursorOutsideStops : Prop :=
  (∀ (b : Byte) (s : State),
    exec (.rbwr b) s = .fault (.indexOutOfRange s.tail) ↔ s.cfg.capacity ≤ s.tail) ∧
  (∀ s : State, exec .rbrd s = .fault (.indexOutOfRange s.head) ↔ s.cfg.capacity ≤ s.head)

/-- R35: on the queue content, `RBWR` appends, `RBRD` removes and returns the first byte, `RBRST` empties. -/
def Obligations.QueueContent : Prop :=
  ∀ s : State, s.Inv → s.fault = none →
    (∀ b, s.fill < s.cfg.capacity →
      ∃ t, exec (.rbwr b) s = .next t ∧ t.queue = s.queue ++ [b] ∧ t.fault = none) ∧
    (∀ v q, s.queue = v :: q →
      ∃ t, exec .rbrd s = .next t ∧ t.result = some (.byte v) ∧ t.queue = q ∧ t.fault = none) ∧
    (∃ t, exec .rbrst s = .next t ∧ t.queue = [] ∧ t.fault = none)

/-- R114, R116: over any sequence of FIFO operations the block is the abstract queue of capacity `C`: where the queue
neither overruns nor underruns the block returns the same bytes, holds the same content and records no fault, and where
it does the block records one. -/
def Obligations.FifoRefinesTheQueue : Prop :=
  ∀ (ops : List Instr) (s : State), ops.all isFifoOp = true → s.Inv → s.fault = none →
    match queueRun s.cfg.capacity ops s.queue with
    | some (q, out) => ∃ t, fifoRun ops s = some (t, out) ∧ t.queue = q ∧ t.fault = none
    | none => ∃ t out, fifoRun ops s = some (t, out) ∧ t.fault ≠ none

/-- R115: from `head = tail = 0`, after `k` writes `tail = k mod C` and after `k` reads `head = k mod C`, in any
order and whether or not a fault is recorded. -/
def Obligations.CursorsCountModuloCapacity : Prop :=
  ∀ (ops : List Instr) (s : State), 1 ≤ s.cfg.capacity → s.head = 0 → s.tail = 0 →
    (∀ i, i ∈ ops → i = .rbrd ∨ ∃ b, i = .rbwr b) →
      ∃ t, runInstrs ops s = some t ∧
        t.tail = (ops.filter (fun i => decide (i ≠ .rbrd))).length % s.cfg.capacity ∧
        t.head = (ops.filter (fun i => decide (i = .rbrd))).length % s.cfg.capacity

/-! ## The transceiver -/

/-- R131, R135, R137: `XCHG b`, the command word `0x4 0 b 0x0000`, always returns in `LINK`: 48 events in the order of
R131, the reply assembled from the eight levels the peer presents, bit 7 first, one pair in the byte trace, `SCK` left
at 1 and `SOUT` at bit 0; no FIFO state changes. The order of the four bytes in the `decode` clause is the model's choice
(log entry 2). -/
def Obligations.XchgOnTheLines : Prop :=
  ∀ (b : Byte) (s : State), s.cfg.mode = .link →
    ∃ t events l7 l6 l5 l4 l3 l2 l1 l0,
      decode [0x00, 0x00, b, 0x40] = .ok (.xchg b) ∧ exec (.xchg b) s = .next t ∧
      State.upcoming 8 s = [l7, l6, l5, l4, l3, l2, l1, l0] ∧
      t.trace = s.trace ++ events ∧
      events =
        bitEvents s.cfg.delayUs (b.getLsbD 7) l7 ++ bitEvents s.cfg.delayUs (b.getLsbD 6) l6 ++
        bitEvents s.cfg.delayUs (b.getLsbD 5) l5 ++ bitEvents s.cfg.delayUs (b.getLsbD 4) l4 ++
        bitEvents s.cfg.delayUs (b.getLsbD 3) l3 ++ bitEvents s.cfg.delayUs (b.getLsbD 2) l2 ++
        bitEvents s.cfg.delayUs (b.getLsbD 1) l1 ++ bitEvents s.cfg.delayUs (b.getLsbD 0) l0 ∧
      byteTrace .link events = [(b, packByte l7 l6 l5 l4 l3 l2 l1 l0)] ∧
      t.result = some (.byte (packByte l7 l6 l5 l4 l3 l2 l1 l0)) ∧
      t.sck = true ∧ t.sout = b.getLsbD 0 ∧ t.streamIn = s.streamIn ∧
      s.sameFifo t ∧ s.sameOutside t ∧ s.returned t

/-- R138: `XCHG b` in `LOOPBACK` with a byte available writes `b`, reads that byte and returns it; no line moves and no
FIFO state changes. That the write stands before the read is the spec's own decision D14 (log entry 21). -/
def Obligations.XchgOnTheStream : Prop :=
  ∀ (b r : Byte) (rest : List Byte) (s : State), s.cfg.mode = .loopback →
    s.streamIn = r :: rest →
      ∃ t, exec (.xchg b) s = .next t ∧
        t.trace = s.trace ++ [.streamWrite b, .streamRead r] ∧
        t.result = some (.byte r) ∧ t.streamIn = rest ∧
        t.sck = s.sck ∧ t.sout = s.sout ∧ t.sinIn = s.sinIn ∧
        s.sameFifo t ∧ s.sameOutside t ∧ s.returned t

/-- R138, R266: `XCHG b` in `LOOPBACK` with no byte available has written `b` and does not return: it hands nothing back
and stays in progress, and no step gets past it while the stream stays empty. That `b` is written before the read blocks is
the spec's own decision D14 (log entry 21). -/
def Obligations.XchgWaitsForTheStream : Prop :=
  (∀ (b : Byte) (s : State), s.cfg.mode = .loopback → s.streamIn = [] →
    ∃ t, exec (.xchg b) s = .next t ∧ t.busy = true ∧ t.result = none ∧
      t.trace = s.trace ++ [.streamWrite b] ∧ t.streamIn = [] ∧
      t.sck = s.sck ∧ t.sout = s.sout ∧ s.sameFifo t ∧ s.sameOutside t) ∧
  (∀ s : State, s.cfg.mode = .loopback → s.xchg.isSome = true → s.streamIn = [] →
    ∀ n, runSteps n s = some s)

/-- R136: every reply is a possible reply to every byte, in either mode. -/
def Obligations.EveryReplyIsPossible : Prop :=
  ∀ (b r : Byte) (s : State),
    (s.cfg.mode = .link →
      ∃ levels t, exec (.xchg b) { s with sinIn := levels } = .next t ∧
        t.result = some (.byte r)) ∧
    (s.cfg.mode = .loopback →
      ∃ bytes t, exec (.xchg b) { s with streamIn := bytes } = .next t ∧
        t.result = some (.byte r))

/-- R134, R152: in `LINK` what an instruction adds to the pin trace is the 48-event groups of R131 one after another, one
for each pair of its byte trace and in that order, with nothing between them; and the byte trace is read off the levels:
the bytes out are those driven, the bytes in those sampled. -/
def Obligations.ByteTraceFromPinTrace : Prop :=
  ∀ (i : Instr) (s t : State), s.cfg.mode = .link → exec i s = .next t →
    ∃ events, t.trace = s.trace ++ events ∧
      events =
        (byteTrace .link events).flatMap (fun p => exchangeEvents s.cfg.delayUs p.1 p.2) ∧
      events.length = 48 * (bytesOut .link events).length ∧
      (bytesIn .link events).length = (bytesOut .link events).length ∧
      soutLevels events = (bytesOut .link events).flatMap bitLevels ∧
      sinLevels events = (bytesIn .link events).flatMap bitLevels

/-- R133: `SOUT` changes only while `SCK` is 0 and is settled for one delay when `SCK` rises, and `SIN` is sampled while
`SCK` is 1, in everything an instruction adds to the trace in `LINK`. -/
def Obligations.DataLineTiming : Prop :=
  ∀ (i : Instr) (s t : State), s.cfg.mode = .link → exec i s = .next t →
    ∃ events, t.trace = s.trace ++ events ∧ dataTiming s.sck s.sout false events = true

/-- R132, R294: in `LINK` an exchange waits 16 delays and a packet 16 for each of its `10 + len` exchanges. -/
def Obligations.DelaysPerExchange : Prop :=
  (∀ (b : Byte) (s t : State), s.cfg.mode = .link → exec (.xchg b) s = .next t →
    ∃ events, t.trace = s.trace ++ events ∧ delayTotal events = 16 * s.cfg.delayUs) ∧
  (∀ (i : Instr) (cmd : Byte) (len : Half) (s t : State), packetOf i = some (cmd, len) →
    s.cfg.mode = .link → exec i s = .next t →
      ∃ events, t.trace = s.trace ++ events ∧
        delayTotal events = 16 * s.cfg.delayUs * (10 + len.toNat))

/-! ## Packets -/

/-- R151, R156, R160, R163: in `LINK` a packet whose payload is in the FIFO completes: `10 + len` exchanges, the bytes
out are the header, the first `len` queued bytes and the checksum and two zero bytes, the replies are the levels the
peer presents, the status is the last two replies, high byte first, and the net effect is that of R163. It holds of
`SENDPKT` and of the four wire commands. That the last two bytes out are 0x00 is the
spec's own decision D7 (log entry 21). -/
def Obligations.PacketCompletesOnTheLines : Prop :=
  ∀ (i : Instr) (cmd : Byte) (len : Half) (s : State), packetOf i = some (cmd, len) →
    s.cfg.mode = .link → s.head < s.cfg.capacity → s.fault = none → len.toNat ≤ s.fill →
      ∃ t events hi lo, exec i s = .next t ∧
        t.trace = s.trace ++ events ∧
        events.length = 48 * (10 + len.toNat) ∧
        bytesOut .link events = packetBytes cmd len (s.queue.take len.toNat) ∧
        sinLevels events = State.upcoming (8 * (10 + len.toNat)) s ∧
        (bytesIn .link events)[8 + len.toNat]? = some hi ∧
        (bytesIn .link events)[9 + len.toNat]? = some lo ∧
        t.result = some (.status (join hi lo)) ∧
        t.head = (s.head + len.toNat) % s.cfg.capacity ∧
        t.fill = s.fill - len.toNat ∧ t.fault = none ∧
        t.tail = s.tail ∧ s.sameMemory t ∧
        t.sck = true ∧ t.sout = false ∧ t.streamIn = s.streamIn ∧
        s.sameOutside t ∧ s.returned t

/-- R138, R140, R151: in `LOOPBACK`, with a byte available for every exchange, the same packet completes with the same
bytes out; the replies are the stream's bytes and no line moves. That the last two bytes out are 0x00 is the
spec's own decision D7 (log entry 21). -/
def Obligations.PacketCompletesOnTheStream : Prop :=
  ∀ (i : Instr) (cmd : Byte) (len : Half) (replies rest : List Byte) (s : State),
    packetOf i = some (cmd, len) → s.cfg.mode = .loopback → s.head < s.cfg.capacity →
    s.fault = none → len.toNat ≤ s.fill → replies.length = 10 + len.toNat →
    s.streamIn = replies ++ rest →
      ∃ t events hi lo, exec i s = .next t ∧
        t.trace = s.trace ++ events ∧
        events.length = 2 * (10 + len.toNat) ∧
        bytesOut .loopback events = packetBytes cmd len (s.queue.take len.toNat) ∧
        bytesIn .loopback events = replies ∧
        replies[8 + len.toNat]? = some hi ∧ replies[9 + len.toNat]? = some lo ∧
        t.result = some (.status (join hi lo)) ∧
        t.head = (s.head + len.toNat) % s.cfg.capacity ∧
        t.fill = s.fill - len.toNat ∧ t.fault = none ∧
        t.tail = s.tail ∧ s.sameMemory t ∧
        t.sck = s.sck ∧ t.sout = s.sout ∧ t.sinIn = s.sinIn ∧ t.streamIn = rest ∧
        s.sameOutside t ∧ s.returned t

/-- R158: a packet of length 0 leaves the FIFO untouched, cannot fault, and shifts out `88 33 cmd 00 00 00 cmd 00 00 00`:
ten exchanges, in either mode and in any state of the FIFO. That the last two bytes out are 0x00 is the
spec's own decision D7 (log entry 21). -/
def Obligations.EmptyPacket : Prop :=
  ∀ (i : Instr) (cmd : Byte) (s : State), packetOf i = some (cmd, 0) →
    s.cfg.mode = .link ∨ 10 ≤ s.streamIn.length →
      ∃ t events, exec i s = .next t ∧ t.trace = s.trace ++ events ∧
        bytesOut s.cfg.mode events =
          [0x88, 0x33, cmd, 0x00, 0x00, 0x00, cmd, 0x00, 0x00, 0x00] ∧
        (bytesIn s.cfg.mode events).length = 10 ∧
        (∃ w, t.result = some (.status w)) ∧
        s.sameFifo t ∧ s.sameOutside t ∧ s.returned t

/-- R140, R159, R253: a packet longer than the FIFO content still completes, in `LINK` and, with a byte available for
every exchange, in `LOOPBACK`: the queued bytes go first, the deficient read records `FIFO_UNDERRUN` with the operation's
index and the payload index `fill`, and `head` advances by `len` modulo `C` all the same. That the operation's index
counts from 1 is the model's reading (log entry 12). -/
def Obligations.DeficientPacketRecordsUnderrun : Prop :=
  (∀ (i : Instr) (cmd : Byte) (len : Half) (s : State), packetOf i = some (cmd, len) →
    s.cfg.mode = .link → s.head < s.cfg.capacity → s.fault = none → s.fill < len.toNat →
      ∃ t events, exec i s = .next t ∧
        t.trace = s.trace ++ events ∧
        events.length = 48 * (10 + len.toNat) ∧
        (bytesOut .link events).take (6 + s.fill) = headerBytes cmd len ++ s.queue ∧
        t.fault = some { kind := .fifoUnderrun, op := s.issued + 1, payload := some s.fill } ∧
        t.fill = 0 ∧ t.head = (s.head + len.toNat) % s.cfg.capacity ∧
        t.tail = s.tail ∧ s.sameMemory t ∧ (∃ w, t.result = some (.status w)) ∧
        s.sameOutside t ∧ s.returned t) ∧
  (∀ (i : Instr) (cmd : Byte) (len : Half) (replies rest : List Byte) (s : State),
    packetOf i = some (cmd, len) → s.cfg.mode = .loopback → s.head < s.cfg.capacity →
    s.fault = none → s.fill < len.toNat → replies.length = 10 + len.toNat →
    s.streamIn = replies ++ rest →
      ∃ t events hi lo, exec i s = .next t ∧
        t.trace = s.trace ++ events ∧
        events.length = 2 * (10 + len.toNat) ∧
        (bytesOut .loopback events).take (6 + s.fill) = headerBytes cmd len ++ s.queue ∧
        bytesIn .loopback events = replies ∧
        replies[8 + len.toNat]? = some hi ∧ replies[9 + len.toNat]? = some lo ∧
        t.result = some (.status (join hi lo)) ∧
        t.fault = some { kind := .fifoUnderrun, op := s.issued + 1, payload := some s.fill } ∧
        t.fill = 0 ∧ t.head = (s.head + len.toNat) % s.cfg.capacity ∧
        t.tail = s.tail ∧ s.sameMemory t ∧
        t.sck = s.sck ∧ t.sout = s.sout ∧ t.sinIn = s.sinIn ∧ t.streamIn = rest ∧
        s.sameOutside t ∧ s.returned t)

/-- R89: the first 48 levels driven on `SOUT` are the header's bits, each byte bit 7 first, for every command and length
and in every state of the FIFO. -/
def Obligations.HeaderPatternOnSout : Prop :=
  ∀ (i : Instr) (cmd : Byte) (len : Half) (s : State), packetOf i = some (cmd, len) →
    s.cfg.mode = .link → s.head < s.cfg.capacity →
      ∃ t events, exec i s = .next t ∧ t.trace = s.trace ++ events ∧
        (soutLevels events).take 48 =
          [true, false, false, false, true, false, false, false,
            false, false, true, true, false, false, true, true] ++
          bitLevels cmd ++ List.replicate 8 false ++
          [len.getLsbD 7, len.getLsbD 6, len.getLsbD 5, len.getLsbD 4,
            len.getLsbD 3, len.getLsbD 2, len.getLsbD 1, len.getLsbD 0] ++
          [len.getLsbD 15, len.getLsbD 14, len.getLsbD 13, len.getLsbD 12,
            len.getLsbD 11, len.getLsbD 10, len.getLsbD 9, len.getLsbD 8]

/-- R181 to R184: the bytes out of every packet the reference controller sends: the empty INITIALIZE and REPORT, the data
TRANSFER of any length in the FIFO, the terminator, and the PRINT whose payload is the four bytes queued first. Each is
said of the command word `SENDPKT` that the controller presents and of the wire header alike. That the last two bytes out are 0x00 is the
spec's own decision D7 (log entry 21). -/
def Obligations.WireCommandBytes : Prop :=
  ∀ (i : Instr) (s : State), s.cfg.mode = .link → s.head < s.cfg.capacity → s.fault = none →
    (packetOf i = some (0x01, 0) →
      ∃ t events, exec i s = .next t ∧ t.trace = s.trace ++ events ∧
        bytesOut .link events = [0x88, 0x33, 0x01, 0x00, 0x00, 0x00, 0x01, 0x00, 0x00, 0x00]) ∧
    (packetOf i = some (0x0F, 0) →
      ∃ t events, exec i s = .next t ∧ t.trace = s.trace ++ events ∧
        bytesOut .link events = [0x88, 0x33, 0x0F, 0x00, 0x00, 0x00, 0x0F, 0x00, 0x00, 0x00]) ∧
    (packetOf i = some (0x04, 0) →
      ∃ t events, exec i s = .next t ∧ t.trace = s.trace ++ events ∧
        bytesOut .link events = [0x88, 0x33, 0x04, 0x00, 0x00, 0x00, 0x04, 0x00, 0x00, 0x00]) ∧
    (∀ len : Half, packetOf i = some (0x04, len) → 1 ≤ len.toNat → len.toNat ≤ s.fill →
      ∃ t events csum, exec i s = .next t ∧ t.trace = s.trace ++ events ∧
        bytesOut .link events =
          [0x88, 0x33, 0x04, 0x00, low len, high len] ++ s.queue.take len.toNat ++
            [low csum, high csum, 0x00, 0x00] ∧
        csum.toNat =
          (0x04 + (low len).toNat + (high len).toNat +
            ((s.queue.take len.toNat).map BitVec.toNat).sum) % 65536) ∧
    (∀ (tm bm : Byte) (q : List Byte), packetOf i = some (0x02, 4) →
      s.queue = tm :: bm :: 0xFF :: 0xFF :: q →
        ∃ t events csum, exec i s = .next t ∧ t.trace = s.trace ++ events ∧
          bytesOut .link events =
            [0x88, 0x33, 0x02, 0x00, 0x04, 0x00, tm, bm, 0xFF, 0xFF, low csum, high csum,
              0x00, 0x00] ∧
          csum.toNat = 0x0204 + tm.toNat + bm.toNat)

/-- R161, R258, R266: a packet or an exchange interrupted by an empty stream goes on where it was when bytes arrive: the
next step leaves the machine exactly as if the bytes had been there from the start. -/
def Obligations.WaitingOperationResumes : Prop :=
  ∀ (i : Instr) (s t : State) (bytes : List Byte), exec i s = .next t → t.busy = true →
    step { t with streamIn := bytes } = exec i { s with streamIn := s.streamIn ++ bytes }

/-! ## Faults, peers and the whole machine -/

/-- R250 to R254: an instruction records a model fault only in the cases of R253, with the code and the information of
R253: 1 for an overrun, 2 for an underrun. That it does record one in each case is said where the instruction is. That the
operation's index counts from 1 is the model's reading (log entry 12). -/
def Obligations.FaultsAreTheTwoOfTheTable : Prop :=
  ∀ (i : Instr) (s t : State) (r : FaultRecord), s.fault = none →
    exec i s = .next t → t.fault = some r →
      r.op = s.issued + 1 ∧
      ((r.kind.code = 1 ∧ r.payload = none ∧ s.fill = s.cfg.capacity ∧
          ∃ b, i = .rbwr b) ∨
       (r.kind.code = 2 ∧ r.payload = none ∧ s.fill = 0 ∧ i = .rbrd) ∨
       (r.kind.code = 2 ∧ r.payload = some s.fill ∧
          ∃ cmd len, packetOf i = some (cmd, len) ∧ s.fill < len.toNat))

/-- R51, R110: only `RBWR` changes a cell of the storage, only `RBWR` and `RBRST` change `tail`, and an exchange changes
nothing of the FIFO; no instruction touches what stands outside the block. -/
def Obligations.OnlyFifoOperationsReachTheFifo : Prop :=
  ∀ (i : Instr) (s t : State), exec i s = .next t →
    ((∀ b, i ≠ .rbwr b) → s.sameMemory t) ∧
    ((∀ b, i ≠ .rbwr b) → i ≠ .rbrst → t.tail = s.tail) ∧
    (∀ b, i = .xchg b → s.sameFifo t) ∧
    s.sameOutside t

/-- R31, R252, R254: a recorded fault is kept by every step, whatever it does. -/
def Obligations.RecordedFaultIsKept : Prop :=
  ∀ (s t : State) (r : FaultRecord), s.fault = some r → step s = .next t → t.fault = some r

/-- R20, R29: no step changes the configuration. -/
def Obligations.ConfigurationIsFixed : Prop :=
  ∀ s t : State, step s = .next t → t.cfg = s.cfg

/-- R38: the trace is empty after hardware reset, and a step only appends to it. -/
def Obligations.TraceOnlyGrows : Prop :=
  (∀ (cfg : Config) (boot : Nat), (State.resetWith cfg boot).trace = []) ∧
  (∀ s t : State, step s = .next t → ∃ events, t.trace = s.trace ++ events)

/-- R68: what a peer presents reaches only the reply, the status and the trace: two runs of an instruction that differ
in the levels of the link peer, or, in `LOOPBACK`, in the bytes of a stream peer that supplies every byte asked for, leave
the same storage, cursors, fill, fault and levels of `SCK` and `SOUT`, and the same bytes out when they record no fault. -/
def Obligations.PeerCannotReachTheFifo : Prop :=
  (∀ (i : Instr) (s t u : State) (levels : List Level), s.cfg.mode = .link →
    exec i s = .next t → exec i { s with sinIn := levels } = .next u →
      t.mem = u.mem ∧ t.head = u.head ∧ t.tail = u.tail ∧ t.fill = u.fill ∧ t.fault = u.fault ∧
        t.sck = u.sck ∧ t.sout = u.sout ∧
        (t.fault = none →
          ∃ e1 e2, t.trace = s.trace ++ e1 ∧ u.trace = s.trace ++ e2 ∧
            soutLevels e1 = soutLevels e2)) ∧
  (∀ (i : Instr) (s t u : State) (bytes : List Byte), s.cfg.mode = .loopback →
    exec i s = .next t → exec i { s with streamIn := bytes } = .next u →
    t.busy = false → u.busy = false →
      t.mem = u.mem ∧ t.head = u.head ∧ t.tail = u.tail ∧ t.fill = u.fill ∧ t.fault = u.fault ∧
        t.sck = u.sck ∧ t.sout = u.sout ∧ t.sinIn = u.sinIn ∧
        (t.fault = none →
          ∃ e1 e2, t.trace = s.trace ++ e1 ∧ u.trace = s.trace ++ e2 ∧
            bytesOut .loopback e1 = bytesOut .loopback e2))

/-- R36: the state after hardware reset, under any configuration. The zero cursors and the high clock are the spec's
decisions D4 and D6; the defaults of the parameters are those of R8; `status`, `SOUT` and every cell hold free values
(log entries 7, 8, 11, 19). -/
def Obligations.ResetState : Prop :=
  (∀ (cfg : Config) (boot : Nat),
    (State.resetWith cfg boot).head = 0 ∧ (State.resetWith cfg boot).tail = 0 ∧
    (∀ i, (State.resetWith cfg boot).mem.read i = none) ∧
    (State.resetWith cfg boot).sck = true ∧ (State.resetWith cfg boot).fill = 0 ∧
    (State.resetWith cfg boot).fault = none ∧ (State.resetWith cfg boot).trace = [] ∧
    (State.resetWith cfg boot).framer = none ∧ (State.resetWith cfg boot).xchg = none ∧
    (State.resetWith cfg boot).cfg = cfg ∧
    (State.resetWith cfg boot).ctl.hostState = .idle ∧
    (State.resetWith cfg boot).ctl.printerState = .initializing) ∧
  State.reset.cfg.capacity = 640 ∧ State.reset.cfg.mode = .link ∧
  State.reset.cfg.cursorWidth = 10

/-- R23, R34, R35: the invariant of the block holds after hardware reset, under every legal configuration, in either mode
and at every power-on; and so in the state with every parameter at its default. -/
def Obligations.InvariantAtReset : Prop :=
  (∀ (cfg : Config) (boot : Nat), cfg.Wf → (State.resetWith cfg boot).Inv) ∧ State.reset.Inv

/-- R23, R30, R34, R35, R36: every step keeps the invariant of the block. -/
def Obligations.EveryStepKeepsInvariant : Prop :=
  ∀ s t : State, s.Inv → step s = .next t → t.Inv

/-- R22, R23: while the invariant holds a cursor fits its `W` bits. -/
def Obligations.CursorsFitTheirWidth : Prop :=
  ∀ s : State, s.Inv → s.head < 2 ^ s.cfg.cursorWidth ∧ s.tail < 2 ^ s.cfg.cursorWidth

/-- R10, R11: with no operation in progress, a step runs the instruction that the first presentation decodes to, taking
it from the port and doing nothing else around it. -/
def Obligations.StepRunsDecodedInstruction : Prop :=
  (∀ (s : State) (bytes : List Byte) (rest : List (List Byte)) (i : Instr),
    s.busy = false → s.pending = bytes :: rest → decode bytes = .ok i →
      step s = exec i { s with pending := rest }) ∧
  (∀ (s : State) (nbits w : Nat) (i : Instr), decodeTableWord nbits w = some i →
    step (s.withFetchWord nbits w) = exec i { s with framer := none, xchg := none })

/-- R11, R293: while an operation is in progress no other is begun and the controller has no move. -/
def Obligations.NoOperationWhileOneRuns : Prop :=
  ∀ s t : State, s.busy = true → step s = .next t →
    t.pending = s.pending ∧ t.ctl = s.ctl ∧ t.issued = s.issued

/-- With nothing presented and an arbitrary controller attached, nothing changes (log entry 15). -/
def Obligations.IdleBlockStays : Prop :=
  ∀ s : State, s.busy = false → s.pending = [] → s.cfg.driver = .external → step s = .next s

/-! ## The reference controller -/

/-- R5, R11: a move of the controller touches no state of the block. -/
def Obligations.ControllerLeavesTheBlock : Prop :=
  ∀ s : State, s.busy = false → s.pending = [] →
    ∃ t, step s = .next t ∧ s.sameFifo t ∧ s.sameLink t ∧ t.framer = none ∧ t.xchg = none ∧
      t.issued = s.issued ∧ t.boot = s.boot

/-- R227, R228, R238: `Idle` zeroes `total` and `printed` and issues `RBRST`; then it reads a big-endian size, replies
with the four bytes of the capacity, highest first, and goes to `Setup`; a short read replies nothing and stays in `Idle`; until there are four bytes or a
timeout it waits. That the `RBRST` stands in every `Idle` invocation is the spec's own decision D20 (log entry 21). -/
def Obligations.HostIdleState : Prop :=
  (∀ s : State, s.cfg.driver = .reference → s.busy = false → s.pending = [] →
    s.ctl.point = .hostInvoke → s.ctl.hostState = .idle →
      ∃ t, step s = .next t ∧ t.ctl.total = 0 ∧ t.ctl.printed = 0 ∧
        t.pending = [encode .rbrst] ∧ t.ctl.point = .idleRead ∧ t.ctl.log = s.ctl.log) ∧
  (∀ (s : State) (x0 x1 x2 x3 : Byte) (rest : List HostInput),
    s.cfg.driver = .reference → s.busy = false → s.pending = [] → s.ctl.point = .idleRead →
    s.ctl.hostIn = .byte x0 :: .byte x1 :: .byte x2 :: .byte x3 :: rest →
      ∃ t, step s = .next t ∧
        t.ctl.total.toNat =
          x0.toNat * 2 ^ 24 + x1.toNat * 2 ^ 16 + x2.toNat * 2 ^ 8 + x3.toNat ∧
        t.ctl.hostOut = s.ctl.hostOut ++
          [BitVec.ofNat 8 (s.cfg.capacity / 2 ^ 24 % 256),
            BitVec.ofNat 8 (s.cfg.capacity / 2 ^ 16 % 256),
            BitVec.ofNat 8 (s.cfg.capacity / 2 ^ 8 % 256),
            BitVec.ofNat 8 (s.cfg.capacity % 256)] ∧
        t.ctl.hostState = .setup ∧ t.ctl.point = .hostInvoke ∧ t.ctl.hostIn = rest ∧
        t.pending = []) ∧
  (∀ (s : State) (xs : List Byte) (rest : List HostInput),
    s.cfg.driver = .reference → s.busy = false → s.pending = [] → s.ctl.point = .idleRead →
    xs.length < 4 → s.ctl.hostIn = xs.map .byte ++ .timeout :: rest →
      ∃ t, step s = .next t ∧ t.ctl.hostState = s.ctl.hostState ∧ t.ctl.point = .hostInvoke ∧
        t.ctl.hostOut = s.ctl.hostOut ∧ t.pending = []) ∧
  (∀ (s : State) (xs : List Byte),
    s.cfg.driver = .reference → s.busy = false → s.pending = [] → s.ctl.point = .idleRead →
    xs.length < 4 → s.ctl.hostIn = xs.map .byte → step s = .next s)

/-- R228, R230: `Setup` reads two bytes: `"OK"` is echoed and goes to `Print`; anything else is answered `"KO"` and goes
back to `Idle`; a short read replies nothing and stays in `Setup`; until there are two bytes or a timeout it waits. -/
def Obligations.HostSetupState : Prop :=
  (∀ (s : State) (x0 x1 : Byte) (rest : List HostInput),
    s.cfg.driver = .reference → s.busy = false → s.pending = [] →
    s.ctl.point = .hostInvoke → s.ctl.hostState = .setup →
    s.ctl.hostIn = .byte x0 :: .byte x1 :: rest →
      ∃ t, step s = .next t ∧ t.pending = [] ∧ t.ctl.point = .hostInvoke ∧
        t.ctl.hostIn = rest ∧
        (x0 = 0x4F ∧ x1 = 0x4B →
          t.ctl.hostState = .print ∧ t.ctl.hostOut = s.ctl.hostOut ++ [0x4F, 0x4B]) ∧
        (¬ (x0 = 0x4F ∧ x1 = 0x4B) →
          t.ctl.hostState = .idle ∧ t.ctl.hostOut = s.ctl.hostOut ++ [0x4B, 0x4F])) ∧
  (∀ (s : State) (xs : List Byte) (rest : List HostInput),
    s.cfg.driver = .reference → s.busy = false → s.pending = [] →
    s.ctl.point = .hostInvoke → s.ctl.hostState = .setup →
    xs.length < 2 → s.ctl.hostIn = xs.map .byte ++ .timeout :: rest →
      ∃ t, step s = .next t ∧ t.ctl.hostState = .setup ∧ t.ctl.point = .hostInvoke ∧
        t.ctl.hostOut = s.ctl.hostOut ∧ t.pending = []) ∧
  (∀ (s : State) (xs : List Byte),
    s.cfg.driver = .reference → s.busy = false → s.pending = [] →
    s.ctl.point = .hostInvoke → s.ctl.hostState = .setup →
    xs.length < 2 → s.ctl.hostIn = xs.map .byte → step s = .next s)

/-- R231: `Print` of HostSession computes the chunk, moves it byte by byte from the host to `RBWR`, waiting for each byte
without a timeout, resets PrinterSession and runs it, and at the end of the batch counts the chunk and replies `"OK"` and
the status word, high byte first. -/
def Obligations.HostPrintState : Prop :=
  (∀ s : State, s.cfg.driver = .reference → s.busy = false → s.pending = [] →
    s.ctl.point = .hostInvoke → s.ctl.hostState = .print →
      ∃ t, step s = .next t ∧
        t.ctl.batchLen = min (s.ctl.total.toNat - s.ctl.printed.toNat) s.cfg.capacity ∧
        t.ctl.point = .load t.ctl.batchLen ∧
        (t.ctl.isFirst = true ↔ s.ctl.printed = 0) ∧
        (t.ctl.isLast = true ↔
          s.ctl.total.toNat ≤ s.ctl.printed.toNat + t.ctl.batchLen) ∧
        t.pending = []) ∧
  (∀ (s : State) (n k : Nat) (b : Byte) (rest : List HostInput),
    s.cfg.driver = .reference → s.busy = false → s.pending = [] → s.ctl.point = .load (n + 1) →
    s.ctl.hostIn = List.replicate k .timeout ++ .byte b :: rest →
      ∃ t, step s = .next t ∧ t.pending = [encode (.rbwr b)] ∧ t.ctl.point = .load n ∧
        t.ctl.hostIn = rest) ∧
  (∀ (s : State) (n k : Nat),
    s.cfg.driver = .reference → s.busy = false → s.pending = [] → s.ctl.point = .load (n + 1) →
    s.ctl.hostIn = List.replicate k .timeout → step s = .next s) ∧
  (∀ s : State, s.cfg.driver = .reference → s.busy = false → s.pending = [] →
    s.ctl.point = .load 0 →
      ∃ t, step s = .next t ∧ t.ctl.printerState = .initializing ∧ t.ctl.bytesSent = 0 ∧
        t.ctl.point = .printerInvoke ∧ t.ctl.batchLen = s.ctl.batchLen ∧
        t.ctl.isFirst = s.ctl.isFirst ∧ t.ctl.isLast = s.ctl.isLast ∧ t.pending = []) ∧
  (∀ s : State, s.cfg.driver = .reference → s.busy = false → s.pending = [] →
    s.ctl.point = .batchDone → s.ctl.printed.toNat + s.ctl.batchLen < 2 ^ 32 →
      ∃ t, step s = .next t ∧
        t.ctl.printed.toNat = s.ctl.printed.toNat + s.ctl.batchLen ∧
        t.ctl.hostOut = s.ctl.hostOut ++ [0x4F, 0x4B, high s.ctl.status, low s.ctl.status] ∧
        t.ctl.hostState =
          (if s.ctl.total.toNat ≤ s.ctl.printed.toNat + s.ctl.batchLen then .idle else .print) ∧
        t.ctl.point = .hostInvoke ∧ t.pending = [])

/-- R203: `Initialize` zeroes `bytesSentThisBatch` and sends an empty INITIALIZE; a ready status goes on to `Transfer`,
any other stays in `Initialize`. -/
def Obligations.PrinterInitializeState : Prop :=
  (∀ s : State, s.cfg.driver = .reference → s.busy = false → s.pending = [] →
    s.ctl.point = .printerInvoke → s.ctl.printerState = .initializing →
      ∃ t, step s = .next t ∧ t.ctl.bytesSent = 0 ∧ t.ctl.point = .initStatus ∧
        t.pending = [encode (.sendpkt 0x01 0)]) ∧
  (∀ (s : State) (w : Half), s.cfg.driver = .reference → s.busy = false → s.pending = [] →
    s.ctl.point = .initStatus → s.result = some (.status w) →
      ∃ t, step s = .next t ∧ t.ctl.status = w ∧ t.ctl.point = .printerInvoke ∧ t.pending = [] ∧
        t.ctl.bytesSent = s.ctl.bytesSent ∧
        (w = s.cfg.readyEmpty ∨ w = s.cfg.readyData → t.ctl.printerState = .transfer) ∧
        (¬ (w = s.cfg.readyEmpty ∨ w = s.cfg.readyData) →
          t.ctl.printerState = .initializing))

/-- R205, R217: `Transfer` sends the next chunk of at most `MAX_PAYLOAD` bytes; on a ready status it goes on until the
batch is sent and then sends the terminator and goes to `Print`, on any other it falls back to `Initialize`. That the
ceiling is `batchLen` and that the status is tested first are the spec's own decisions D19 and D30 (log entry 21). -/
def Obligations.PrinterTransferState : Prop :=
  (∀ s : State, s.cfg.driver = .reference → s.busy = false → s.pending = [] →
    s.cfg.maxPayload ≤ 65535 → s.ctl.point = .printerInvoke → s.ctl.printerState = .transfer →
      ∃ t len, step s = .next t ∧
        len = min (s.ctl.batchLen - s.ctl.bytesSent) s.cfg.maxPayload ∧
        t.ctl.point = .dataStatus len ∧
        t.pending = [encode (.sendpkt 0x04 (BitVec.ofNat 16 len))] ∧
        (BitVec.ofNat 16 len).toNat = len) ∧
  (∀ (s : State) (len : Nat) (w : Half), s.cfg.driver = .reference → s.busy = false →
    s.pending = [] → s.ctl.point = .dataStatus len → s.result = some (.status w) →
      ∃ t, step s = .next t ∧ t.ctl.status = w ∧ t.ctl.bytesSent = s.ctl.bytesSent + len ∧
        (w = s.cfg.readyEmpty ∨ w = s.cfg.readyData →
          (s.ctl.bytesSent + len < s.ctl.batchLen →
            t.ctl.printerState = .transfer ∧ t.ctl.point = .printerInvoke ∧ t.pending = []) ∧
          (s.ctl.batchLen ≤ s.ctl.bytesSent + len →
            t.ctl.point = .endStatus ∧ t.pending = [encode (.sendpkt 0x04 0)])) ∧
        (¬ (w = s.cfg.readyEmpty ∨ w = s.cfg.readyData) →
          t.ctl.printerState = .initializing ∧ t.ctl.point = .printerInvoke ∧
            t.pending = [])) ∧
  (∀ (s : State) (w : Half), s.cfg.driver = .reference → s.busy = false → s.pending = [] →
    s.ctl.point = .endStatus → s.result = some (.status w) →
      ∃ t, step s = .next t ∧ t.ctl.status = w ∧ t.ctl.printerState = .print ∧
        t.ctl.point = .printerInvoke ∧ t.pending = [])

/-- R208 to R213: `Print` writes the margins, the palette and the exposure, sends PRINT, and polls with REPORT until the
busy bit is set and then until it is clear, each poll after one inter-poll delay. That the delay stands before each poll is
the spec's own decision D24 (log entry 21); that it is recorded in the controller's log and not in the trace is the
model's choice (log entry 18). -/
def Obligations.PrinterPrintState : Prop :=
  (∀ s : State, s.cfg.driver = .reference → s.busy = false → s.pending = [] →
    s.ctl.point = .printerInvoke → s.ctl.printerState = .print →
      ∃ t, step s = .next t ∧ t.ctl.point = .printStatus ∧
        t.pending =
          [encode (.rbwr (if s.ctl.isFirst then s.cfg.marginSet else s.cfg.marginClear)),
            encode (.rbwr (if s.ctl.isLast then s.cfg.marginSet else s.cfg.marginClear)),
            encode (.rbwr 0xFF), encode (.rbwr 0xFF), encode (.sendpkt 0x02 4)]) ∧
  (∀ (s : State) (w : Half), s.cfg.driver = .reference → s.busy = false → s.pending = [] →
    s.result = some (.status w) →
    s.ctl.point = .printStatus ∨ s.ctl.point = .pollBusy ∨ s.ctl.point = .pollClear →
      ∃ t, step s = .next t ∧ t.ctl.status = w ∧
        (s.ctl.point = .printStatus ∨ (s.ctl.point = .pollBusy ∧ w.getLsbD 1 = false) →
          t.ctl.point = .pollBusy) ∧
        (s.ctl.point ≠ .printStatus ∧ w.getLsbD 1 = true → t.ctl.point = .pollClear) ∧
        (s.ctl.point = .pollClear ∧ w.getLsbD 1 = false →
          t.ctl.point = .batchDone ∧ t.ctl.printerState = .initializing ∧ t.pending = []) ∧
        (t.ctl.point ≠ .batchDone →
          t.pending = [encode (.sendpkt 0x0F 0)] ∧
            t.ctl.log = s.ctl.log ++ [.pollDelay s.cfg.pollDelay]))

/-- R226, R231: `printed` never passes `total`; every step keeps the counts of HostSession. -/
def Obligations.PrintedNeverPassesTotal : Prop :=
  ∀ s t : State, s.Counted → step s = .next t → t.Counted

/-- R216, R237: the reference controller keeps the FIFO contract: from an accounted state, a step that is no fallback
from `Transfer` to `Initialize` leaves an accounted state, so it records no fault. It rests on the ceiling being `batchLen`,
the spec's own decision D19 (log entry 21). -/
def Obligations.ReferenceControllerKeepsTheContract : Prop :=
  ∀ s t : State, s.Accounted → ¬ s.fallsBack → step s = .next t → t.Accounted

/-- The reference controller at startup, in `LINK` and with room for the four PRINT bytes, is accounted and counted. The
two statements before carry that on over every step, the first of them up to a fallback. That `batchLen` is 0 right after
reset is the model's choice (log entry 27). -/
def Obligations.ControllerStartsAccounted : Prop :=
  ∀ (cfg : Config) (boot : Nat), cfg.Wf → cfg.driver = .reference → cfg.mode = .link →
    4 ≤ cfg.capacity →
      (State.resetWith cfg boot).Accounted ∧ (State.resetWith cfg boot).Counted

/-- R203, R214, R215, R291: while no status the peer answers is a ready value, whatever its levels, the session never
leaves `Initialize`: one packet every three steps, the FIFO untouched and nothing said to the host at any of them. -/
def Obligations.NeverReadyPeerKeepsInitialize : Prop :=
  ∀ (n : Nat) (s : State), s.cfg.driver = .reference → s.cfg.mode = .link →
    s.busy = false → s.pending = [] →
    s.ctl.point = .printerInvoke → s.ctl.printerState = .initializing →
    (∀ w, w ∈ State.comingStatuses (List.replicate n 0) s → isReady s.cfg w = false) →
      ∀ k, k ≤ 3 * n →
        ∃ t, runSteps k s = some t ∧ t.ctl.printerState = .initializing ∧
          t.ctl.point = (if k % 3 = 0 then .printerInvoke else .initStatus) ∧
          t.issued = s.issued + (k + 1) / 3 ∧ s.sameFifo t ∧ t.ctl.log = s.ctl.log

/-- R205, R215, R216: while every status the peer answers to the INITIALIZE packet and to the data packets is a ready
value, whatever its levels, the session sends a whole batch from `Initialize` and reaches `Print` with the FIFO empty and no
fault, in three steps for each data packet and five more; the data packets are as many as it takes to send `batchLen` bytes,
`MAX_PAYLOAD` at a time, and at least one. That the ceiling is `batchLen` is the spec's own decision D19 (log
entry 21). -/
def Obligations.ReadyPeerReachesPrint : Prop :=
  ∀ s : State, s.cfg.Wf → s.cfg.driver = .reference → s.cfg.mode = .link →
    s.busy = false → s.pending = [] → s.head < s.cfg.capacity →
    s.fault = none → s.ctl.point = .printerInvoke → s.ctl.printerState = .initializing →
    s.fill = s.ctl.batchLen →
    (∀ w, w ∈ State.comingStatuses (0 :: dataPackets s.cfg.maxPayload s.ctl.batchLen) s →
      isReady s.cfg w = true) →
      ∃ packets t,
        packets = max 1 ((s.ctl.batchLen + s.cfg.maxPayload - 1) / s.cfg.maxPayload) ∧
        runSteps (3 * packets + 5) s = some t ∧
        t.ctl.point = .printerInvoke ∧ t.ctl.printerState = .print ∧
        t.ctl.bytesSent = s.ctl.batchLen ∧ t.issued = s.issued + packets + 2 ∧
        t.head = (s.head + s.ctl.batchLen) % s.cfg.capacity ∧ t.tail = s.tail ∧
        t.fill = 0 ∧ t.fault = none

/-- R210 to R216: `Print` of PrinterSession ends once the peer lets its polls end: the status after PRINT is not tested;
after any number of polls that are not busy, one or more that are, and one that is not, the batch is complete, the FIFO is
empty with both cursors four places on, and the last status stands. The poll delays in the controller's log are the model's
choice (log entry 18), their place before each poll the spec's own decision D24 (log entry 21). -/
def Obligations.PrintStateReturns : Prop :=
  ∀ (before during : List Half) (printed last : Half) (s : State),
    s.cfg.driver = .reference → s.cfg.mode = .link → 4 ≤ s.cfg.capacity →
    s.busy = false → s.pending = [] → s.head < s.cfg.capacity → s.tail < s.cfg.capacity →
    s.fault = none → s.fill = 0 → s.ctl.point = .printerInvoke → s.ctl.printerState = .print →
    (∀ w, w ∈ before → w.getLsbD 1 = false) → during ≠ [] →
    (∀ w, w ∈ during → w.getLsbD 1 = true) → last.getLsbD 1 = false →
    State.comingStatuses (4 :: List.replicate (before.length + during.length + 1) 0) s =
      printed :: (before ++ during ++ [last]) →
      ∃ polls t, polls = before.length + during.length + 1 ∧
        runSteps (7 + 2 * polls) s = some t ∧
        t.ctl.point = .batchDone ∧ t.ctl.printerState = .initializing ∧ t.ctl.status = last ∧
        t.issued = s.issued + 5 + polls ∧
        t.ctl.log = s.ctl.log ++ List.replicate polls (.pollDelay s.cfg.pollDelay) ∧
        t.head = (s.head + 4) % s.cfg.capacity ∧ t.tail = (s.tail + 4) % s.cfg.capacity ∧
        t.fill = 0 ∧ t.fault = none

/-! ## Runs and sessions -/

/-- R254, R266, R296: a good run recorded no fault on the way; a run whose last exchange waits for an empty stream is not
good, however long it goes on; and in `LINK`, where every operation returns, a run that meets the invariant is good
exactly when it ends with no fault recorded. -/
def Obligations.GoodRunHasReturned : Prop :=
  (∀ (m n : Nat) (s : State), goodRun (m + n) s = true →
    ∃ u, runSteps m s = some u ∧ u.fault = none) ∧
  (∀ (n : Nat) (s : State), s.cfg.mode = .loopback → s.xchg.isSome = true → s.streamIn = [] →
    goodRun n s = false) ∧
  (∀ (n : Nat) (s : State), s.Inv → s.cfg.mode = .link →
    (goodRun n s = true ↔ ∃ t, runSteps n s = some t ∧ t.fault = none))

/-- R114, R254, R296: a run of FIFO operations from hardware reset is good exactly when the abstract queue of capacity
`C` neither overruns nor underruns. -/
def Obligations.FifoRunIsGoodIffQueueIs : Prop :=
  ∀ (cfg : Config) (boot : Nat) (ops : List Instr), cfg.Wf → ops.all isFifoOp = true →
    goodRun ops.length { State.resetWith cfg boot with pending := ops.map encode } =
      (queueRun cfg.capacity ops []).isSome

/-- R216, R237, R296: a session of the reference controller in which no step falls back from `Transfer` to `Initialize`
ends as expected: `fill = 0`, `printed = total`, the last operation returned, and no fault. It rests on the
ceiling being `batchLen`, the spec's own decision D19 (log entry 21). -/
def Obligations.SessionEndsAsExpected : Prop :=
  ∀ (n : Nat) (s t : State), s.Accounted → s.Counted →
    (∀ k u, k < n → runSteps k s = some u → ¬ u.fallsBack) →
      session n s = some t → t.sessionEnd = true ∧ t.good = true
end

