-- ==== Sys2Proof/Laws/State.lean ====
section
/-! SUPPORT. The field lemmas of the updates of State: one for each field and update, so that no proof unfolds a
record update. The first part is true by `rfl`; the second, for the updates that look at the state first, is by
that case split. -/

namespace Sys2Proof.Machine

variable (s : State)

/-! `issue` -/

@[simp] theorem State.issue_cfg : s.issue.cfg = s.cfg := rfl
@[simp] theorem State.issue_mem : s.issue.mem = s.mem := rfl
@[simp] theorem State.issue_head : s.issue.head = s.head := rfl
@[simp] theorem State.issue_tail : s.issue.tail = s.tail := rfl
@[simp] theorem State.issue_sck : s.issue.sck = s.sck := rfl
@[simp] theorem State.issue_sout : s.issue.sout = s.sout := rfl
@[simp] theorem State.issue_framer : s.issue.framer = none := rfl
@[simp] theorem State.issue_xchg : s.issue.xchg = none := rfl
@[simp] theorem State.issue_fill : s.issue.fill = s.fill := rfl
@[simp] theorem State.issue_fault : s.issue.fault = s.fault := rfl
@[simp] theorem State.issue_trace : s.issue.trace = s.trace := rfl
@[simp] theorem State.issue_issued : s.issue.issued = s.issued + 1 := rfl
@[simp] theorem State.issue_pending : s.issue.pending = s.pending := rfl
@[simp] theorem State.issue_result : s.issue.result = none := rfl
@[simp] theorem State.issue_sinIn : s.issue.sinIn = s.sinIn := rfl
@[simp] theorem State.issue_streamIn : s.issue.streamIn = s.streamIn := rfl
@[simp] theorem State.issue_boot : s.issue.boot = s.boot := rfl
@[simp] theorem State.issue_draws : s.issue.draws = s.draws := rfl
@[simp] theorem State.issue_ctl : s.issue.ctl = s.ctl := rfl

/-! `handBack` -/

@[simp] theorem State.handBack_cfg (r : Reply) : (s.handBack r).cfg = s.cfg := rfl
@[simp] theorem State.handBack_mem (r : Reply) : (s.handBack r).mem = s.mem := rfl
@[simp] theorem State.handBack_head (r : Reply) : (s.handBack r).head = s.head := rfl
@[simp] theorem State.handBack_tail (r : Reply) : (s.handBack r).tail = s.tail := rfl
@[simp] theorem State.handBack_sck (r : Reply) : (s.handBack r).sck = s.sck := rfl
@[simp] theorem State.handBack_sout (r : Reply) : (s.handBack r).sout = s.sout := rfl
@[simp] theorem State.handBack_framer (r : Reply) : (s.handBack r).framer = s.framer := rfl
@[simp] theorem State.handBack_xchg (r : Reply) : (s.handBack r).xchg = s.xchg := rfl
@[simp] theorem State.handBack_fill (r : Reply) : (s.handBack r).fill = s.fill := rfl
@[simp] theorem State.handBack_fault (r : Reply) : (s.handBack r).fault = s.fault := rfl
@[simp] theorem State.handBack_trace (r : Reply) : (s.handBack r).trace = s.trace := rfl
@[simp] theorem State.handBack_issued (r : Reply) : (s.handBack r).issued = s.issued := rfl
@[simp] theorem State.handBack_pending (r : Reply) : (s.handBack r).pending = s.pending := rfl
@[simp] theorem State.handBack_result (r : Reply) : (s.handBack r).result = some r := rfl
@[simp] theorem State.handBack_sinIn (r : Reply) : (s.handBack r).sinIn = s.sinIn := rfl
@[simp] theorem State.handBack_streamIn (r : Reply) : (s.handBack r).streamIn = s.streamIn := rfl
@[simp] theorem State.handBack_boot (r : Reply) : (s.handBack r).boot = s.boot := rfl
@[simp] theorem State.handBack_draws (r : Reply) : (s.handBack r).draws = s.draws := rfl
@[simp] theorem State.handBack_ctl (r : Reply) : (s.handBack r).ctl = s.ctl := rfl

/-! `wait` -/

@[simp] theorem State.wait_cfg (t : Nat) : (s.wait t).cfg = s.cfg := rfl
@[simp] theorem State.wait_mem (t : Nat) : (s.wait t).mem = s.mem := rfl
@[simp] theorem State.wait_head (t : Nat) : (s.wait t).head = s.head := rfl
@[simp] theorem State.wait_tail (t : Nat) : (s.wait t).tail = s.tail := rfl
@[simp] theorem State.wait_sck (t : Nat) : (s.wait t).sck = s.sck := rfl
@[simp] theorem State.wait_sout (t : Nat) : (s.wait t).sout = s.sout := rfl
@[simp] theorem State.wait_framer (t : Nat) : (s.wait t).framer = s.framer := rfl
@[simp] theorem State.wait_xchg (t : Nat) : (s.wait t).xchg = s.xchg := rfl
@[simp] theorem State.wait_fill (t : Nat) : (s.wait t).fill = s.fill := rfl
@[simp] theorem State.wait_fault (t : Nat) : (s.wait t).fault = s.fault := rfl
@[simp] theorem State.wait_trace (t : Nat) : (s.wait t).trace = s.trace ++ [.delay t] := rfl
@[simp] theorem State.wait_issued (t : Nat) : (s.wait t).issued = s.issued := rfl
@[simp] theorem State.wait_pending (t : Nat) : (s.wait t).pending = s.pending := rfl
@[simp] theorem State.wait_result (t : Nat) : (s.wait t).result = s.result := rfl
@[simp] theorem State.wait_sinIn (t : Nat) : (s.wait t).sinIn = s.sinIn := rfl
@[simp] theorem State.wait_streamIn (t : Nat) : (s.wait t).streamIn = s.streamIn := rfl
@[simp] theorem State.wait_boot (t : Nat) : (s.wait t).boot = s.boot := rfl
@[simp] theorem State.wait_draws (t : Nat) : (s.wait t).draws = s.draws := rfl
@[simp] theorem State.wait_ctl (t : Nat) : (s.wait t).ctl = s.ctl := rfl

/-! `driveSck` -/

@[simp] theorem State.driveSck_cfg (l : Level) : (s.drive .sck l).cfg = s.cfg := rfl
@[simp] theorem State.driveSck_mem (l : Level) : (s.drive .sck l).mem = s.mem := rfl
@[simp] theorem State.driveSck_head (l : Level) : (s.drive .sck l).head = s.head := rfl
@[simp] theorem State.driveSck_tail (l : Level) : (s.drive .sck l).tail = s.tail := rfl
@[simp] theorem State.driveSck_sck (l : Level) : (s.drive .sck l).sck = l := rfl
@[simp] theorem State.driveSck_sout (l : Level) : (s.drive .sck l).sout = s.sout := rfl
@[simp] theorem State.driveSck_framer (l : Level) : (s.drive .sck l).framer = s.framer := rfl
@[simp] theorem State.driveSck_xchg (l : Level) : (s.drive .sck l).xchg = s.xchg := rfl
@[simp] theorem State.driveSck_fill (l : Level) : (s.drive .sck l).fill = s.fill := rfl
@[simp] theorem State.driveSck_fault (l : Level) : (s.drive .sck l).fault = s.fault := rfl
@[simp] theorem State.driveSck_trace (l : Level) : (s.drive .sck l).trace = s.trace ++ [.drive .sck l] := rfl
@[simp] theorem State.driveSck_issued (l : Level) : (s.drive .sck l).issued = s.issued := rfl
@[simp] theorem State.driveSck_pending (l : Level) : (s.drive .sck l).pending = s.pending := rfl
@[simp] theorem State.driveSck_result (l : Level) : (s.drive .sck l).result = s.result := rfl
@[simp] theorem State.driveSck_sinIn (l : Level) : (s.drive .sck l).sinIn = s.sinIn := rfl
@[simp] theorem State.driveSck_streamIn (l : Level) : (s.drive .sck l).streamIn = s.streamIn := rfl
@[simp] theorem State.driveSck_boot (l : Level) : (s.drive .sck l).boot = s.boot := rfl
@[simp] theorem State.driveSck_draws (l : Level) : (s.drive .sck l).draws = s.draws := rfl
@[simp] theorem State.driveSck_ctl (l : Level) : (s.drive .sck l).ctl = s.ctl := rfl

/-! `driveSout` -/

@[simp] theorem State.driveSout_cfg (l : Level) : (s.drive .sout l).cfg = s.cfg := rfl
@[simp] theorem State.driveSout_mem (l : Level) : (s.drive .sout l).mem = s.mem := rfl
@[simp] theorem State.driveSout_head (l : Level) : (s.drive .sout l).head = s.head := rfl
@[simp] theorem State.driveSout_tail (l : Level) : (s.drive .sout l).tail = s.tail := rfl
@[simp] theorem State.driveSout_sck (l : Level) : (s.drive .sout l).sck = s.sck := rfl
@[simp] theorem State.driveSout_sout (l : Level) : (s.drive .sout l).sout = l := rfl
@[simp] theorem State.driveSout_framer (l : Level) : (s.drive .sout l).framer = s.framer := rfl
@[simp] theorem State.driveSout_xchg (l : Level) : (s.drive .sout l).xchg = s.xchg := rfl
@[simp] theorem State.driveSout_fill (l : Level) : (s.drive .sout l).fill = s.fill := rfl
@[simp] theorem State.driveSout_fault (l : Level) : (s.drive .sout l).fault = s.fault := rfl
@[simp] theorem State.driveSout_trace (l : Level) : (s.drive .sout l).trace = s.trace ++ [.drive .sout l] := rfl
@[simp] theorem State.driveSout_issued (l : Level) : (s.drive .sout l).issued = s.issued := rfl
@[simp] theorem State.driveSout_pending (l : Level) : (s.drive .sout l).pending = s.pending := rfl
@[simp] theorem State.driveSout_result (l : Level) : (s.drive .sout l).result = s.result := rfl
@[simp] theorem State.driveSout_sinIn (l : Level) : (s.drive .sout l).sinIn = s.sinIn := rfl
@[simp] theorem State.driveSout_streamIn (l : Level) : (s.drive .sout l).streamIn = s.streamIn := rfl
@[simp] theorem State.driveSout_boot (l : Level) : (s.drive .sout l).boot = s.boot := rfl
@[simp] theorem State.driveSout_draws (l : Level) : (s.drive .sout l).draws = s.draws := rfl
@[simp] theorem State.driveSout_ctl (l : Level) : (s.drive .sout l).ctl = s.ctl := rfl

/-! `driveBit` -/

@[simp] theorem State.driveBit_cfg (l : Level) : (s.driveBit l).cfg = s.cfg := rfl
@[simp] theorem State.driveBit_mem (l : Level) : (s.driveBit l).mem = s.mem := rfl
@[simp] theorem State.driveBit_head (l : Level) : (s.driveBit l).head = s.head := rfl
@[simp] theorem State.driveBit_tail (l : Level) : (s.driveBit l).tail = s.tail := rfl
@[simp] theorem State.driveBit_sck (l : Level) : (s.driveBit l).sck = true := rfl
@[simp] theorem State.driveBit_sout (l : Level) : (s.driveBit l).sout = l := rfl
@[simp] theorem State.driveBit_framer (l : Level) : (s.driveBit l).framer = s.framer := rfl
@[simp] theorem State.driveBit_xchg (l : Level) : (s.driveBit l).xchg = s.xchg := rfl
@[simp] theorem State.driveBit_fill (l : Level) : (s.driveBit l).fill = s.fill := rfl
@[simp] theorem State.driveBit_fault (l : Level) : (s.driveBit l).fault = s.fault := rfl
@[simp] theorem State.driveBit_trace (l : Level) : (s.driveBit l).trace = s.trace ++ [.drive .sck false] ++ [.drive .sout l] ++ [.delay s.cfg.delayUs] ++ [.drive .sck true] := rfl
@[simp] theorem State.driveBit_issued (l : Level) : (s.driveBit l).issued = s.issued := rfl
@[simp] theorem State.driveBit_pending (l : Level) : (s.driveBit l).pending = s.pending := rfl
@[simp] theorem State.driveBit_result (l : Level) : (s.driveBit l).result = s.result := rfl
@[simp] theorem State.driveBit_sinIn (l : Level) : (s.driveBit l).sinIn = s.sinIn := rfl
@[simp] theorem State.driveBit_streamIn (l : Level) : (s.driveBit l).streamIn = s.streamIn := rfl
@[simp] theorem State.driveBit_boot (l : Level) : (s.driveBit l).boot = s.boot := rfl
@[simp] theorem State.driveBit_draws (l : Level) : (s.driveBit l).draws = s.draws := rfl
@[simp] theorem State.driveBit_ctl (l : Level) : (s.driveBit l).ctl = s.ctl := rfl

/-! `streamWrite` -/

@[simp] theorem State.streamWrite_cfg (b : Byte) : (s.streamWrite b).cfg = s.cfg := rfl
@[simp] theorem State.streamWrite_mem (b : Byte) : (s.streamWrite b).mem = s.mem := rfl
@[simp] theorem State.streamWrite_head (b : Byte) : (s.streamWrite b).head = s.head := rfl
@[simp] theorem State.streamWrite_tail (b : Byte) : (s.streamWrite b).tail = s.tail := rfl
@[simp] theorem State.streamWrite_sck (b : Byte) : (s.streamWrite b).sck = s.sck := rfl
@[simp] theorem State.streamWrite_sout (b : Byte) : (s.streamWrite b).sout = s.sout := rfl
@[simp] theorem State.streamWrite_framer (b : Byte) : (s.streamWrite b).framer = s.framer := rfl
@[simp] theorem State.streamWrite_xchg (b : Byte) : (s.streamWrite b).xchg = s.xchg := rfl
@[simp] theorem State.streamWrite_fill (b : Byte) : (s.streamWrite b).fill = s.fill := rfl
@[simp] theorem State.streamWrite_fault (b : Byte) : (s.streamWrite b).fault = s.fault := rfl
@[simp] theorem State.streamWrite_trace (b : Byte) : (s.streamWrite b).trace = s.trace ++ [.streamWrite b] := rfl
@[simp] theorem State.streamWrite_issued (b : Byte) : (s.streamWrite b).issued = s.issued := rfl
@[simp] theorem State.streamWrite_pending (b : Byte) : (s.streamWrite b).pending = s.pending := rfl
@[simp] theorem State.streamWrite_result (b : Byte) : (s.streamWrite b).result = s.result := rfl
@[simp] theorem State.streamWrite_sinIn (b : Byte) : (s.streamWrite b).sinIn = s.sinIn := rfl
@[simp] theorem State.streamWrite_streamIn (b : Byte) : (s.streamWrite b).streamIn = s.streamIn := rfl
@[simp] theorem State.streamWrite_boot (b : Byte) : (s.streamWrite b).boot = s.boot := rfl
@[simp] theorem State.streamWrite_draws (b : Byte) : (s.streamWrite b).draws = s.draws := rfl
@[simp] theorem State.streamWrite_ctl (b : Byte) : (s.streamWrite b).ctl = s.ctl := rfl

/-! `streamRead` -/

@[simp] theorem State.streamRead_cfg (r : Byte) (rest : List Byte) : (s.streamRead r rest).cfg = s.cfg := rfl
@[simp] theorem State.streamRead_mem (r : Byte) (rest : List Byte) : (s.streamRead r rest).mem = s.mem := rfl
@[simp] theorem State.streamRead_head (r : Byte) (rest : List Byte) : (s.streamRead r rest).head = s.head := rfl
@[simp] theorem State.streamRead_tail (r : Byte) (rest : List Byte) : (s.streamRead r rest).tail = s.tail := rfl
@[simp] theorem State.streamRead_sck (r : Byte) (rest : List Byte) : (s.streamRead r rest).sck = s.sck := rfl
@[simp] theorem State.streamRead_sout (r : Byte) (rest : List Byte) : (s.streamRead r rest).sout = s.sout := rfl
@[simp] theorem State.streamRead_framer (r : Byte) (rest : List Byte) : (s.streamRead r rest).framer = s.framer := rfl
@[simp] theorem State.streamRead_xchg (r : Byte) (rest : List Byte) : (s.streamRead r rest).xchg = s.xchg := rfl
@[simp] theorem State.streamRead_fill (r : Byte) (rest : List Byte) : (s.streamRead r rest).fill = s.fill := rfl
@[simp] theorem State.streamRead_fault (r : Byte) (rest : List Byte) : (s.streamRead r rest).fault = s.fault := rfl
@[simp] theorem State.streamRead_trace (r : Byte) (rest : List Byte) : (s.streamRead r rest).trace = s.trace ++ [.streamRead r] := rfl
@[simp] theorem State.streamRead_issued (r : Byte) (rest : List Byte) : (s.streamRead r rest).issued = s.issued := rfl
@[simp] theorem State.streamRead_pending (r : Byte) (rest : List Byte) : (s.streamRead r rest).pending = s.pending := rfl
@[simp] theorem State.streamRead_result (r : Byte) (rest : List Byte) : (s.streamRead r rest).result = s.result := rfl
@[simp] theorem State.streamRead_sinIn (r : Byte) (rest : List Byte) : (s.streamRead r rest).sinIn = s.sinIn := rfl
@[simp] theorem State.streamRead_streamIn (r : Byte) (rest : List Byte) : (s.streamRead r rest).streamIn = rest := rfl
@[simp] theorem State.streamRead_boot (r : Byte) (rest : List Byte) : (s.streamRead r rest).boot = s.boot := rfl
@[simp] theorem State.streamRead_draws (r : Byte) (rest : List Byte) : (s.streamRead r rest).draws = s.draws := rfl
@[simp] theorem State.streamRead_ctl (r : Byte) (rest : List Byte) : (s.streamRead r rest).ctl = s.ctl := rfl

/-! `present` -/

@[simp] theorem State.present_cfg (ops : List Instr) : (s.present ops).cfg = s.cfg := rfl
@[simp] theorem State.present_mem (ops : List Instr) : (s.present ops).mem = s.mem := rfl
@[simp] theorem State.present_head (ops : List Instr) : (s.present ops).head = s.head := rfl
@[simp] theorem State.present_tail (ops : List Instr) : (s.present ops).tail = s.tail := rfl
@[simp] theorem State.present_sck (ops : List Instr) : (s.present ops).sck = s.sck := rfl
@[simp] theorem State.present_sout (ops : List Instr) : (s.present ops).sout = s.sout := rfl
@[simp] theorem State.present_framer (ops : List Instr) : (s.present ops).framer = s.framer := rfl
@[simp] theorem State.present_xchg (ops : List Instr) : (s.present ops).xchg = s.xchg := rfl
@[simp] theorem State.present_fill (ops : List Instr) : (s.present ops).fill = s.fill := rfl
@[simp] theorem State.present_fault (ops : List Instr) : (s.present ops).fault = s.fault := rfl
@[simp] theorem State.present_trace (ops : List Instr) : (s.present ops).trace = s.trace := rfl
@[simp] theorem State.present_issued (ops : List Instr) : (s.present ops).issued = s.issued := rfl
@[simp] theorem State.present_pending (ops : List Instr) : (s.present ops).pending = s.pending ++ ops.map encode := rfl
@[simp] theorem State.present_result (ops : List Instr) : (s.present ops).result = s.result := rfl
@[simp] theorem State.present_sinIn (ops : List Instr) : (s.present ops).sinIn = s.sinIn := rfl
@[simp] theorem State.present_streamIn (ops : List Instr) : (s.present ops).streamIn = s.streamIn := rfl
@[simp] theorem State.present_boot (ops : List Instr) : (s.present ops).boot = s.boot := rfl
@[simp] theorem State.present_draws (ops : List Instr) : (s.present ops).draws = s.draws := rfl
@[simp] theorem State.present_ctl (ops : List Instr) : (s.present ops).ctl = s.ctl := rfl

/-! `withCtl` -/

@[simp] theorem State.withCtl_cfg (c : Controller) : (s.withCtl c).cfg = s.cfg := rfl
@[simp] theorem State.withCtl_mem (c : Controller) : (s.withCtl c).mem = s.mem := rfl
@[simp] theorem State.withCtl_head (c : Controller) : (s.withCtl c).head = s.head := rfl
@[simp] theorem State.withCtl_tail (c : Controller) : (s.withCtl c).tail = s.tail := rfl
@[simp] theorem State.withCtl_sck (c : Controller) : (s.withCtl c).sck = s.sck := rfl
@[simp] theorem State.withCtl_sout (c : Controller) : (s.withCtl c).sout = s.sout := rfl
@[simp] theorem State.withCtl_framer (c : Controller) : (s.withCtl c).framer = s.framer := rfl
@[simp] theorem State.withCtl_xchg (c : Controller) : (s.withCtl c).xchg = s.xchg := rfl
@[simp] theorem State.withCtl_fill (c : Controller) : (s.withCtl c).fill = s.fill := rfl
@[simp] theorem State.withCtl_fault (c : Controller) : (s.withCtl c).fault = s.fault := rfl
@[simp] theorem State.withCtl_trace (c : Controller) : (s.withCtl c).trace = s.trace := rfl
@[simp] theorem State.withCtl_issued (c : Controller) : (s.withCtl c).issued = s.issued := rfl
@[simp] theorem State.withCtl_pending (c : Controller) : (s.withCtl c).pending = s.pending := rfl
@[simp] theorem State.withCtl_result (c : Controller) : (s.withCtl c).result = s.result := rfl
@[simp] theorem State.withCtl_sinIn (c : Controller) : (s.withCtl c).sinIn = s.sinIn := rfl
@[simp] theorem State.withCtl_streamIn (c : Controller) : (s.withCtl c).streamIn = s.streamIn := rfl
@[simp] theorem State.withCtl_boot (c : Controller) : (s.withCtl c).boot = s.boot := rfl
@[simp] theorem State.withCtl_draws (c : Controller) : (s.withCtl c).draws = s.draws := rfl
@[simp] theorem State.withCtl_ctl (c : Controller) : (s.withCtl c).ctl = c := rfl

/-! `rbReset` -/

@[simp] theorem rbReset_cfg : (rbReset s).cfg = s.cfg := rfl
@[simp] theorem rbReset_mem : (rbReset s).mem = s.mem := rfl
@[simp] theorem rbReset_head : (rbReset s).head = 0 := rfl
@[simp] theorem rbReset_tail : (rbReset s).tail = 0 := rfl
@[simp] theorem rbReset_sck : (rbReset s).sck = s.sck := rfl
@[simp] theorem rbReset_sout : (rbReset s).sout = s.sout := rfl
@[simp] theorem rbReset_framer : (rbReset s).framer = s.framer := rfl
@[simp] theorem rbReset_xchg : (rbReset s).xchg = s.xchg := rfl
@[simp] theorem rbReset_fill : (rbReset s).fill = 0 := rfl
@[simp] theorem rbReset_fault : (rbReset s).fault = s.fault := rfl
@[simp] theorem rbReset_trace : (rbReset s).trace = s.trace := rfl
@[simp] theorem rbReset_issued : (rbReset s).issued = s.issued := rfl
@[simp] theorem rbReset_pending : (rbReset s).pending = s.pending := rfl
@[simp] theorem rbReset_result : (rbReset s).result = s.result := rfl
@[simp] theorem rbReset_sinIn : (rbReset s).sinIn = s.sinIn := rfl
@[simp] theorem rbReset_streamIn : (rbReset s).streamIn = s.streamIn := rfl
@[simp] theorem rbReset_boot : (rbReset s).boot = s.boot := rfl
@[simp] theorem rbReset_draws : (rbReset s).draws = s.draws := rfl
@[simp] theorem rbReset_ctl : (rbReset s).ctl = s.ctl := rfl

/-! `raise` -/

@[simp] theorem State.raise_cfg (k : ModelFault) (p : Option Nat) : (s.raise k p).cfg = s.cfg := by
  unfold State.raise; split <;> rfl
@[simp] theorem State.raise_mem (k : ModelFault) (p : Option Nat) : (s.raise k p).mem = s.mem := by
  unfold State.raise; split <;> rfl
@[simp] theorem State.raise_head (k : ModelFault) (p : Option Nat) : (s.raise k p).head = s.head := by
  unfold State.raise; split <;> rfl
@[simp] theorem State.raise_tail (k : ModelFault) (p : Option Nat) : (s.raise k p).tail = s.tail := by
  unfold State.raise; split <;> rfl
@[simp] theorem State.raise_sck (k : ModelFault) (p : Option Nat) : (s.raise k p).sck = s.sck := by
  unfold State.raise; split <;> rfl
@[simp] theorem State.raise_sout (k : ModelFault) (p : Option Nat) : (s.raise k p).sout = s.sout := by
  unfold State.raise; split <;> rfl
@[simp] theorem State.raise_framer (k : ModelFault) (p : Option Nat) : (s.raise k p).framer = s.framer := by
  unfold State.raise; split <;> rfl
@[simp] theorem State.raise_xchg (k : ModelFault) (p : Option Nat) : (s.raise k p).xchg = s.xchg := by
  unfold State.raise; split <;> rfl
@[simp] theorem State.raise_fill (k : ModelFault) (p : Option Nat) : (s.raise k p).fill = s.fill := by
  unfold State.raise; split <;> rfl
@[simp] theorem State.raise_trace (k : ModelFault) (p : Option Nat) : (s.raise k p).trace = s.trace := by
  unfold State.raise; split <;> rfl
@[simp] theorem State.raise_issued (k : ModelFault) (p : Option Nat) : (s.raise k p).issued = s.issued := by
  unfold State.raise; split <;> rfl
@[simp] theorem State.raise_pending (k : ModelFault) (p : Option Nat) : (s.raise k p).pending = s.pending := by
  unfold State.raise; split <;> rfl
@[simp] theorem State.raise_result (k : ModelFault) (p : Option Nat) : (s.raise k p).result = s.result := by
  unfold State.raise; split <;> rfl
@[simp] theorem State.raise_sinIn (k : ModelFault) (p : Option Nat) : (s.raise k p).sinIn = s.sinIn := by
  unfold State.raise; split <;> rfl
@[simp] theorem State.raise_streamIn (k : ModelFault) (p : Option Nat) : (s.raise k p).streamIn = s.streamIn := by
  unfold State.raise; split <;> rfl
@[simp] theorem State.raise_boot (k : ModelFault) (p : Option Nat) : (s.raise k p).boot = s.boot := by
  unfold State.raise; split <;> rfl
@[simp] theorem State.raise_draws (k : ModelFault) (p : Option Nat) : (s.raise k p).draws = s.draws := by
  unfold State.raise; split <;> rfl
@[simp] theorem State.raise_ctl (k : ModelFault) (p : Option Nat) : (s.raise k p).ctl = s.ctl := by
  unfold State.raise; split <;> rfl

/-! `ghostWrite` -/

@[simp] theorem State.ghostWrite_cfg : s.ghostWrite.cfg = s.cfg := by
  unfold State.ghostWrite; split <;> (try split) <;> simp
@[simp] theorem State.ghostWrite_mem : s.ghostWrite.mem = s.mem := by
  unfold State.ghostWrite; split <;> (try split) <;> simp
@[simp] theorem State.ghostWrite_head : s.ghostWrite.head = s.head := by
  unfold State.ghostWrite; split <;> (try split) <;> simp
@[simp] theorem State.ghostWrite_tail : s.ghostWrite.tail = s.tail := by
  unfold State.ghostWrite; split <;> (try split) <;> simp
@[simp] theorem State.ghostWrite_sck : s.ghostWrite.sck = s.sck := by
  unfold State.ghostWrite; split <;> (try split) <;> simp
@[simp] theorem State.ghostWrite_sout : s.ghostWrite.sout = s.sout := by
  unfold State.ghostWrite; split <;> (try split) <;> simp
@[simp] theorem State.ghostWrite_framer : s.ghostWrite.framer = s.framer := by
  unfold State.ghostWrite; split <;> (try split) <;> simp
@[simp] theorem State.ghostWrite_xchg : s.ghostWrite.xchg = s.xchg := by
  unfold State.ghostWrite; split <;> (try split) <;> simp
@[simp] theorem State.ghostWrite_trace : s.ghostWrite.trace = s.trace := by
  unfold State.ghostWrite; split <;> (try split) <;> simp
@[simp] theorem State.ghostWrite_issued : s.ghostWrite.issued = s.issued := by
  unfold State.ghostWrite; split <;> (try split) <;> simp
@[simp] theorem State.ghostWrite_pending : s.ghostWrite.pending = s.pending := by
  unfold State.ghostWrite; split <;> (try split) <;> simp
@[simp] theorem State.ghostWrite_result : s.ghostWrite.result = s.result := by
  unfold State.ghostWrite; split <;> (try split) <;> simp
@[simp] theorem State.ghostWrite_sinIn : s.ghostWrite.sinIn = s.sinIn := by
  unfold State.ghostWrite; split <;> (try split) <;> simp
@[simp] theorem State.ghostWrite_streamIn : s.ghostWrite.streamIn = s.streamIn := by
  unfold State.ghostWrite; split <;> (try split) <;> simp
@[simp] theorem State.ghostWrite_boot : s.ghostWrite.boot = s.boot := by
  unfold State.ghostWrite; split <;> (try split) <;> simp
@[simp] theorem State.ghostWrite_draws : s.ghostWrite.draws = s.draws := by
  unfold State.ghostWrite; split <;> (try split) <;> simp
@[simp] theorem State.ghostWrite_ctl : s.ghostWrite.ctl = s.ctl := by
  unfold State.ghostWrite; split <;> (try split) <;> simp

/-! `ghostRead` -/

@[simp] theorem State.ghostRead_cfg (p : Option Nat) : (s.ghostRead p).cfg = s.cfg := by
  unfold State.ghostRead; split <;> (try split) <;> simp
@[simp] theorem State.ghostRead_mem (p : Option Nat) : (s.ghostRead p).mem = s.mem := by
  unfold State.ghostRead; split <;> (try split) <;> simp
@[simp] theorem State.ghostRead_head (p : Option Nat) : (s.ghostRead p).head = s.head := by
  unfold State.ghostRead; split <;> (try split) <;> simp
@[simp] theorem State.ghostRead_tail (p : Option Nat) : (s.ghostRead p).tail = s.tail := by
  unfold State.ghostRead; split <;> (try split) <;> simp
@[simp] theorem State.ghostRead_sck (p : Option Nat) : (s.ghostRead p).sck = s.sck := by
  unfold State.ghostRead; split <;> (try split) <;> simp
@[simp] theorem State.ghostRead_sout (p : Option Nat) : (s.ghostRead p).sout = s.sout := by
  unfold State.ghostRead; split <;> (try split) <;> simp
@[simp] theorem State.ghostRead_framer (p : Option Nat) : (s.ghostRead p).framer = s.framer := by
  unfold State.ghostRead; split <;> (try split) <;> simp
@[simp] theorem State.ghostRead_xchg (p : Option Nat) : (s.ghostRead p).xchg = s.xchg := by
  unfold State.ghostRead; split <;> (try split) <;> simp
@[simp] theorem State.ghostRead_trace (p : Option Nat) : (s.ghostRead p).trace = s.trace := by
  unfold State.ghostRead; split <;> (try split) <;> simp
@[simp] theorem State.ghostRead_issued (p : Option Nat) : (s.ghostRead p).issued = s.issued := by
  unfold State.ghostRead; split <;> (try split) <;> simp
@[simp] theorem State.ghostRead_pending (p : Option Nat) : (s.ghostRead p).pending = s.pending := by
  unfold State.ghostRead; split <;> (try split) <;> simp
@[simp] theorem State.ghostRead_result (p : Option Nat) : (s.ghostRead p).result = s.result := by
  unfold State.ghostRead; split <;> (try split) <;> simp
@[simp] theorem State.ghostRead_sinIn (p : Option Nat) : (s.ghostRead p).sinIn = s.sinIn := by
  unfold State.ghostRead; split <;> (try split) <;> simp
@[simp] theorem State.ghostRead_streamIn (p : Option Nat) : (s.ghostRead p).streamIn = s.streamIn := by
  unfold State.ghostRead; split <;> (try split) <;> simp
@[simp] theorem State.ghostRead_boot (p : Option Nat) : (s.ghostRead p).boot = s.boot := by
  unfold State.ghostRead; split <;> (try split) <;> simp
@[simp] theorem State.ghostRead_draws (p : Option Nat) : (s.ghostRead p).draws = s.draws := by
  unfold State.ghostRead; split <;> (try split) <;> simp
@[simp] theorem State.ghostRead_ctl (p : Option Nat) : (s.ghostRead p).ctl = s.ctl := by
  unfold State.ghostRead; split <;> (try split) <;> simp

/-! `sinAdvance` -/

@[simp] theorem State.sinAdvance_cfg : s.sinAdvance.cfg = s.cfg := by
  unfold State.sinAdvance; split <;> rfl
@[simp] theorem State.sinAdvance_mem : s.sinAdvance.mem = s.mem := by
  unfold State.sinAdvance; split <;> rfl
@[simp] theorem State.sinAdvance_head : s.sinAdvance.head = s.head := by
  unfold State.sinAdvance; split <;> rfl
@[simp] theorem State.sinAdvance_tail : s.sinAdvance.tail = s.tail := by
  unfold State.sinAdvance; split <;> rfl
@[simp] theorem State.sinAdvance_sck : s.sinAdvance.sck = s.sck := by
  unfold State.sinAdvance; split <;> rfl
@[simp] theorem State.sinAdvance_sout : s.sinAdvance.sout = s.sout := by
  unfold State.sinAdvance; split <;> rfl
@[simp] theorem State.sinAdvance_framer : s.sinAdvance.framer = s.framer := by
  unfold State.sinAdvance; split <;> rfl
@[simp] theorem State.sinAdvance_xchg : s.sinAdvance.xchg = s.xchg := by
  unfold State.sinAdvance; split <;> rfl
@[simp] theorem State.sinAdvance_fill : s.sinAdvance.fill = s.fill := by
  unfold State.sinAdvance; split <;> rfl
@[simp] theorem State.sinAdvance_fault : s.sinAdvance.fault = s.fault := by
  unfold State.sinAdvance; split <;> rfl
@[simp] theorem State.sinAdvance_trace : s.sinAdvance.trace = s.trace := by
  unfold State.sinAdvance; split <;> rfl
@[simp] theorem State.sinAdvance_issued : s.sinAdvance.issued = s.issued := by
  unfold State.sinAdvance; split <;> rfl
@[simp] theorem State.sinAdvance_pending : s.sinAdvance.pending = s.pending := by
  unfold State.sinAdvance; split <;> rfl
@[simp] theorem State.sinAdvance_result : s.sinAdvance.result = s.result := by
  unfold State.sinAdvance; split <;> rfl
@[simp] theorem State.sinAdvance_streamIn : s.sinAdvance.streamIn = s.streamIn := by
  unfold State.sinAdvance; split <;> rfl
@[simp] theorem State.sinAdvance_boot : s.sinAdvance.boot = s.boot := by
  unfold State.sinAdvance; split <;> rfl
@[simp] theorem State.sinAdvance_ctl : s.sinAdvance.ctl = s.ctl := by
  unfold State.sinAdvance; split <;> rfl

/-! `sample` -/

@[simp] theorem State.sample_cfg : s.sample.cfg = s.cfg := by simp [State.sample]
@[simp] theorem State.sample_mem : s.sample.mem = s.mem := by simp [State.sample]
@[simp] theorem State.sample_head : s.sample.head = s.head := by simp [State.sample]
@[simp] theorem State.sample_tail : s.sample.tail = s.tail := by simp [State.sample]
@[simp] theorem State.sample_sck : s.sample.sck = s.sck := by simp [State.sample]
@[simp] theorem State.sample_sout : s.sample.sout = s.sout := by simp [State.sample]
@[simp] theorem State.sample_framer : s.sample.framer = s.framer := by simp [State.sample]
@[simp] theorem State.sample_xchg : s.sample.xchg = s.xchg := by simp [State.sample]
@[simp] theorem State.sample_fill : s.sample.fill = s.fill := by simp [State.sample]
@[simp] theorem State.sample_fault : s.sample.fault = s.fault := by simp [State.sample]
@[simp] theorem State.sample_trace : s.sample.trace = s.trace ++ [.sample s.sinLevel] := rfl
@[simp] theorem State.sample_issued : s.sample.issued = s.issued := by simp [State.sample]
@[simp] theorem State.sample_pending : s.sample.pending = s.pending := by simp [State.sample]
@[simp] theorem State.sample_result : s.sample.result = s.result := by simp [State.sample]
@[simp] theorem State.sample_sinIn : s.sample.sinIn = s.sinAdvance.sinIn := rfl
@[simp] theorem State.sample_streamIn : s.sample.streamIn = s.streamIn := by simp [State.sample]
@[simp] theorem State.sample_boot : s.sample.boot = s.boot := by simp [State.sample]
@[simp] theorem State.sample_draws : s.sample.draws = s.sinAdvance.draws := rfl
@[simp] theorem State.sample_ctl : s.sample.ctl = s.ctl := by simp [State.sample]

/-! The level seen depends on the inputs only. -/

@[simp] theorem State.sinLevel_driveBit (l : Level) : (s.driveBit l).sinLevel = s.sinLevel := rfl
@[simp] theorem State.sinLevel_wait (t : Nat) : (s.wait t).sinLevel = s.sinLevel := rfl

end Sys2Proof.Machine
end

