-- ==== Sys2Proof/Laws/Controller.lean ====
section
/-! SUPPORT. The reference controller: what a move can touch, and what a read of the host stream finds. -/

namespace Sys2Proof.Machine

/-! ## What a move touches -/

/-- Two states agree on everything but the port, the controller and the draw counter (R5, R11). -/
def State.sameBlock (s t : State) : Prop :=
  t = { s with pending := t.pending, ctl := t.ctl, draws := t.draws }

theorem State.sameBlock_refl (s : State) : s.sameBlock s := rfl

theorem State.sameBlock_withCtl (s : State) (c : Controller) : s.sameBlock (s.withCtl c) := rfl

theorem State.sameBlock_present {s t : State} (ops : List Instr) (h : s.sameBlock t) :
    s.sameBlock (t.present ops) := by
  unfold State.sameBlock at h ⊢
  rw [h]
  rfl

theorem sameBlock_shortRead (bytes : List Byte) (rest : List HostInput) (s : State) :
    s.sameBlock (shortRead bytes rest s) := rfl

theorem sameBlock_withStatus (k : Half → State → State) (hk : ∀ w s, State.sameBlock s (k w s))
    (s : State) : s.sameBlock (withStatus k s) := by
  unfold withStatus
  split
  · exact hk _ _
  · rfl

theorem sameBlock_poll (next : Point) (w : Half) (s : State) : s.sameBlock (poll next w s) := rfl

theorem sameBlock_hostInvoke (s : State) : s.sameBlock (hostInvoke s) := by
  unfold hostInvoke
  split
  · rfl
  · unfold setupRead
    split <;> rfl
  · rfl

theorem sameBlock_idleRead (s : State) : s.sameBlock (idleRead s) := by
  unfold idleRead
  split <;> rfl

theorem sameBlock_loadByte (left : Nat) (s : State) : s.sameBlock (loadByte left s) := by
  unfold loadByte
  split <;> rfl

theorem sameBlock_printerInvoke (s : State) : s.sameBlock (printerInvoke s) := by
  unfold printerInvoke
  split <;> rfl

theorem sameBlock_initStatus (w : Half) (s : State) : s.sameBlock (initStatus w s) := rfl

theorem sameBlock_endStatus (w : Half) (s : State) : s.sameBlock (endStatus w s) := rfl

theorem sameBlock_dataStatus (chunk : Nat) (w : Half) (s : State) :
    s.sameBlock (dataStatus chunk w s) := by
  simp only [dataStatus]
  split
  · split <;> rfl
  · rfl

theorem sameBlock_pollBusy (w : Half) (s : State) : s.sameBlock (pollBusy w s) := by
  unfold pollBusy
  split <;> rfl

theorem sameBlock_pollClear (w : Half) (s : State) : s.sameBlock (pollClear w s) := by
  unfold pollClear
  split <;> rfl

/-- A move of the controller reaches only the port, its own state and the draw counter (R5, R11). -/
theorem sameBlock_controllerMove (s : State) : s.sameBlock (controllerMove s) := by
  unfold controllerMove
  split
  · rfl
  · unfold referenceMove
    split
    · exact sameBlock_hostInvoke s
    · exact sameBlock_idleRead s
    · rfl
    · exact sameBlock_loadByte _ s
    · exact sameBlock_printerInvoke s
    · exact sameBlock_withStatus _ sameBlock_initStatus s
    · exact sameBlock_withStatus _ (sameBlock_dataStatus _) s
    · exact sameBlock_withStatus _ sameBlock_endStatus s
    · exact sameBlock_withStatus _ (sameBlock_poll _) s
    · exact sameBlock_withStatus _ sameBlock_pollBusy s
    · exact sameBlock_withStatus _ sameBlock_pollClear s
    · rfl

/-! ## What a read of the host stream finds (R227, R228, R231) -/

/-- A read finds its bytes when the stream has them. -/
theorem hostRead_got (bytes : List Byte) (rest : List HostInput) :
    hostRead bytes.length (bytes.map .byte ++ rest) = .got bytes rest := by
  induction bytes with
  | nil => rfl
  | cons b bs ih => simp [hostRead, ih, HostRead.cons]

/-- A read that meets the timeout first is short. -/
theorem hostRead_short (n : Nat) (bytes : List Byte) (rest : List HostInput)
    (h : bytes.length < n) :
    hostRead n (bytes.map .byte ++ .timeout :: rest) = .short bytes rest := by
  induction bytes generalizing n with
  | nil =>
    obtain ⟨m, rfl⟩ := Nat.exists_eq_succ_of_ne_zero (by simp at h; omega : n ≠ 0)
    rfl
  | cons b bs ih =>
    obtain ⟨m, rfl⟩ := Nat.exists_eq_succ_of_ne_zero (by simp at h; omega : n ≠ 0)
    simp [hostRead, ih m (by simpa using h), HostRead.cons]

/-- A read with too few bytes and no timeout blocks. -/
theorem hostRead_blocked (n : Nat) (bytes : List Byte) (h : bytes.length < n) :
    hostRead n (bytes.map .byte) = .blocked := by
  induction bytes generalizing n with
  | nil =>
    obtain ⟨m, rfl⟩ := Nat.exists_eq_succ_of_ne_zero (by simp at h; omega : n ≠ 0)
    rfl
  | cons b bs ih =>
    obtain ⟨m, rfl⟩ := Nat.exists_eq_succ_of_ne_zero (by simp at h; omega : n ≠ 0)
    simp [hostRead, ih m (by simpa using h), HostRead.cons]

/-- A chunk byte is waited for past any number of timeouts (U21). -/
theorem hostByte_skips (k : Nat) (b : Byte) (rest : List HostInput) :
    hostByte (List.replicate k .timeout ++ .byte b :: rest) = some (b, rest) := by
  induction k with
  | zero => rfl
  | succ k ih => simpa [List.replicate_succ, hostByte] using ih

theorem hostByte_none (k : Nat) : hostByte (List.replicate k .timeout) = none := by
  induction k with
  | zero => rfl
  | succ k ih => simpa [List.replicate_succ, hostByte] using ih

/-! ## What the host is sent -/

@[simp] theorem Controller.hostWrite_hostOut (c : Controller) (bytes : List Byte) :
    (c.hostWrite bytes).hostOut = c.hostOut ++ bytes := by
  simp [Controller.hostWrite, Controller.hostOut]

end Sys2Proof.Machine
end

