-- ==== Sys2Proof/Laws/Exchange.lean ====
section
/-! SUPPORT. One exchange: everything it can do, in `LINK` and in `LOOPBACK`. -/

namespace Sys2Proof.Machine

/-! ## The inputs to come -/

@[simp] theorem State.upcoming_length (n : Nat) (s : State) : (State.upcoming n s).length = n := by
  induction n generalizing s with
  | zero => rfl
  | succ n ih => simp [State.upcoming, ih]

/-- Taking `m + n` levels is taking `m` and then `n`. -/
theorem State.upcoming_add (m n : Nat) (s : State) :
    State.upcoming (m + n) s = State.upcoming m s ++ State.upcoming n (State.advanced m s) := by
  induction m generalizing s with
  | zero => simp [State.upcoming, State.advanced]
  | succ m ih =>
    rw [Nat.add_right_comm]
    simp [State.upcoming, State.advanced, ih]

theorem State.advanced_add (m n : Nat) (s : State) :
    State.advanced (m + n) s = State.advanced n (State.advanced m s) := by
  induction m generalizing s with
  | zero => simp [State.advanced]
  | succ m ih => rw [Nat.add_right_comm]; simp [State.advanced, ih]

/-- Where the peer lists its levels, those are the levels to come. -/
theorem State.upcoming_listed (levels rest : List Level) (s : State)
    (h : s.sinIn = levels ++ rest) : State.upcoming levels.length s = levels := by
  induction levels generalizing s with
  | nil => rfl
  | cons l ls ih =>
    have h1 : s.sinLevel = l := by simp [State.sinLevel, h]
    have h2 : s.sinAdvance.sinIn = ls ++ rest := by simp [State.sinAdvance, h]
    simp [State.upcoming, h1, ih _ h2]

/-- Consuming levels changes the list of levels and the draw counter and nothing else. -/
theorem State.advanced_eq (n : Nat) (s : State) :
    State.advanced n s =
      { s with sinIn := (State.advanced n s).sinIn, draws := (State.advanced n s).draws } := by
  induction n generalizing s with
  | zero => rfl
  | succ n ih =>
    have h := ih s.sinAdvance
    simp only [State.sinAdvance_cfg, State.sinAdvance_mem, State.sinAdvance_head,
      State.sinAdvance_tail, State.sinAdvance_sck, State.sinAdvance_sout, State.sinAdvance_framer,
      State.sinAdvance_xchg, State.sinAdvance_fill, State.sinAdvance_fault, State.sinAdvance_trace,
      State.sinAdvance_issued, State.sinAdvance_pending, State.sinAdvance_result,
      State.sinAdvance_streamIn, State.sinAdvance_boot, State.sinAdvance_ctl] at h
    exact h

/-- The levels to come depend only on the peer's list, the power-on and the draw counter. -/
theorem State.upcoming_congr (n : Nat) (s t : State) (h1 : s.sinIn = t.sinIn)
    (h2 : s.boot = t.boot) (h3 : s.draws = t.draws) :
    State.upcoming n s = State.upcoming n t ∧
      (State.advanced n s).sinIn = (State.advanced n t).sinIn ∧
      (State.advanced n s).draws = (State.advanced n t).draws := by
  induction n generalizing s t with
  | zero => exact ⟨rfl, h1, h3⟩
  | succ n ih =>
    have hl : s.sinLevel = t.sinLevel := by simp [State.sinLevel, h1, h2, h3]
    have ha : s.sinAdvance.sinIn = t.sinAdvance.sinIn ∧ s.sinAdvance.draws = t.sinAdvance.draws := by
      unfold State.sinAdvance; rw [h1]; split <;> simp [h3]
    obtain ⟨a, b, c⟩ := ih s.sinAdvance t.sinAdvance ha.1 (by simp [h2]) ha.2
    exact ⟨by simp [State.upcoming, hl, a], b, c⟩

/-! ## A bit, and the bits of a byte -/

/-- The reply after the bits below `n` have been sampled. -/
def replyAfter : Nat → Byte → List Level → Byte
  | i + 1, r, l :: ls => replyAfter i (setBit r i l) ls
  | _, r, _ => r

/-- Everything a bit does to the state. -/
theorem linkBit_state (i : Nat) (x : Exchange) (s : State) :
    (linkBit i x s).2 =
      { s with
        sck := true
        sout := x.out.getLsbD i
        trace := s.trace ++ bitEvents s.cfg.delayUs (x.out.getLsbD i) s.sinLevel
        sinIn := s.sinAdvance.sinIn
        draws := s.sinAdvance.draws } := by
  cases hs : s.sinIn <;>
    simp [linkBit, State.sample, State.wait, bitEvents, State.driveBit, State.drive, State.sinLevel,
      State.sinAdvance, hs]

theorem linkBit_exchange (i : Nat) (x : Exchange) (s : State) :
    (linkBit i x s).1 = { out := x.out, reply := setBit x.reply i s.sinLevel, bit := i - 1 } := rfl

/-- Everything the bits below `n + 1` of a byte do: the lines end at 1 and at bit 0, the events of every bit are
recorded, `n + 1` levels are consumed, and the reply takes them. -/
theorem linkBits_eq (n : Nat) (x : Exchange) (s : State) :
    (linkBits (n + 1) x s).1.reply = replyAfter (n + 1) x.reply (State.upcoming (n + 1) s) ∧
    (linkBits (n + 1) x s).2 =
      { s with
        sck := true
        sout := x.out.getLsbD 0
        trace := s.trace ++ linkEvents s.cfg.delayUs x.out (n + 1) (State.upcoming (n + 1) s)
        sinIn := (State.advanced (n + 1) s).sinIn
        draws := (State.advanced (n + 1) s).draws } := by
  induction n generalizing x s with
  | zero =>
    simp [linkBits, linkBit_state, linkBit_exchange, replyAfter, State.upcoming, State.advanced,
      linkEvents]
  | succ n ih =>
    have hstep : linkBits (n + 1 + 1) x s =
        linkBits (n + 1) (linkBit (n + 1) x s).1 (linkBit (n + 1) x s).2 := rfl
    obtain ⟨h1, h2⟩ := ih (linkBit (n + 1) x s).1 (linkBit (n + 1) x s).2
    have hs := linkBit_state (n + 1) x s
    obtain ⟨hu, ha, hd⟩ := State.upcoming_congr (n + 1) (linkBit (n + 1) x s).2 s.sinAdvance
      (by rw [hs]) (by rw [hs]; simp) (by rw [hs])
    rw [hstep]
    refine ⟨?_, ?_⟩
    · rw [h1, hu]; rfl
    · rw [h2, hu, ha, hd, hs]
      simp [linkBit_exchange, State.upcoming, State.advanced, linkEvents]

/-- Eight levels assemble to the byte whose bit 7 is the first (R56, R134). -/
theorem replyAfter_eight (l7 l6 l5 l4 l3 l2 l1 l0 : Level) :
    replyAfter 8 0 [l7, l6, l5, l4, l3, l2, l1, l0] = packByte l7 l6 l5 l4 l3 l2 l1 l0 := by
  revert l7 l6 l5 l4 l3 l2 l1 l0; decide +kernel

/-- The byte that the next eight levels make (R134). -/
def State.nextReply (s : State) : Byte := replyAfter 8 0 (State.upcoming 8 s)

/-! ## The exchange -/

/-- The state after an exchange in `LINK` (R131, R135). -/
def State.linked (b : Byte) (s : State) : State :=
  { s with
    sck := true
    sout := b.getLsbD 0
    trace := s.trace ++ linkEvents s.cfg.delayUs b 8 (State.upcoming 8 s)
    sinIn := (State.advanced 8 s).sinIn
    draws := (State.advanced 8 s).draws }

/-- An exchange in `LINK` always completes (R137) and does exactly this. -/
theorem exchange_link (b : Byte) (s : State) (h : s.cfg.mode = .link) :
    exchange b s = (some s.nextReply, s.linked b) := by
  have hb := linkBits_eq 7 { out := b, reply := 0, bit := 7 } s
  simp only [exchange, continueExchange, h]
  exact Prod.ext (congrArg some hb.1) hb.2

/-- The events of several bytes sent one after another, each with its eight levels (R139). -/
def sendEvents (micros : Nat) : List Byte → List Level → List Event
  | [], _ => []
  | b :: bs, ls => linkEvents micros b 8 (ls.take 8) ++ sendEvents micros bs (ls.drop 8)

/-- The state after several exchanges in `LINK`, nothing happening between them (R139). -/
def State.linkAll : List Byte → State → State
  | [], s => s
  | b :: bs, s => State.linkAll bs (s.linked b)

theorem State.linkAll_append (bs cs : List Byte) (s : State) :
    State.linkAll (bs ++ cs) s = State.linkAll cs (State.linkAll bs s) := by
  induction bs generalizing s with
  | nil => rfl
  | cons b bs ih => simp [State.linkAll, ih]

/-- The level `SOUT` is left at by a list of bytes: bit 0 of the last (R135). -/
def lastSout (l : Level) : List Byte → Level
  | [] => l
  | b :: bs => lastSout (b.getLsbD 0) bs

/-- Everything several exchanges in `LINK` do: the lines, the trace, and the levels consumed. -/
theorem State.linkAll_eq (bs : List Byte) (s : State) :
    State.linkAll bs s =
      { s with
        sck := s.sck || !bs.isEmpty
        sout := lastSout s.sout bs
        trace := s.trace ++ sendEvents s.cfg.delayUs bs (State.upcoming (8 * bs.length) s)
        sinIn := (State.advanced (8 * bs.length) s).sinIn
        draws := (State.advanced (8 * bs.length) s).draws } := by
  induction bs generalizing s with
  | nil => simp [State.linkAll, lastSout, sendEvents, State.advanced]
  | cons b bs ih =>
    have hlen : 8 * (b :: bs).length = 8 + 8 * bs.length := by simp; omega
    obtain ⟨hu, ha, hd⟩ := State.upcoming_congr (8 * bs.length) (s.linked b) (State.advanced 8 s)
      rfl (by rw [State.advanced_eq]; rfl) rfl
    rw [State.linkAll, ih, hlen, State.upcoming_add, State.advanced_add, hu, ha, hd]
    simp [State.linked, lastSout, sendEvents]

/-! ## What the events of a byte say -/

/-- A property of the events of one byte holds of all once it holds of the eight bits. -/
theorem linkEvents_eight (micros : Nat) (b : Byte) (l7 l6 l5 l4 l3 l2 l1 l0 : Level) :
    linkEvents micros b 8 [l7, l6, l5, l4, l3, l2, l1, l0] =
      bitEvents micros (b.getLsbD 7) l7 ++ bitEvents micros (b.getLsbD 6) l6 ++
      bitEvents micros (b.getLsbD 5) l5 ++ bitEvents micros (b.getLsbD 4) l4 ++
      bitEvents micros (b.getLsbD 3) l3 ++ bitEvents micros (b.getLsbD 2) l2 ++
      bitEvents micros (b.getLsbD 1) l1 ++ bitEvents micros (b.getLsbD 0) l0 := by
  simp [linkEvents, bitEvents]

/-- Eight levels are eight levels. -/
theorem eight_levels {ls : List Level} (h : ls.length = 8) :
    ∃ l7 l6 l5 l4 l3 l2 l1 l0, ls = [l7, l6, l5, l4, l3, l2, l1, l0] := by
  match ls, h with
  | [l7, l6, l5, l4, l3, l2, l1, l0], _ => exact ⟨l7, l6, l5, l4, l3, l2, l1, l0, rfl⟩

/-- The 48 events of one byte: how many, what they drive, what they sample, how long they wait (R131, R134). -/
theorem linkEvents_views (micros : Nat) (b : Byte) (ls : List Level) (h : ls.length = 8) :
    (linkEvents micros b 8 ls).length = 48 ∧
      soutLevels (linkEvents micros b 8 ls) = bitLevels b ∧
      sinLevels (linkEvents micros b 8 ls) = ls ∧
      delayTotal (linkEvents micros b 8 ls) = 16 * micros := by
  obtain ⟨l7, l6, l5, l4, l3, l2, l1, l0, rfl⟩ := eight_levels h
  rw [linkEvents_eight]
  refine ⟨rfl, rfl, rfl, ?_⟩
  simp [bitEvents, delayTotal]
  omega

@[simp] theorem soutLevels_append (a b : List Event) :
    soutLevels (a ++ b) = soutLevels a ++ soutLevels b := by simp [soutLevels]

@[simp] theorem sinLevels_append (a b : List Event) :
    sinLevels (a ++ b) = sinLevels a ++ sinLevels b := by simp [sinLevels]

@[simp] theorem delayTotal_append (a b : List Event) :
    delayTotal (a ++ b) = delayTotal a + delayTotal b := by
  induction a with
  | nil => simp [delayTotal]
  | cons e es ih => cases e <;> simp [delayTotal, ih, Nat.add_assoc]

/-- The same of the events of several bytes (R134, R160, R294). -/
theorem sendEvents_views (micros : Nat) (bs : List Byte) (ls : List Level)
    (h : ls.length = 8 * bs.length) :
    (sendEvents micros bs ls).length = 48 * bs.length ∧
      soutLevels (sendEvents micros bs ls) = bs.flatMap bitLevels ∧
      sinLevels (sendEvents micros bs ls) = ls ∧
      delayTotal (sendEvents micros bs ls) = 16 * micros * bs.length := by
  induction bs generalizing ls with
  | nil =>
    have : ls = [] := by simpa using h
    subst this
    simp [sendEvents, delayTotal, soutLevels, sinLevels]
  | cons b bs ih =>
    have h1 : (ls.take 8).length = 8 := by simp at h ⊢; omega
    have h2 : (ls.drop 8).length = 8 * bs.length := by simp at h ⊢; omega
    obtain ⟨a1, a2, a3, a4⟩ := linkEvents_views micros b (ls.take 8) h1
    obtain ⟨b1, b2, b3, b4⟩ := ih (ls.drop 8) h2
    refine ⟨?_, ?_, ?_, ?_⟩
    · simp [sendEvents, a1, b1]; omega
    · simp [sendEvents, a2, b2]
    · simp [sendEvents, a3, b3]
    · simp only [sendEvents, delayTotal_append, a4, b4, List.length_cons]; ring

/-- Taking the levels of bytes eight at a time gives the bytes (R134). -/
theorem packBytes_bitLevels (bs : List Byte) : packBytes (bs.flatMap bitLevels) = bs := by
  induction bs with
  | nil => rfl
  | cons b bs ih =>
    have hb : ∀ c : Byte, packByte (c.getLsbD 7) (c.getLsbD 6) (c.getLsbD 5) (c.getLsbD 4)
        (c.getLsbD 3) (c.getLsbD 2) (c.getLsbD 1) (c.getLsbD 0) = c := by decide +kernel
    simp only [List.flatMap_cons, bitLevels, List.cons_append, List.nil_append, packBytes, hb, ih]

/-- The state after an exchange in `LOOPBACK` that finds byte `r` (R138). -/
def State.looped (b r : Byte) (rest : List Byte) (s : State) : State :=
  { s with streamIn := rest, trace := s.trace ++ [.streamWrite b, .streamRead r] }

/-- An exchange in `LOOPBACK` with a byte available (R138). -/
theorem exchange_loopback (b r : Byte) (rest : List Byte) (s : State)
    (h : s.cfg.mode = .loopback) (hs : s.streamIn = r :: rest) :
    exchange b s = (some r, s.looped b r rest) := by
  simp [exchange, continueExchange, h, hs, State.streamRead, State.streamWrite, State.looped]

/-- An exchange in `LOOPBACK` with no byte available has sent its byte and waits (R138, R266). -/
theorem exchange_waits (b : Byte) (s : State) (h : s.cfg.mode = .loopback)
    (hs : s.streamIn = []) :
    exchange b s = (none,
      { s with
        trace := s.trace ++ [.streamWrite b]
        xchg := some { out := b, reply := 0, bit := 7 } }) := by
  simp [exchange, continueExchange, h, hs, State.streamWrite]

end Sys2Proof.Machine
end

