-- ==== Sys2Proof/Laws/Memory.lean ====
section
/-! SUPPORT. The storage: a read after a write, and every write keeps the canonical form. -/

namespace Sys2Proof.Machine

@[simp] theorem Memory.read_nil (a : Nat) : Memory.read [] a = none := rfl

/-- The written cell holds the byte written. -/
@[simp] theorem Memory.read_write_same (m : Memory) (a : Nat) (v : Byte) :
    Memory.read (Memory.write m a v) a = some v := by
  induction m with
  | nil => simp [Memory.write, Memory.read]
  | cons c rest ih =>
    obtain ⟨k, w⟩ := c
    unfold Memory.write
    split
    · simp [Memory.read]
    · split
      · simp [Memory.read]
      · next h => simp [Memory.read, ih, Ne.symm h]

/-- Every other cell is untouched. -/
theorem Memory.read_write_other (m : Memory) (a b : Nat) (v : Byte) (h : b ≠ a) :
    Memory.read (Memory.write m a v) b = Memory.read m b := by
  induction m with
  | nil => simp [Memory.write, Memory.read, Ne.symm h]
  | cons c rest ih =>
    obtain ⟨k, w⟩ := c
    unfold Memory.write
    split
    · simp [Memory.read, Ne.symm h]
    · split
      · next hk => subst hk; simp [Memory.read, Ne.symm h]
      · simp [Memory.read, ih]

/-- What a read finds after a write, both cases at once. -/
theorem Memory.read_write (m : Memory) (a b : Nat) (v : Byte) :
    Memory.read (Memory.write m a v) b = if b = a then some v else Memory.read m b := by
  split
  · next h => subst h; exact m.read_write_same b v
  · next h => exact m.read_write_other a b v h

/-- Writing above a bound keeps the indices rising above it. -/
theorem Memory.rising_write (m : Memory) (bound : Option Nat) (a : Nat) (v : Byte)
    (ha : ∀ b, bound = some b → b < a) (h : Memory.rising bound m = true) :
    Memory.rising bound (Memory.write m a v) = true := by
  induction m generalizing bound with
  | nil => cases bound <;> simp_all [Memory.write, Memory.rising]
  | cons c rest ih =>
    obtain ⟨k, w⟩ := c
    have hrest : Memory.rising (some k) rest = true := by
      cases bound <;> simp_all [Memory.rising]
    have hb : ∀ b, bound = some b → b < k := by
      intro b hb; subst hb; simp_all [Memory.rising]
    unfold Memory.write
    split
    · next hlt => cases bound <;> simp_all [Memory.rising]
    · split
      · next hk => subst hk; cases bound <;> simp_all [Memory.rising]
      · next hlt hk =>
        have := ih (some k) (by intro b hb'; cases hb'; omega) hrest
        cases bound <;> simp_all [Memory.rising]

/-- A write keeps the canonical form. -/
theorem Memory.wf_write (m : Memory) (a : Nat) (v : Byte) (h : m.wf = true) :
    (m.write a v).wf = true :=
  m.rising_write none a v (by simp) h

/-- A write inside the address space keeps every index inside it. -/
theorem Memory.within_write (m : Memory) (capacity a : Nat) (v : Byte) (ha : a < capacity)
    (h : m.within capacity = true) : (m.write a v).within capacity = true := by
  induction m with
  | nil => simp [Memory.write, Memory.within, ha]
  | cons c rest ih =>
    obtain ⟨k, w⟩ := c
    simp only [Memory.within, List.all_cons, Bool.and_eq_true, decide_eq_true_eq] at h ih ⊢
    unfold Memory.write
    split
    · simp only [List.all_cons, Bool.and_eq_true, decide_eq_true_eq]; exact ⟨ha, h.1, h.2⟩
    · split
      · simp only [List.all_cons, Bool.and_eq_true, decide_eq_true_eq]; exact ⟨ha, h.2⟩
      · simp only [List.all_cons, Bool.and_eq_true, decide_eq_true_eq]; exact ⟨h.1, ih h.2⟩

end Sys2Proof.Machine
end

