-- ==== Sys2Proof/Laws/Fifo.lean ====
section
/-! SUPPORT. The FIFO operations: everything a write and a read can do. -/

namespace Sys2Proof.Machine

/-! ## Recording a model fault -/

/-- The first fault is kept (R252). -/
theorem State.raise_fault (k : ModelFault) (p : Option Nat) (s : State) :
    (s.raise k p).fault =
      match s.fault with
      | none => some { kind := k, op := s.issued, payload := p }
      | some r => some r := by
  unfold State.raise; split <;> simp_all

/-- What the ghost effect of a write does to `fill` and `fault` (R111). -/
theorem State.ghostWrite_cases (s : State) :
    (s.fault = none ∧ s.fill = s.cfg.capacity ∧ s.ghostWrite.fill = s.fill ∧
      s.ghostWrite.fault =
        some { kind := .fifoOverrun, op := s.issued, payload := none }) ∨
    (s.fault = none ∧ s.fill ≠ s.cfg.capacity ∧ s.ghostWrite.fill = s.fill + 1 ∧
      s.ghostWrite.fault = none) ∨
    (s.fault ≠ none ∧ s.ghostWrite.fill = s.fill ∧ s.ghostWrite.fault = s.fault) := by
  unfold State.ghostWrite
  split
  · next h =>
    split
    · next hc => exact .inl ⟨h, hc, by simp, by simp [State.raise_fault, h]⟩
    · next hc => exact .inr (.inl ⟨h, hc, rfl, h⟩)
  · next r h => exact .inr (.inr ⟨by simp [h], rfl, rfl⟩)

/-- What the ghost effect of a read does to `fill` and `fault` (R112). -/
theorem State.ghostRead_cases (p : Option Nat) (s : State) :
    (s.fault = none ∧ s.fill = 0 ∧ (s.ghostRead p).fill = 0 ∧
      (s.ghostRead p).fault =
        some { kind := .fifoUnderrun, op := s.issued, payload := p }) ∨
    (s.fault = none ∧ s.fill ≠ 0 ∧ (s.ghostRead p).fill = s.fill - 1 ∧
      (s.ghostRead p).fault = none) ∨
    (s.fault ≠ none ∧ (s.ghostRead p).fill = s.fill ∧ (s.ghostRead p).fault = s.fault) := by
  unfold State.ghostRead
  split
  · next h =>
    split
    · next hc => exact .inl ⟨h, hc, by simp [hc], by simp [State.raise_fault, h]⟩
    · next hc => exact .inr (.inl ⟨h, hc, rfl, h⟩)
  · next r h => exact .inr (.inr ⟨by simp [h], rfl, rfl⟩)

/-! ## The write and the read -/

/-- A write either finds `tail` outside the storage, or does exactly this (R111). -/
theorem rbWrite_ok {b : Byte} {s t : State} (h : rbWrite b s = .ok t) :
    s.tail < s.cfg.capacity ∧
      t = { s with
        mem := s.mem.write s.tail b
        tail := nextCursor s.cfg.capacity s.tail
        fill := s.ghostWrite.fill
        fault := s.ghostWrite.fault } := by
  unfold rbWrite at h
  split at h
  · next hlt =>
    refine ⟨hlt, ?_⟩
    have ht := Except.ok.inj h
    rw [← ht]
    simp
  · cases h

/-- A write with `tail` inside the storage goes through. -/
theorem rbWrite_of_lt (b : Byte) (s : State) (h : s.tail < s.cfg.capacity) :
    ∃ t, rbWrite b s = .ok t := by
  simp [rbWrite, h]

/-- A read either finds `head` outside the storage, or does exactly this (R112). -/
theorem rbRead_ok {p : Option Nat} {s t : State} {v : Byte} (h : rbRead p s = .ok (v, t)) :
    s.head < s.cfg.capacity ∧
      v = readValue (s.ghostRead p).fault.isSome s ∧
      t = { s with
        head := nextCursor s.cfg.capacity s.head
        fill := (s.ghostRead p).fill
        fault := (s.ghostRead p).fault
        draws := if (s.ghostRead p).fault.isSome then s.draws + 1 else s.draws } := by
  unfold rbRead at h
  split at h
  · next hlt =>
    have hp := Except.ok.inj h
    refine ⟨hlt, (congrArg Prod.fst hp).symm, ?_⟩
    have ht : _ = t := congrArg Prod.snd hp
    rw [← ht]
    simp
  · cases h

/-- A read with `head` inside the storage goes through. -/
theorem rbRead_of_lt (p : Option Nat) (s : State) (h : s.head < s.cfg.capacity) :
    ∃ v t, rbRead p s = .ok (v, t) := by
  simp [rbRead, h]

/-- The state with `head` and `fill` moved: all that a read which respects the contract does (R112). -/
def State.moved (h n : Nat) (s : State) : State := { s with head := h, fill := n }

/-- A read that respects the contract hands back the byte at `head` and records nothing (R112). -/
theorem rbRead_faultFree (p : Option Nat) (s : State) (h : s.head < s.cfg.capacity)
    (hf : s.fault = none) (hq : s.fill ≠ 0) :
    rbRead p s = .ok (s.cell s.head, s.moved (nextCursor s.cfg.capacity s.head) (s.fill - 1)) := by
  simp [rbRead, h, State.ghostRead, hf, hq, readValue, State.moved]

/-! ## The cursor and the queue -/

theorem nextCursor_lt (capacity x : Nat) (h : 0 < capacity) : nextCursor capacity x < capacity :=
  Nat.mod_lt _ h

/-- The cursor after an access, written as the two cases of R70. -/
theorem nextCursor_eq (capacity x : Nat) (h : x < capacity) :
    nextCursor capacity x = if x = capacity - 1 then 0 else x + 1 := by
  unfold nextCursor
  split
  · next hx => rw [show x + 1 = capacity by omega, Nat.mod_self]
  · exact Nat.mod_eq_of_lt (by omega)

/-- `k` accesses after the next one are `k + 1` accesses. -/
theorem nextCursor_add (capacity x k : Nat) :
    (nextCursor capacity x + k) % capacity = (x + (k + 1)) % capacity := by
  unfold nextCursor
  rw [Nat.mod_add_mod]
  congr 1
  omega

@[simp] theorem State.queue_length (s : State) : s.queue.length = s.fill := by
  simp [State.queue]

/-- The first queued byte is the one at `head`; the rest is the queue one further (R35). -/
theorem State.queue_cons (s : State) (h : s.fill ≠ 0) (hh : s.head < s.cfg.capacity) :
    s.queue = s.cell s.head ::
      State.queue (s.moved (nextCursor s.cfg.capacity s.head) (s.fill - 1)) := by
  obtain ⟨n, hn⟩ := Nat.exists_eq_succ_of_ne_zero h
  simp only [State.queue, State.moved, hn, Nat.succ_sub_one, List.range_succ_eq_map, List.map_cons,
    List.map_map, Nat.add_zero, Nat.mod_eq_of_lt hh]
  congr 1
  apply List.map_congr_left
  intro k _
  simp only [Function.comp_apply, nextCursor_add]
  rfl

end Sys2Proof.Machine
end

