-- ==== Sys2Proof/Laws/Packet.lean ====
section
/-! SUPPORT. One packet: what the framer keeps, and everything a packet does in `LINK`. -/

namespace Sys2Proof.Machine

/-! ## What every packet keeps -/

/-- An exchange goes on without reaching the FIFO, the port, the controller or the framer (R51, R68). -/
theorem continueExchange_keeps (x : Exchange) (s : State) :
    (continueExchange x s).2 =
      { s with
        sck := (continueExchange x s).2.sck
        sout := (continueExchange x s).2.sout
        trace := (continueExchange x s).2.trace
        sinIn := (continueExchange x s).2.sinIn
        streamIn := (continueExchange x s).2.streamIn
        draws := (continueExchange x s).2.draws
        xchg := (continueExchange x s).2.xchg } := by
  unfold continueExchange
  split
  · rw [(linkBits_eq x.bit x s).2]
  · split <;> rfl

/-- An exchange reaches neither the FIFO, nor the port, nor the controller, nor the framer (R51, R68). -/
theorem exchange_keeps (b : Byte) (s : State) :
    (exchange b s).2 =
      { s with
        sck := (exchange b s).2.sck
        sout := (exchange b s).2.sout
        trace := (exchange b s).2.trace
        sinIn := (exchange b s).2.sinIn
        streamIn := (exchange b s).2.streamIn
        draws := (exchange b s).2.draws
        xchg := (exchange b s).2.xchg } := by
  unfold exchange
  split
  · exact continueExchange_keeps _ s
  · exact continueExchange_keeps _ (s.streamWrite b)

/-- Only the payload phase touches the state before its exchange, by one read (R161). -/
theorem framerFetch_cases {f f1 : Framer} {s s1 : State} {b : Byte}
    (h : framerFetch f s = .ok (b, f1, s1)) :
    (f.phase ≠ .payload ∧ f1 = f ∧ s1 = s) ∨
      (f.phase = .payload ∧ f1 = { f with csum := addSum f.csum b } ∧
        rbRead (some (f.len - f.rem).toNat) s = .ok (b, s1)) := by
  cases hp : f.phase <;> simp only [framerFetch, hp] at h
  case payload =>
    split at h
    · next p s' hr =>
      have hi := Except.ok.inj h
      simp only [Prod.mk.injEq] at hi
      obtain ⟨rfl, rfl, rfl⟩ := hi
      exact .inr ⟨rfl, rfl, hr⟩
    · cases h
  all_goals
    have hi := Except.ok.inj h
    simp only [Prod.mk.injEq] at hi
    exact .inl ⟨by simp, hi.2.1.symm, hi.2.2.symm⟩

/-- A property of states that reads, exchanges, the framer's field and the hand-back keep is kept by the framer's
run. -/
theorem framerRun_preserves (P : State → Prop)
    (hread : ∀ k s v t, P s → rbRead (some k) s = .ok (v, t) → P t)
    (hexchange : ∀ b s, P s → P (exchange b s).2)
    (hframer : ∀ f s, P s → P { s with framer := f })
    (hback : ∀ r s, P s → P (s.handBack r))
    (n : Nat) (f : Framer) (s t : State) (hs : P s) (h : framerRun n f s = .ok t) : P t := by
  induction n generalizing f s with
  | zero => cases h; exact hframer _ _ hs
  | succ n ih =>
    unfold framerRun at h
    split at h
    · cases h
    · next b f1 s1 hf =>
      have h1 : P s1 := by
        rcases framerFetch_cases hf with ⟨-, -, rfl⟩ | ⟨-, -, hr⟩
        · exact hs
        · exact hread _ _ _ _ hs hr
      have h2 := hexchange b s1 h1
      split at h
      · next s2 he => rw [he] at h2; cases h; exact hframer _ _ h2
      · next r s2 he =>
        rw [he] at h2
        split at h
        · exact ih _ _ h2 h
        · cases h; exact hback _ _ h2

/-! ## A packet in `LINK` -/

/-- The FIFO's cursor and fill do not matter to an exchange (R51). -/
theorem State.linked_moved (b : Byte) (s : State) (h n : Nat) :
    (s.moved h n).linked b = (s.linked b).moved h n := by
  obtain ⟨hu, ha, hd⟩ := State.upcoming_congr 8 (s.moved h n) s rfl rfl rfl
  simp only [State.linked, hu, ha, hd]
  rfl

/-- The same of several exchanges. -/
theorem State.linkAll_moved (bs : List Byte) (s : State) (h n : Nat) :
    State.linkAll bs (s.moved h n) = (State.linkAll bs s).moved h n := by
  induction bs generalizing s with
  | nil => rfl
  | cons b bs ih => simp only [State.linkAll, State.linked_moved, ih]

/-- An exchange leaves the queue as it is (R51). -/
theorem State.queue_linked_moved (b : Byte) (s : State) (h n : Nat) :
    ((s.linked b).moved h n).queue = (s.moved h n).queue := rfl

theorem State.nextReply_moved (s : State) (h n : Nat) : (s.moved h n).nextReply = s.nextReply := by
  simp only [State.nextReply, (State.upcoming_congr 8 (s.moved h n) s rfl rfl rfl).1]

@[simp] theorem State.linkAll_cfg (bs : List Byte) (s : State) :
    (State.linkAll bs s).cfg = s.cfg := by rw [State.linkAll_eq]
@[simp] theorem State.linkAll_head (bs : List Byte) (s : State) :
    (State.linkAll bs s).head = s.head := by rw [State.linkAll_eq]
@[simp] theorem State.linkAll_fill (bs : List Byte) (s : State) :
    (State.linkAll bs s).fill = s.fill := by rw [State.linkAll_eq]
@[simp] theorem State.linkAll_fault (bs : List Byte) (s : State) :
    (State.linkAll bs s).fault = s.fault := by rw [State.linkAll_eq]
@[simp] theorem State.linkAll_queue (bs : List Byte) (s : State) :
    (State.linkAll bs s).queue = s.queue := by rw [State.linkAll_eq]; rfl

/-- The reply of exchange number `k` of several is the `k`-th byte that the levels to come make (R134). -/
theorem packBytes_upcoming (bs : List Byte) (s : State) (k : Nat) (hk : k < bs.length) :
    (packBytes (State.upcoming (8 * bs.length) s))[k]? =
      some (State.linkAll (bs.take k) s).nextReply := by
  induction bs generalizing s k with
  | nil => simp at hk
  | cons b bs ih =>
    have hlen : 8 * (b :: bs).length = 8 + 8 * bs.length := by simp; omega
    rw [hlen, State.upcoming_add]
    obtain ⟨l7, l6, l5, l4, l3, l2, l1, l0, h8⟩ := eight_levels (State.upcoming_length 8 s)
    rw [h8]
    simp only [List.cons_append, List.nil_append, packBytes]
    cases k with
    | zero => simp [State.linkAll, State.nextReply, h8, ← replyAfter_eight]
    | succ k =>
      simp only [List.getElem?_cons_succ, List.take_succ_cons, State.linkAll]
      rw [← (State.upcoming_congr (8 * bs.length) (s.linked b) (State.advanced 8 s) rfl
        (by rw [State.advanced_eq]; rfl) rfl).1]
      exact ih _ _ (by simpa using hk)

theorem State.linked_cfg (b : Byte) (s : State) : (s.linked b).cfg = s.cfg := rfl

/-- One round of the framer in `LINK`. -/
theorem framerRun_link (n : Nat) {f f1 : Framer} {s s1 : State} {b : Byte}
    (hf : framerFetch f s = .ok (b, f1, s1)) (hm : s1.cfg.mode = .link) :
    framerRun (n + 1) f s =
      match framerNext f1 s1.nextReply with
      | .inl f2 => framerRun n f2 (s1.linked b)
      | .inr w => .ok ((s1.linked b).handBack (.status w)) := by
  have he := exchange_link b s1 hm
  cases hn : framerNext f1 s1.nextReply <;> simp only [framerRun, hf, he, hn]

/-- The phase after the header or after a payload byte (R151). -/
def afterHeader (rem : Half) : Phase := if rem = 0 then .chkLo else .payload

/-- The six exchanges of the header (R87, R151). -/
theorem framerRun_header (n : Nat) (cmd : Byte) (len : Half) (s : State)
    (hm : s.cfg.mode = .link) :
    framerRun (n + 6) (Framer.start cmd len) s =
      framerRun n { Framer.start cmd len with phase := afterHeader len }
        (State.linkAll (headerBytes cmd len) s) := by
  rw [framerRun_link (b := Wire.magic0) (s1 := s) (n + 5) rfl hm]
  simp only [framerNext, Framer.start]
  rw [framerRun_link (b := Wire.magic1) (s1 := s.linked _) (n + 4) rfl hm]
  simp only [framerNext]
  rw [framerRun_link (b := cmd) (s1 := (s.linked _).linked _) (n + 3) rfl hm]
  simp only [framerNext]
  rw [framerRun_link (b := Wire.comp) (s1 := ((s.linked _).linked _).linked _) (n + 2) rfl hm]
  simp only [framerNext]
  rw [framerRun_link (b := low len) (s1 := (((s.linked _).linked _).linked _).linked _) (n + 1)
    rfl hm]
  simp only [framerNext]
  rw [framerRun_link (b := high len)
    (s1 := ((((s.linked _).linked _).linked _).linked _).linked _) n rfl hm]
  rfl

/-- The four exchanges after the payload: the checksum, low byte first, and the two status exchanges (R155, R156). -/
theorem framerRun_trailer (n : Nat) (f : Framer) (s : State) (hm : s.cfg.mode = .link)
    (hp : f.phase = .chkLo) :
    framerRun (n + 4) f s =
      .ok ((State.linkAll [low f.csum, high f.csum, Wire.statusOut, Wire.statusOut] s).handBack
        (.status (join (State.linkAll [low f.csum, high f.csum] s).nextReply
          (State.linkAll [low f.csum, high f.csum, Wire.statusOut] s).nextReply))) := by
  obtain ⟨cmd, len, csum, rem, phase, statHi⟩ := f
  obtain rfl : phase = .chkLo := hp
  rw [framerRun_link (b := low csum) (s1 := s) (n + 3) rfl hm]
  simp only [framerNext]
  rw [framerRun_link (b := high csum) (s1 := s.linked _) (n + 2) rfl hm]
  simp only [framerNext]
  rw [framerRun_link (b := Wire.statusOut) (s1 := (s.linked _).linked _) (n + 1) rfl hm]
  simp only [framerNext]
  rw [framerRun_link (b := Wire.statusOut) (s1 := ((s.linked _).linked _).linked _) n rfl hm]
  rfl

/-- The payload phases when the FIFO holds the payload: the queued bytes in queue order, each accumulated into the
checksum, `head` and `fill` moved (R154, R159, R163). -/
theorem framerRun_payload (k n : Nat) (f : Framer) (s : State) (hm : s.cfg.mode = .link)
    (hh : s.head < s.cfg.capacity) (hf : s.fault = none) (hq : k ≤ s.fill)
    (hr : f.rem.toNat = k) (hp : f.phase = afterHeader f.rem) :
    framerRun (n + k) f s =
      framerRun n
        { f with csum := (s.queue.take k).foldl addSum f.csum, rem := 0, phase := .chkLo }
        ((State.linkAll (s.queue.take k) s).moved ((s.head + k) % s.cfg.capacity)
          (s.fill - k)) := by
  induction k generalizing f s with
  | zero =>
    have h0 : f.rem = 0#16 := BitVec.eq_of_toNat_eq (by simpa using hr)
    obtain ⟨cmd, len, csum, rem, phase, statHi⟩ := f
    obtain rfl : rem = 0#16 := h0
    obtain rfl : phase = .chkLo := hp
    simp [State.linkAll, Nat.mod_eq_of_lt hh, State.moved]
  | succ k ih =>
    have h0 : f.rem ≠ 0#16 := by intro h; rw [h] at hr; simp at hr
    have hfill : s.fill ≠ 0 := by omega
    have hphase : f.phase = .payload := by simp [hp, afterHeader, h0]
    have hrem : (f.rem - 1).toNat = k := by
      rw [BitVec.toNat_sub]
      have := f.rem.isLt
      simp
      omega
    have hfetch : framerFetch f s = .ok (s.cell s.head,
        { f with csum := addSum f.csum (s.cell s.head) },
        s.moved (nextCursor s.cfg.capacity s.head) (s.fill - 1)) := by
      simp only [framerFetch, hphase, rbRead_faultFree _ s hh hf hfill]
    have hnext := ih
      { f with
        csum := addSum f.csum (s.cell s.head), rem := f.rem - 1, phase := afterHeader (f.rem - 1) }
      ((s.linked (s.cell s.head)).moved (nextCursor s.cfg.capacity s.head) (s.fill - 1))
      hm (nextCursor_lt _ _ (by omega)) hf (by change k ≤ s.fill - 1; omega) hrem rfl
    rw [show n + (k + 1) = n + k + 1 from rfl, framerRun_link (n + k) hfetch hm]
    simp only [framerNext, hphase]
    rw [show (if f.rem - 1 = 0 then Phase.chkLo else Phase.payload) = afterHeader (f.rem - 1) from rfl,
      State.linked_moved, hnext, s.queue_cons hfill hh, State.queue_linked_moved,
      State.linkAll_moved]
    simp only [List.take_succ_cons, List.foldl_cons, State.linkAll]
    have h1 : (nextCursor s.cfg.capacity s.head + k) % s.cfg.capacity =
        (s.head + (k + 1)) % s.cfg.capacity := nextCursor_add _ _ _
    have h2 : s.fill - 1 - k = s.fill - (k + 1) := by omega
    rw [← h1, ← h2]
    rfl

/-- Everything a packet whose payload is in the FIFO does in `LINK`: its bytes are exchanged one after another, `head`
and `fill` move by `len`, and the replies of the last two exchanges are handed back, high byte first (R151, R156,
R163). -/
theorem sendPacket_link (cmd : Byte) (len : Half) (s : State) (hm : s.cfg.mode = .link)
    (hh : s.head < s.cfg.capacity) (hf : s.fault = none) (hq : len.toNat ≤ s.fill) :
    sendPacket cmd len s =
      .ok (((State.linkAll (packetBytes cmd len (s.queue.take len.toNat)) s).moved
          ((s.head + len.toNat) % s.cfg.capacity) (s.fill - len.toNat)).handBack
        (.status (join
          (State.linkAll ((packetBytes cmd len (s.queue.take len.toNat)).take (8 + len.toNat))
            s).nextReply
          (State.linkAll ((packetBytes cmd len (s.queue.take len.toNat)).take (9 + len.toNat))
            s).nextReply))) := by
  have hlen : (s.queue.take len.toNat).length = len.toNat := by simp; omega
  have h8 : (packetBytes cmd len (s.queue.take len.toNat)).take (8 + len.toNat) =
      headerBytes cmd len ++ s.queue.take len.toNat ++
        [low (checksum cmd len (s.queue.take len.toNat)),
          high (checksum cmd len (s.queue.take len.toNat))] := by
    rw [packetBytes, List.take_append, List.take_of_length_le (by simp [headerBytes]; omega)]
    congr 1
    simp only [List.length_append, hlen, headerBytes, List.length_cons, List.length_nil]
    rw [show 8 + len.toNat - (0 + 1 + 1 + 1 + 1 + 1 + 1 + len.toNat) = 2 by omega]
    rfl
  have h9 : (packetBytes cmd len (s.queue.take len.toNat)).take (9 + len.toNat) =
      headerBytes cmd len ++ s.queue.take len.toNat ++
        [low (checksum cmd len (s.queue.take len.toNat)),
          high (checksum cmd len (s.queue.take len.toNat)), Wire.statusOut] := by
    rw [packetBytes, List.take_append, List.take_of_length_le (by simp [headerBytes]; omega)]
    congr 1
    simp only [List.length_append, hlen, headerBytes, List.length_cons, List.length_nil]
    rw [show 9 + len.toNat - (0 + 1 + 1 + 1 + 1 + 1 + 1 + len.toNat) = 3 by omega]
    rfl
  have hn : 10 + (Framer.start cmd len).rem.toNat = 0 + 4 + len.toNat + 6 := by
    simp [Framer.start]; omega
  rw [sendPacket, framerGo, hn, framerRun_header _ _ _ _ hm,
    framerRun_payload len.toNat (0 + 4) _ _ (by simpa using hm) (by simpa using hh)
      (by simpa using hf) (by simpa using hq) rfl rfl,
    framerRun_trailer _ _ _ (by simpa [State.moved] using hm) rfl, h8, h9]
  simp only [State.linkAll_moved, State.nextReply_moved, State.linkAll_cfg, State.linkAll_head,
    State.linkAll_fill, State.linkAll_queue, Framer.start, packetBytes, checksum,
    State.linkAll_append]

/-! ## A packet in `LINK`, whatever the FIFO holds -/

/-- What neither an exchange in `LINK` nor a read changes. -/
structure State.alike (s t : State) : Prop where
  cfg : t.cfg = s.cfg
  mem : t.mem = s.mem
  tail : t.tail = s.tail
  framer : t.framer = s.framer
  xchg : t.xchg = s.xchg
  issued : t.issued = s.issued
  pending : t.pending = s.pending
  result : t.result = s.result
  streamIn : t.streamIn = s.streamIn
  boot : t.boot = s.boot
  ctl : t.ctl = s.ctl

theorem State.alike_refl (s : State) : s.alike s where
  cfg := rfl
  mem := rfl
  tail := rfl
  framer := rfl
  xchg := rfl
  issued := rfl
  pending := rfl
  result := rfl
  streamIn := rfl
  boot := rfl
  ctl := rfl

theorem State.alike.trans {s t u : State} (h1 : s.alike t) (h2 : t.alike u) : s.alike u where
  cfg := h2.cfg.trans h1.cfg
  mem := h2.mem.trans h1.mem
  tail := h2.tail.trans h1.tail
  framer := h2.framer.trans h1.framer
  xchg := h2.xchg.trans h1.xchg
  issued := h2.issued.trans h1.issued
  pending := h2.pending.trans h1.pending
  result := h2.result.trans h1.result
  streamIn := h2.streamIn.trans h1.streamIn
  boot := h2.boot.trans h1.boot
  ctl := h2.ctl.trans h1.ctl

theorem State.alike_linkAll (s : State) (bs : List Byte) : s.alike (State.linkAll bs s) := by
  rw [State.linkAll_eq]; constructor <;> rfl

/-- What becomes of a state when `LINK` shifts out the bytes `out` and reads draw the bytes `p` from the FIFO on the
way. `k0` is the payload index of the first read. -/
structure Drained (s t : State) (k0 : Nat) (p out : List Byte) : Prop where
  rest : s.alike t
  head : s.head < s.cfg.capacity → t.head = (s.head + p.length) % s.cfg.capacity
  nothing : p = [] → t.head = s.head
  trace : ∃ ls, ls.length = 8 * out.length ∧
    t.trace = s.trace ++ sendEvents s.cfg.delayUs out ls
  kept : s.fault ≠ none → t.fault = s.fault ∧ t.fill = s.fill
  held : s.fault = none → p.length ≤ s.fill → t.fault = none ∧ t.fill = s.fill - p.length
  short : s.fault = none → s.fill < p.length →
    t.fault = some { kind := .fifoUnderrun, op := s.issued, payload := some (k0 + s.fill) } ∧
      t.fill = 0
  bytes : s.fault = none → p.take s.fill = s.queue.take p.length

theorem Drained.refl (s : State) (k0 : Nat) : Drained s s k0 [] [] where
  rest := s.alike_refl
  head h := by simp [Nat.mod_eq_of_lt h]
  nothing _ := rfl
  trace := ⟨[], rfl, by simp [sendEvents]⟩
  kept _ := ⟨rfl, rfl⟩
  held h _ := ⟨h, rfl⟩
  short _ h := by simp at h
  bytes _ := by simp

/-- The events of two lists of bytes are those of the one and then those of the other. -/
theorem sendEvents_append (micros : Nat) (bs cs : List Byte) (ls ms : List Level)
    (h : ls.length = 8 * bs.length) :
    sendEvents micros (bs ++ cs) (ls ++ ms) = sendEvents micros bs ls ++ sendEvents micros cs ms := by
  induction bs generalizing ls with
  | nil => simp only [List.length_nil, Nat.mul_zero, List.length_eq_zero_iff] at h; simp [h, sendEvents]
  | cons b bs ih =>
    have h1 : (ls.drop 8).length = 8 * bs.length := by simp at h ⊢; omega
    have h2 : 8 ≤ ls.length := by simp at h; omega
    simp only [List.cons_append, sendEvents, List.take_append_of_le_length h2,
      List.drop_append_of_le_length h2, ih _ h1, List.append_assoc]

/-- Bytes exchanged before. -/
theorem Drained.before {s t : State} {k0 : Nat} {p out : List Byte} (bs : List Byte)
    (h : Drained (State.linkAll bs s) t k0 p out) : Drained s t k0 p (bs ++ out) where
  rest := (s.alike_linkAll bs).trans h.rest
  head := by simpa using h.head
  nothing := by simpa using h.nothing
  trace := by
    obtain ⟨ls, hl, ht⟩ := h.trace
    refine ⟨State.upcoming (8 * bs.length) s ++ ls, by simp [hl]; omega, ?_⟩
    rw [ht, sendEvents_append _ _ _ _ _ (by simp), State.linkAll_eq]
    simp
  kept := by simpa using h.kept
  held := by simpa using h.held
  short := by
    have hi : (State.linkAll bs s).issued = s.issued := by rw [State.linkAll_eq]
    simpa [hi] using h.short
  bytes := by simpa using h.bytes

/-- Bytes exchanged afterwards. -/
theorem Drained.after {s t : State} {k0 : Nat} {p out : List Byte} (bs : List Byte)
    (h : Drained s t k0 p out) : Drained s (State.linkAll bs t) k0 p (out ++ bs) where
  rest := h.rest.trans (t.alike_linkAll bs)
  head := by simpa using h.head
  nothing := by simpa using h.nothing
  trace := by
    obtain ⟨ls, hl, ht⟩ := h.trace
    refine ⟨ls ++ State.upcoming (8 * bs.length) t, by simp [hl]; omega, ?_⟩
    have hc : t.cfg = s.cfg := h.rest.cfg
    rw [sendEvents_append _ _ _ _ _ hl, State.linkAll_eq, ht, hc, List.append_assoc]
  kept := by simpa using h.kept
  held := by simpa using h.held
  short := by simpa using h.short
  bytes := h.bytes

/-- One read and its exchange, then the others. -/
theorem Drained.cons {s u t : State} {k0 : Nat} {b : Byte} {p out : List Byte}
    (hr : rbRead (some k0) s = .ok (b, u)) (h : Drained (u.linked b) t (k0 + 1) p out) :
    Drained s t k0 (b :: p) (b :: out) := by
  obtain ⟨hh, hb, hu⟩ := rbRead_ok hr
  have hcap : 0 < s.cfg.capacity := by omega
  have hs : (u.linked b).head = nextCursor s.cfg.capacity s.head := by rw [hu]; rfl
  have hc : (u.linked b).cfg = s.cfg := by rw [hu]; rfl
  have hi : (u.linked b).issued = s.issued := by rw [hu]; rfl
  have hfl : (u.linked b).fill = (s.ghostRead (some k0)).fill := by rw [hu]; rfl
  have hft : (u.linked b).fault = (s.ghostRead (some k0)).fault := by rw [hu]; rfl
  have hhead : t.head = (s.head + (b :: p).length) % s.cfg.capacity := by
    rw [h.head (by rw [hs, hc]; exact nextCursor_lt _ _ hcap), hs, hc, nextCursor_add]
    rfl
  refine ⟨?_, fun _ => hhead, by simp, ?_, ?_, ?_, ?_, ?_⟩
  · have hsu : s.alike (u.linked b) := by rw [hu]; constructor <;> rfl
    exact hsu.trans h.rest
  · obtain ⟨ls, hl, ht⟩ := h.trace
    refine ⟨State.upcoming 8 u ++ ls, by simp [hl]; omega, ?_⟩
    rw [ht]
    simp [State.linked, sendEvents, hu]
  · intro hf
    rcases s.ghostRead_cases (some k0) with ⟨h0, -⟩ | ⟨h0, -⟩ | ⟨-, h1, h2⟩
    · exact absurd h0 hf
    · exact absurd h0 hf
    · have := h.kept (by rw [hft, h2]; exact hf)
      rw [hft, hfl, h1, h2] at this
      exact this
  · intro hf hl
    simp only [List.length_cons] at hl ⊢
    rcases s.ghostRead_cases (some k0) with ⟨-, h0, -⟩ | ⟨-, -, h1, h2⟩ | ⟨h0, -⟩
    · omega
    · have := h.held (by rw [hft, h2]) (by rw [hfl, h1]; omega)
      rw [hfl, h1] at this
      exact ⟨this.1, by rw [this.2]; omega⟩
    · exact absurd hf h0
  · intro hf hl
    simp only [List.length_cons] at hl
    rcases s.ghostRead_cases (some k0) with ⟨-, h0, h1, h2⟩ | ⟨-, h0, h1, h2⟩ | ⟨h0, -⟩
    · have := h.kept (by rw [hft, h2]; simp)
      rw [hft, hfl, h1, h2] at this
      exact ⟨by rw [this.1, h0]; rfl, this.2⟩
    · have := h.short (by rw [hft, h2]) (by rw [hfl, h1]; omega)
      rw [hfl, h1, hi] at this
      refine ⟨?_, this.2⟩
      rw [this.1]
      congr 3
      omega
    · exact absurd hf h0
  · intro hf
    rcases s.ghostRead_cases (some k0) with ⟨-, h0, -⟩ | ⟨-, h0, h1, h2⟩ | ⟨h0, -⟩
    · simp [h0, State.queue]
    · have hb' : b = s.cell s.head := by rw [hb, h2]; rfl
      have hq : (u.linked b).queue =
          (s.moved (nextCursor s.cfg.capacity s.head) (s.fill - 1)).queue := by
        rw [hu, h1]; rfl
      have := h.bytes (by rw [hft, h2])
      rw [hfl, h1, hq] at this
      obtain ⟨m, hm⟩ := Nat.exists_eq_succ_of_ne_zero h0
      rw [s.queue_cons h0 hh, List.length_cons, List.take_succ_cons, ← this, hb', hm]
      simp
    · exact absurd hf h0

/-- The payload phases in any state whose `head` is in range: as many bytes as `rem` says are read and exchanged,
whatever the FIFO holds (R159). -/
theorem framerRun_drain (k n : Nat) (f : Framer) (s : State) (hm : s.cfg.mode = .link)
    (hh : k = 0 ∨ s.head < s.cfg.capacity) (hr : f.rem.toNat = k)
    (hl : f.rem.toNat ≤ f.len.toNat) (hp : f.phase = afterHeader f.rem) :
    ∃ p t, p.length = k ∧ Drained s t (f.len.toNat - f.rem.toNat) p p ∧
      framerRun (n + k) f s =
        framerRun n { f with csum := p.foldl addSum f.csum, rem := 0, phase := .chkLo } t := by
  induction k generalizing f s with
  | zero =>
    refine ⟨[], s, rfl, Drained.refl s _, ?_⟩
    have h0 : f.rem = 0#16 := BitVec.eq_of_toNat_eq (by simpa using hr)
    obtain ⟨cmd, len, csum, rem, phase, statHi⟩ := f
    obtain rfl : rem = 0#16 := h0
    obtain rfl : phase = .chkLo := hp
    rfl
  | succ k ih =>
    have hh : s.head < s.cfg.capacity := by omega
    have h0 : f.rem ≠ 0#16 := by intro h; rw [h] at hr; simp at hr
    have hphase : f.phase = .payload := by simp [hp, afterHeader, h0]
    have hlt := f.rem.isLt
    have hlt2 := f.len.isLt
    have hrem : (f.rem - 1).toNat = k := by rw [BitVec.toNat_sub]; simp; omega
    have hidx : (f.len - f.rem).toNat = f.len.toNat - f.rem.toNat := by
      rw [BitVec.toNat_sub]; omega
    obtain ⟨b, u, hread⟩ := rbRead_of_lt (some (f.len.toNat - f.rem.toNat)) s hh
    obtain ⟨-, -, hu⟩ := rbRead_ok hread
    have hc : u.cfg = s.cfg := by rw [hu]
    have hfetch : framerFetch f s =
        .ok (b, { f with csum := addSum f.csum b }, u) := by
      simp only [framerFetch, hphase, hidx, hread]
    obtain ⟨p, t, hlen, hd, hrun⟩ := ih
      { f with csum := addSum f.csum b, rem := f.rem - 1, phase := afterHeader (f.rem - 1) }
      (u.linked b) (by simpa [State.linked, hc] using hm)
      (by
        right
        rw [State.linked_cfg, hc, show (u.linked b).head = u.head from rfl, hu]
        exact nextCursor_lt _ _ (by omega))
      hrem (by simp only [hrem]; omega) rfl
    refine ⟨b :: p, t, by simp [hlen], Drained.cons hread ?_, ?_⟩
    · simp only [hrem] at hd
      rwa [show f.len.toNat - f.rem.toNat + 1 = f.len.toNat - k by omega]
    · rw [show n + (k + 1) = n + k + 1 from rfl,
        framerRun_link (n + k) hfetch (by rw [hc]; exact hm)]
      simp only [framerNext, hphase, List.foldl_cons]
      exact hrun

/-- A packet with a payload and `head` outside the storage stops at its first read (R50, R53). -/
theorem sendPacket_link_outside (cmd : Byte) (len : Half) (s : State) (hm : s.cfg.mode = .link)
    (hl : len ≠ 0#16) (hh : s.cfg.capacity ≤ s.head) :
    sendPacket cmd len s = .error (.indexOutOfRange s.head) := by
  have hn : 10 + (Framer.start cmd len).rem.toNat = 3 + len.toNat + 1 + 6 := by
    simp [Framer.start]; omega
  rw [sendPacket, framerGo, hn, framerRun_header _ _ _ _ hm]
  have hpay : afterHeader len = .payload := by simp [afterHeader, hl]
  simp only [framerRun, framerFetch, hpay, rbRead, State.linkAll_head, State.linkAll_cfg]
  rw [if_neg (by omega)]

/-- Everything a packet does in `LINK`, whatever the FIFO holds, unless its first read finds `head` outside the
storage: `10 + len` exchanges one after another, the FIFO moved as the reads move it, the lines left at 1 and 0, and a
status handed back (R151, R159, R160). -/
theorem sendPacket_link_any (cmd : Byte) (len : Half) (s : State) (hm : s.cfg.mode = .link)
    (hh : len = 0#16 ∨ s.head < s.cfg.capacity) :
    ∃ p t w, p.length = len.toNat ∧ Drained s t 0 p (packetBytes cmd len p) ∧
      t.sck = true ∧ t.sout = false ∧
      sendPacket cmd len s = .ok (t.handBack (.status w)) := by
  have hn : 10 + (Framer.start cmd len).rem.toNat = 0 + 4 + len.toNat + 6 := by
    simp [Framer.start]; omega
  obtain ⟨p, t, hlen, hd, hrun⟩ := framerRun_drain len.toNat (0 + 4)
    { Framer.start cmd len with phase := afterHeader len }
    (State.linkAll (headerBytes cmd len) s) (by simpa using hm)
    (by rcases hh with rfl | h
        · exact .inl rfl
        · exact .inr (by simpa using h))
    rfl (Nat.le_refl _) rfl
  have hk : (Framer.start cmd len).len.toNat - (Framer.start cmd len).rem.toNat = 0 := by
    simp [Framer.start]
  have hc : t.cfg = s.cfg := by rw [hd.rest.cfg]; simp
  rw [sendPacket, framerGo, hn, framerRun_header _ _ _ _ hm, hrun,
    framerRun_trailer _ _ _ (by rw [hc]; exact hm) rfl]
  refine ⟨p, _, _, hlen, ?_, ?_, ?_, rfl⟩
  · exact (hk ▸ hd).before _ |>.after _
  · rw [State.linkAll_eq]; simp
  · rw [State.linkAll_eq]; rfl

end Sys2Proof.Machine
end

