-- ==== Sys2Proof/Laws/Framer.lean ====
section
/-! SUPPORT. How long the framer runs, and how its run ends. -/

namespace Sys2Proof.Machine

/-- The exchanges left from a place in the emission order (R160, R161). -/
def Framer.left (f : Framer) : Nat :=
  match f.phase with
  | .magic0 => 10 + f.rem.toNat
  | .magic1 => 9 + f.rem.toNat
  | .cmd => 8 + f.rem.toNat
  | .comp => 7 + f.rem.toNat
  | .lenLo => 6 + f.rem.toNat
  | .lenHi => 5 + f.rem.toNat
  | .payload => 4 + f.rem.toNat
  | .chkLo => 4
  | .chkHi => 3
  | .statHi => 2
  | .statLo => 1

/-- The payload phase has payload left (R161). -/
def Framer.sound (f : Framer) : Prop := f.phase = .payload → f.rem ≠ 0#16

theorem Framer.start_sound (cmd : Byte) (len : Half) : (Framer.start cmd len).sound := by
  intro h; cases h

/-- The rounds a framer is given are enough. -/
theorem Framer.left_le (f : Framer) : f.left ≤ 10 + f.rem.toNat := by
  cases hp : f.phase <;> simp only [Framer.left, hp] <;> omega

theorem Framer.left_pos (f : Framer) : 0 < f.left := by
  cases hp : f.phase <;> simp only [Framer.left, hp] <;> omega

/-- Wherever the framer goes on, it goes on soundly. -/
theorem framerNext_sound {f g : Framer} {r : Byte} (h : framerNext f r = .inl g) : g.sound := by
  have chk : ∀ v : Half, (if v = 0 then Phase.chkLo else Phase.payload) = .payload → v ≠ 0#16 := by
    intro v hv h0
    subst h0
    cases hv
  cases hp : f.phase <;> simp only [framerNext, hp, Sum.inl.injEq, reduceCtorEq] at h <;> subst h <;>
    first
      | exact chk _
      | (intro h; cases h)

/-- One exchange less is left after each. -/
theorem framerNext_left {f g : Framer} {r : Byte} (hs : f.sound) (h : framerNext f r = .inl g) :
    g.left + 1 = f.left := by
  cases hp : f.phase <;> simp only [framerNext, hp, Sum.inl.injEq, reduceCtorEq] at h <;> subst h <;>
    simp only [Framer.left, hp]
  case payload =>
    have h0 : f.rem ≠ 0#16 := hs hp
    have hlt := f.rem.isLt
    have hpos : 0 < f.rem.toNat := by
      rcases Nat.eq_zero_or_pos f.rem.toNat with h | h
      · exact absurd (BitVec.eq_of_toNat_eq (by simpa using h)) h0
      · exact h
    have hrem : (f.rem - 1).toNat = f.rem.toNat - 1 := by rw [BitVec.toNat_sub]; simp; omega
    by_cases h1 : f.rem - 1 = 0
    · have : f.rem.toNat - 1 = 0 := by rw [← hrem, h1]; rfl
      rw [if_pos h1]; simp only; omega
    · rw [if_neg h1]; simp only [hrem]; omega
  case lenHi =>
    by_cases h1 : f.rem = 0
    · rw [if_pos h1, h1]; rfl
    · rw [if_neg h1]; simp only; omega
  all_goals omega

/-- The packet is complete exactly after its last exchange. -/
theorem framerNext_done {f : Framer} {r : Byte} {w : Half} (h : framerNext f r = .inr w) :
    f.left = 1 := by
  cases hp : f.phase <;> simp only [framerNext, hp, reduceCtorEq] at h
  simp only [Framer.left, hp]

/-- Reading the payload byte changes neither the phase nor the count. -/
theorem framerFetch_left {f f1 : Framer} {s s1 : State} {b : Byte}
    (h : framerFetch f s = .ok (b, f1, s1)) : f1.left = f.left ∧ (f.sound → f1.sound) := by
  rcases framerFetch_cases h with ⟨-, rfl, -⟩ | ⟨-, rfl, -⟩
  · exact ⟨rfl, id⟩
  · exact ⟨rfl, id⟩

/-- Any number of rounds that is enough gives the same run (R160). -/
theorem framerRun_enough (n : Nat) (f : Framer) (s : State) (hs : f.sound) (hn : f.left ≤ n) :
    framerRun n f s = framerRun f.left f s := by
  induction n generalizing f s with
  | zero => have := f.left_pos; omega
  | succ n ih =>
    obtain ⟨m, hm⟩ := Nat.exists_eq_succ_of_ne_zero (Nat.pos_iff_ne_zero.mp f.left_pos)
    rw [hm, Nat.succ_eq_add_one, framerRun, framerRun]
    cases hf : framerFetch f s with
    | error e => rfl
    | ok v =>
      obtain ⟨b, f1, s1⟩ := v
      obtain ⟨hl, h1⟩ := framerFetch_left hf
      dsimp only
      cases he : exchange b s1 with
      | mk r s2 =>
        cases r with
        | none => rfl
        | some r =>
          dsimp only
          cases hx : framerNext f1 r with
          | inr w => rfl
          | inl g =>
            have hg := framerNext_left (h1 hs) hx
            have hgs := framerNext_sound hx
            dsimp only
            rw [ih g s2 hgs (by omega)]
            rw [show m = g.left by omega]

/-- The run of a framer that goes through ends in one of two ways: the packet is complete and a status handed back, no
transient left behind; or, in `LOOPBACK`, the stream ran out and framer and exchange wait (R161, R266). -/
theorem framerRun_ends (n : Nat) (f : Framer) (s t : State) (hs : f.sound) (hn : f.left ≤ n)
    (hx : s.xchg = none) (hf : s.framer = none) (h : framerRun n f s = .ok t) :
    (t.framer = none ∧ t.xchg = none ∧ ∃ w, t.result = some (.status w)) ∨
      (s.cfg.mode = .loopback ∧ t.framer.isSome = true ∧ t.xchg.isSome = true ∧
        t.streamIn = [] ∧ t.result = s.result) := by
  induction n generalizing f s with
  | zero => have := f.left_pos; omega
  | succ n ih =>
    rw [framerRun] at h
    cases hft : framerFetch f s with
    | error e => rw [hft] at h; cases h
    | ok v =>
      obtain ⟨b, f1, s1⟩ := v
      obtain ⟨hl, h1⟩ := framerFetch_left hft
      have hs1 : s1.xchg = none ∧ s1.framer = none ∧ s1.cfg = s.cfg ∧ s1.result = s.result := by
        rcases framerFetch_cases hft with ⟨-, -, rfl⟩ | ⟨-, -, hr⟩
        · exact ⟨hx, hf, rfl, rfl⟩
        · obtain ⟨-, -, hu⟩ := rbRead_ok hr
          rw [hu]
          exact ⟨hx, hf, rfl, rfl⟩
      obtain ⟨hx1, hf1, hc1, hr1⟩ := hs1
      rw [hft] at h
      dsimp only at h
      cases hm : s1.cfg.mode with
      | link =>
        rw [exchange_link b s1 hm] at h
        dsimp only at h
        cases hnx : framerNext f1 s1.nextReply with
        | inr w =>
          rw [hnx] at h
          cases h
          exact .inl ⟨hf1, hx1, w, rfl⟩
        | inl g =>
          rw [hnx] at h
          have hg := framerNext_left (h1 hs) hnx
          rcases ih g (s1.linked b) (framerNext_sound hnx) (by omega) hx1 hf1 h with h2 | h2
          · exact .inl h2
          · have h3 : s1.cfg.mode = .loopback := h2.1
            rw [hm] at h3
            cases h3
      | loopback =>
        cases hst : s1.streamIn with
        | nil =>
          rw [exchange_waits b s1 hm hst] at h
          cases h
          exact .inr ⟨hc1 ▸ hm, rfl, rfl, hst, hr1⟩
        | cons r rest =>
          rw [exchange_loopback b r rest s1 hm hst] at h
          dsimp only at h
          cases hnx : framerNext f1 r with
          | inr w =>
            rw [hnx] at h
            cases h
            exact .inl ⟨hf1, hx1, w, rfl⟩
          | inl g =>
            rw [hnx] at h
            have hg := framerNext_left (h1 hs) hnx
            rcases ih g (s1.looped b r rest) (framerNext_sound hnx) (by omega) hx1 hf1 h with h2 | h2
            · exact .inl h2
            · exact .inr ⟨hc1 ▸ hm, h2.2.1, h2.2.2.1, h2.2.2.2.1, h2.2.2.2.2.trans hr1⟩

/-- The same of a whole packet: it completes, or it waits for the stream. -/
theorem sendPacket_ends {cmd : Byte} {len : Half} {s t : State} (hx : s.xchg = none)
    (hf : s.framer = none) (h : sendPacket cmd len s = .ok t) :
    (t.framer = none ∧ t.xchg = none ∧ ∃ w, t.result = some (.status w)) ∨
      (s.cfg.mode = .loopback ∧ t.framer.isSome = true ∧ t.xchg.isSome = true ∧
        t.streamIn = [] ∧ t.result = s.result) :=
  framerRun_ends _ _ s t (Framer.start_sound cmd len) (Framer.left_le _) hx hf h

end Sys2Proof.Machine
end

