-- ==== Sys2Proof/Laws/Meaning.lean ====
section
/-! SUPPORT. What the meanings are over the shared operations, and what a step can be. -/

namespace Sys2Proof.Machine

/-- Every instruction that carries a packet sends it (R151, R164, R180). -/
theorem exec_packet {i : Instr} {cmd : Byte} {len : Half} (h : packetOf i = some (cmd, len))
    (s : State) : exec i s = answer (sendPacket cmd len s.issue) := by
  cases i <;> simp only [packetOf, Option.some.injEq, Prod.mk.injEq, reduceCtorEq] at h <;>
    obtain ⟨rfl, rfl⟩ := h <;> rfl

/-- An answer is a next state exactly when the operation went through. -/
theorem answer_next {r : Except Fault State} {t : State} : answer r = .next t ↔ r = .ok t := by
  cases r <;> simp [answer]

/-- The five shapes of a meaning that answers a next state. -/
theorem exec_cases {i : Instr} {s t : State} (h : exec i s = .next t) :
    (∃ b, i = .rbwr b ∧ rbWrite b s.issue = .ok t) ∨
    (∃ v u, i = .rbrd ∧ rbRead none s.issue = .ok (v, u) ∧ t = u.handBack (.byte v)) ∨
    (i = .rbrst ∧ t = rbReset s.issue) ∨
    (∃ b r u, i = .xchg b ∧ exchange b s.issue = (some r, u) ∧ t = u.handBack (.byte r)) ∨
    (∃ b, i = .xchg b ∧ exchange b s.issue = (none, t)) ∨
    (∃ cmd len, packetOf i = some (cmd, len) ∧ sendPacket cmd len s.issue = .ok t) := by
  have packet : ∀ cmd len, packetOf i = some (cmd, len) →
      ∃ cmd len, packetOf i = some (cmd, len) ∧ sendPacket cmd len s.issue = .ok t :=
    fun cmd len hp => ⟨cmd, len, hp, answer_next.mp (exec_packet hp s ▸ h)⟩
  cases i with
  | rbwr b => exact .inl ⟨b, rfl, answer_next.mp h⟩
  | rbrd =>
    simp only [exec, execRbrd] at h
    split at h
    · next v u hr => cases h; exact .inr (.inl ⟨v, u, rfl, hr, rfl⟩)
    · cases h
  | rbrst => cases h; exact .inr (.inr (.inl ⟨rfl, rfl⟩))
  | xchg b =>
    simp only [exec, execXchg] at h
    split at h
    · next r u he => cases h; exact .inr (.inr (.inr (.inl ⟨b, r, u, rfl, he, rfl⟩)))
    · next u he => cases h; exact .inr (.inr (.inr (.inr (.inl ⟨b, rfl, he⟩))))
  | sendpkt cmd len => exact .inr (.inr (.inr (.inr (.inr (packet cmd len rfl)))))
  | wireInitialize len => exact .inr (.inr (.inr (.inr (.inr (packet _ len rfl)))))
  | wirePrint len => exact .inr (.inr (.inr (.inr (.inr (packet _ len rfl)))))
  | wireTransfer len => exact .inr (.inr (.inr (.inr (.inr (packet _ len rfl)))))
  | wireReport len => exact .inr (.inr (.inr (.inr (.inr (packet _ len rfl)))))

/-- The three ways a step answers a next state: the operation in progress goes on, the controller moves, or the
instruction presented first runs (R11, R293). -/
theorem step_cases {s t : State} (h : step s = .next t) :
    (s.busy = true ∧ resume s = .ok t) ∨
    (s.busy = false ∧ s.pending = [] ∧ t = controllerMove s) ∨
    (s.busy = false ∧ ∃ bytes rest i, s.pending = bytes :: rest ∧ decode bytes = .ok i ∧
      exec i { s with pending := rest } = .next t) := by
  unfold step fetch at h
  cases hb : s.busy with
  | true =>
    simp only [hb, if_true] at h
    exact .inl ⟨rfl, answer_next.mp h⟩
  | false =>
    refine .inr ?_
    cases hp : s.pending with
    | nil => simp [hb, hp] at h; exact .inl ⟨rfl, rfl, h.symm⟩
    | cons bytes rest =>
      cases hd : decode bytes with
      | ok i => simp [hb, hp, hd] at h; exact .inr ⟨rfl, bytes, rest, i, rfl, hd, h⟩
      | error r => simp [hb, hp, hd] at h

end Sys2Proof.Machine
end

