-- ==== Sys2Proof/Laws/PerInstr.lean ====
section
/-! SUPPORT. The statements about every instruction, made per instruction. -/

namespace Sys2Proof.Laws

/-- An operation is presented as the four bytes of its command word (R83); a wire command as the six bytes of its
header (R91). -/
def EncodedLength.Statement (i : Instr) : Prop :=
  (encode i).length = 4 ∨
    ((encode i).length = 6 ∧ (encode i).take 2 = [Wire.magic0, Wire.magic1])

theorem EncodedLength.rbwr (b : Byte) : EncodedLength.Statement (.rbwr b) := .inl rfl
theorem EncodedLength.rbrd : EncodedLength.Statement .rbrd := .inl rfl
theorem EncodedLength.rbrst : EncodedLength.Statement .rbrst := .inl rfl
theorem EncodedLength.xchg (b : Byte) : EncodedLength.Statement (.xchg b) := .inl rfl
theorem EncodedLength.sendpkt (cmd : Byte) (len : Half) :
    EncodedLength.Statement (.sendpkt cmd len) := .inl rfl
theorem EncodedLength.wireInitialize (len : Half) :
    EncodedLength.Statement (.wireInitialize len) := .inr ⟨rfl, rfl⟩
theorem EncodedLength.wirePrint (len : Half) :
    EncodedLength.Statement (.wirePrint len) := .inr ⟨rfl, rfl⟩
theorem EncodedLength.wireTransfer (len : Half) :
    EncodedLength.Statement (.wireTransfer len) := .inr ⟨rfl, rfl⟩
theorem EncodedLength.wireReport (len : Half) :
    EncodedLength.Statement (.wireReport len) := .inr ⟨rfl, rfl⟩

end Sys2Proof.Laws
end

