-- ==== Sys2Proof/Laws/Run.lean ====
section
/-! SUPPORT. What a run, a good run and a session are, and what the peer answers. -/

namespace Sys2Proof.Machine

/-! ## Runs (R296) -/

@[simp] theorem runSteps_zero (s : State) : runSteps 0 s = some s := rfl

/-- A step that answers a next state is the first of a run. -/
theorem runSteps_next {s t : State} (h : step s = .next t) (n : Nat) :
    runSteps (n + 1) s = runSteps n t := by simp [runSteps, h]

/-- The first step of a run that ends. -/
theorem runSteps_succ {n : Nat} {s t : State} (h : runSteps (n + 1) s = some t) :
    ∃ u, step s = .next u ∧ runSteps n u = some t := by
  cases hs : step s with
  | next u => exact ⟨u, rfl, by simpa [runSteps, hs] using h⟩
  | fault f => simp [runSteps, hs] at h
  | refused r => simp [runSteps, hs] at h

/-- A run of `m + n` steps is one of `m` and then one of `n`. -/
theorem runSteps_add (m n : Nat) (s : State) :
    runSteps (m + n) s = (runSteps m s).bind (runSteps n) := by
  induction m generalizing s with
  | zero => simp
  | succ m ih =>
    rw [show m + 1 + n = (m + n) + 1 by omega]
    cases hs : step s with
    | next u => simp [runSteps, hs, ih]
    | fault f => simp [runSteps, hs]
    | refused r => simp [runSteps, hs]

/-- A good state: no operation in progress, no fault. -/
theorem State.good_iff (s : State) : s.good = true ↔ s.busy = false ∧ s.fault = none := by
  simp [State.good, State.ended]

/-- A good run: it ends, its last operation has returned, and no fault is recorded. -/
theorem goodRun_iff (n : Nat) (s : State) :
    goodRun n s = true ↔ ∃ t, runSteps n s = some t ∧ t.busy = false ∧ t.fault = none := by
  cases h : runSteps n s <;> simp [goodRun, h, State.good_iff]

/-! ## Sessions (R296) -/

/-- Where a session ends: after some steps a `Print` invocation is closed, and that step leaves HostSession about to
invoke `Idle`. -/
theorem sessionRest_some {n : Nat} {s t : State} (h : sessionRest n s = some t) :
    ∃ m u, m < n ∧ runSteps m s = some u ∧ u.ctl.point = .batchDone ∧ step u = .next t ∧
      t.atIdle = true := by
  induction n generalizing s with
  | zero => cases h
  | succ n ih =>
    unfold sessionRest at h
    split at h
    · next v hv =>
      split at h
      · next hidle =>
        split at h
        · next hp =>
          cases h
          exact ⟨0, s, by omega, rfl, by simpa using hp, hv, hidle⟩
        · cases h
      · obtain ⟨m, u, hm, hu, rest⟩ := ih h
        exact ⟨m + 1, u, by omega, by rw [runSteps_next hv]; exact hu, rest⟩
    · cases h
    · cases h

/-- What a session is: it begins where `Idle` is about to be invoked and ends as `sessionRest_some` says. -/
theorem session_some {n : Nat} {s t : State} (h : session n s = some t) :
    s.atIdle = true ∧
      ∃ m u, m < n ∧ runSteps m s = some u ∧ u.ctl.point = .batchDone ∧ step u = .next t ∧
        t.atIdle = true := by
  unfold session at h
  split at h
  · next hs => exact ⟨hs, sessionRest_some h⟩
  · cases h

/-! ## What the peer answers (R136, R156) -/

/-- The 48 events of an exchange, as the bits of its byte and of its reply give them (R131). -/
theorem exchangeEvents_eq (micros : Nat) (b r : Byte) :
    exchangeEvents micros b r = linkEvents micros b 8 (bitLevels r) := by
  simp [exchangeEvents, linkEvents, bitLevels]

/-- The byte to come is the reply of an exchange that begins here. -/
theorem State.comingByte_eq (s : State) : s.comingByte = s.nextReply :=
  (replyAfter_eight s.sinLevel (State.advanced 1 s).sinLevel (State.advanced 2 s).sinLevel
    (State.advanced 3 s).sinLevel (State.advanced 4 s).sinLevel (State.advanced 5 s).sinLevel
    (State.advanced 6 s).sinLevel (State.advanced 7 s).sinLevel).symm

@[simp] theorem State.comingStatuses_nil (s : State) : State.comingStatuses [] s = [] := rfl

@[simp] theorem State.comingStatuses_cons (len : Nat) (lens : List Nat) (s : State) :
    State.comingStatuses (len :: lens) s =
      s.comingStatus len :: State.comingStatuses lens (State.advanced (8 * (10 + len)) s) := rfl

@[simp] theorem State.comingStatuses_length (lens : List Nat) (s : State) :
    (State.comingStatuses lens s).length = lens.length := by
  induction lens generalizing s with
  | nil => rfl
  | cons len lens ih => simp [ih]

@[simp] theorem State.advanced_boot (n : Nat) (s : State) : (State.advanced n s).boot = s.boot := by
  rw [State.advanced_eq]

/-- The byte to come after `n` levels depends only on the peer's list of levels, the power-on and the draw
counter. -/
theorem State.comingByte_congr (n : Nat) {s t : State} (h1 : s.sinIn = t.sinIn)
    (h2 : s.boot = t.boot) (h3 : s.draws = t.draws) :
    (State.advanced n s).comingByte = (State.advanced n t).comingByte := by
  obtain ⟨-, a, d⟩ := State.upcoming_congr n s t h1 h2 h3
  rw [State.comingByte_eq, State.comingByte_eq, State.nextReply, State.nextReply,
    (State.upcoming_congr 8 _ _ a (by simp [h2]) d).1]

/-- The same of the status words. -/
theorem State.comingStatuses_congr (lens : List Nat) {s t : State} (h1 : s.sinIn = t.sinIn)
    (h2 : s.boot = t.boot) (h3 : s.draws = t.draws) :
    State.comingStatuses lens s = State.comingStatuses lens t := by
  induction lens generalizing s t with
  | nil => rfl
  | cons len lens ih =>
    obtain ⟨-, a, d⟩ := State.upcoming_congr (8 * (10 + len)) s t h1 h2 h3
    simp only [State.comingStatuses_cons, State.comingStatus, State.comingByte_congr _ h1 h2 h3,
      ih a (by simp [h2]) d]

/-- After `n` exchanges in `LINK` the reply to come is the byte the peer's levels make after `8 n` of them. -/
theorem State.nextReply_linkAll (bs : List Byte) (s : State) :
    (State.linkAll bs s).nextReply = (State.advanced (8 * bs.length) s).comingByte := by
  obtain ⟨h, -⟩ := State.upcoming_congr 8 (State.linkAll bs s) (State.advanced (8 * bs.length) s)
    (by rw [State.linkAll_eq]) (by rw [State.linkAll_eq]; simp) (by rw [State.linkAll_eq])
  rw [State.comingByte_eq, State.nextReply, State.nextReply, h]

/-- The status words to come after several exchanges in `LINK`. -/
theorem State.comingStatuses_linkAll (lens : List Nat) (bs : List Byte) (s : State) :
    State.comingStatuses lens (State.linkAll bs s) =
      State.comingStatuses lens (State.advanced (8 * bs.length) s) :=
  State.comingStatuses_congr lens (by rw [State.linkAll_eq]) (by rw [State.linkAll_eq]; simp)
    (by rw [State.linkAll_eq])

/-- A packet whose payload is in the FIFO hands back, in `LINK`, the status word the peer answers, and moves the FIFO
as R163 says (R151, R156). -/
theorem sendPacket_link_status (cmd : Byte) (len : Half) (s : State) (hm : s.cfg.mode = .link)
    (hh : s.head < s.cfg.capacity) (hf : s.fault = none) (hq : len.toNat ≤ s.fill) :
    sendPacket cmd len s =
      .ok (((State.linkAll (packetBytes cmd len (s.queue.take len.toNat)) s).moved
          ((s.head + len.toNat) % s.cfg.capacity) (s.fill - len.toNat)).handBack
        (.status (s.comingStatus len.toNat))) := by
  have hlen : (packetBytes cmd len (s.queue.take len.toNat)).length = 10 + len.toNat := by
    simp [packetBytes, headerBytes, Nat.min_eq_left hq]; omega
  rw [sendPacket_link cmd len s hm hh hf hq]
  simp only [State.nextReply_linkAll, List.length_take, hlen, State.comingStatus]
  rw [Nat.min_eq_left (by omega), Nat.min_eq_left (by omega)]

/-- A packet without a payload does so whatever the FIFO holds (R158). -/
theorem sendPacket_link_empty (cmd : Byte) (s : State) (hm : s.cfg.mode = .link) :
    sendPacket cmd 0 s =
      .ok ((State.linkAll (packetBytes cmd 0 []) s).handBack (.status (s.comingStatus 0))) := by
  have hn : 10 + (Framer.start cmd 0).rem.toNat = 0 + 4 + 6 := rfl
  rw [sendPacket, framerGo, hn, framerRun_header _ _ _ _ hm,
    framerRun_trailer _ _ _ (by simpa using hm) rfl]
  simp only [← State.linkAll_append, State.nextReply_linkAll, State.comingStatus]
  rfl

/-- The pin events of several exchanges are the 48-event groups of R131 one after another (R134, R152). -/
theorem sendEvents_groups (micros : Nat) (bs : List Byte) (ls : List Level)
    (h : ls.length = 8 * bs.length) :
    sendEvents micros bs ls =
      (bs.zip (packBytes ls)).flatMap (fun p => exchangeEvents micros p.1 p.2) := by
  induction bs generalizing ls with
  | nil => rfl
  | cons b bs ih =>
    obtain ⟨l7, l6, l5, l4, l3, l2, l1, l0, h8⟩ := eight_levels (ls := ls.take 8) (by simp at h ⊢; omega)
    have hd : (ls.drop 8).length = 8 * bs.length := by simp at h ⊢; omega
    have hb : ∀ k7 k6 k5 k4 k3 k2 k1 k0 : Bool,
        bitLevels (packByte k7 k6 k5 k4 k3 k2 k1 k0) = [k7, k6, k5, k4, k3, k2, k1, k0] := by
      decide +kernel
    rw [sendEvents, ih _ hd, h8, ← List.take_append_drop 8 ls, h8]
    simp [packBytes, exchangeEvents_eq, hb]

/-- Levels the peer lists are consumed one by one. -/
theorem State.advanced_listed (levels rest : List Level) (s : State)
    (h : s.sinIn = levels ++ rest) :
    State.advanced levels.length s = { s with sinIn := rest } := by
  induction levels generalizing s with
  | nil => cases s; cases h; rfl
  | cons l levels ih =>
    simp only [List.length_cons, State.advanced]
    rw [ih _ (by simp [State.sinAdvance, h])]
    simp [State.sinAdvance, h]

/-- A byte whose bits the peer lists is the byte to come. -/
theorem State.comingByte_listed (b : Byte) (rest : List Level) (s : State)
    (h : s.sinIn = bitLevels b ++ rest) : s.comingByte = b := by
  have hb : ∀ c : Byte, replyAfter 8 0 (bitLevels c) = c := by decide +kernel
  have hu : State.upcoming (bitLevels b).length s = bitLevels b := State.upcoming_listed _ rest s h
  rw [State.comingByte_eq, State.nextReply, show State.upcoming 8 s = bitLevels b from hu, hb]

/-- The levels of a peer that answers packets of given lengths with given status words. -/
def answerLevels : List (Nat × Half) → List Level
  | [] => []
  | (len, w) :: rest =>
    List.replicate (8 * (8 + len)) false ++ bitLevels (high w) ++ bitLevels (low w) ++
      answerLevels rest

/-- Every sequence of status words is the answer of some peer (R136). -/
theorem State.comingStatuses_answerLevels (packets : List (Nat × Half)) (rest : List Level)
    (s : State) (h : s.sinIn = answerLevels packets ++ rest) :
    State.comingStatuses (packets.map Prod.fst) s = packets.map Prod.snd := by
  have hj : ∀ w : Half, join (high w) (low w) = w := fun w =>
    BitVec.extractLsb'_append_extractLsb'_eq_extractLsb' (by rfl) |>.trans (by simp)
  induction packets generalizing s with
  | nil => rfl
  | cons p packets ih =>
    obtain ⟨len, w⟩ := p
    simp only [answerLevels, List.append_assoc] at h
    have a8 := State.advanced_listed (List.replicate (8 * (8 + len)) false) _ s h
    have a9 := State.advanced_listed (List.replicate (8 * (8 + len)) false ++ bitLevels (high w)) _ s
      (by simpa only [List.append_assoc] using h)
    have a10 := State.advanced_listed
      (List.replicate (8 * (8 + len)) false ++ bitLevels (high w) ++ bitLevels (low w)) _ s
      (by simpa only [List.append_assoc] using h)
    have n9 : (List.replicate (8 * (8 + len)) false ++ bitLevels (high w)).length =
        8 * (9 + len) := by simp [bitLevels]; omega
    have n10 : (List.replicate (8 * (8 + len)) false ++ bitLevels (high w) ++
        bitLevels (low w)).length = 8 * (10 + len) := by simp [bitLevels]; omega
    rw [List.length_replicate] at a8
    rw [n9] at a9
    rw [n10] at a10
    simp only [List.map_cons, State.comingStatuses_cons, State.comingStatus, a8, a9, a10]
    rw [State.comingByte_listed (high w) _ _ rfl, State.comingByte_listed (low w) _ _ rfl, hj,
      ih _ rfl]

/-- The data packets of a batch carry its bytes, none more than `MAX_PAYLOAD` of them (R205, R216). -/
theorem dataPackets_sum (maxPayload batchLen : Nat) :
    (dataPackets maxPayload batchLen).sum = batchLen := by
  unfold dataPackets
  have h := Nat.div_add_mod batchLen maxPayload
  rw [Nat.mul_comm] at h
  split
  · next h0 => simp [h0]
  · split <;> simp <;> omega

end Sys2Proof.Machine
end

