-- ==== Sys2Proof/Laws/Stream.lean ====
section
/-! SUPPORT. One packet in `LOOPBACK`: everything it does while the stream has bytes. -/

namespace Sys2Proof.Machine

/-- The events of several bytes exchanged over the stream, each with its reply (R138). -/
def streamEvents : List Byte → List Byte → List Event
  | b :: bs, r :: rs => .streamWrite b :: .streamRead r :: streamEvents bs rs
  | _, _ => []

/-- What several exchanges over the stream leave (R138). -/
def State.loopAll (out ins rest : List Byte) (s : State) : State :=
  { s with streamIn := rest, trace := s.trace ++ streamEvents out ins }

/-- The views of those events: the bytes out, the bytes in, two events each (R134, R138). -/
theorem streamEvents_views (out ins : List Byte) (h : out.length = ins.length) :
    (streamEvents out ins).length = 2 * out.length ∧ streamOuts (streamEvents out ins) = out ∧
      streamIns (streamEvents out ins) = ins := by
  induction out generalizing ins with
  | nil =>
    obtain rfl : ins = [] := by simpa using h.symm
    exact ⟨rfl, rfl, rfl⟩
  | cons b bs ih =>
    cases ins with
    | nil => simp at h
    | cons r rs =>
      obtain ⟨h1, h2, h3⟩ := ih rs (by simpa using h)
      refine ⟨?_, ?_, ?_⟩
      · simp only [streamEvents, List.length_cons, h1]; omega
      · simpa [streamEvents, streamOuts] using h2
      · simpa [streamEvents, streamIns] using h3

theorem streamEvents_append (out ins out' ins' : List Byte) (h : out.length = ins.length) :
    streamEvents (out ++ out') (ins ++ ins') = streamEvents out ins ++ streamEvents out' ins' := by
  induction out generalizing ins with
  | nil =>
    obtain rfl : ins = [] := by simpa using h.symm
    rfl
  | cons b bs ih =>
    cases ins with
    | nil => simp at h
    | cons r rs => simp [streamEvents, ih rs (by simpa using h)]

theorem State.loopAll_loopAll (out ins out' ins' rest rest' : List Byte) (s : State)
    (h : out.length = ins.length) :
    State.loopAll out' ins' rest' (State.loopAll out ins rest s) =
      State.loopAll (out ++ out') (ins ++ ins') rest' s := by
  simp [State.loopAll, streamEvents_append _ _ _ _ h]

/-- One round of the framer in `LOOPBACK` with a byte available. -/
theorem framerRun_loopback (n : Nat) {f f1 : Framer} {s s1 : State} {b r : Byte}
    {rest : List Byte} (hf : framerFetch f s = .ok (b, f1, s1)) (hm : s1.cfg.mode = .loopback)
    (hs : s1.streamIn = r :: rest) :
    framerRun (n + 1) f s =
      match framerNext f1 r with
      | .inl f2 => framerRun n f2 (s1.looped b r rest)
      | .inr w => .ok ((s1.looped b r rest).handBack (.status w)) := by
  have he := exchange_loopback b r rest s1 hm hs
  cases hn : framerNext f1 r <;> simp only [framerRun, hf, he, hn]

/-- One round of the framer in `LOOPBACK` with no byte available: it waits (R138, R266). -/
theorem framerRun_waits (n : Nat) {f f1 : Framer} {s s1 : State} {b : Byte}
    (hf : framerFetch f s = .ok (b, f1, s1)) (hm : s1.cfg.mode = .loopback)
    (hs : s1.streamIn = []) :
    framerRun (n + 1) f s =
      .ok { s1 with
        trace := s1.trace ++ [.streamWrite b]
        xchg := some { out := b, reply := 0, bit := 7 }
        framer := some f1 } := by
  rw [framerRun, hf]
  dsimp only
  rw [exchange_waits b s1 hm hs]

/-- The six exchanges of the header (R87, R151). -/
theorem framerRun_header_stream (n : Nat) (cmd : Byte) (len : Half) (s : State)
    (r0 r1 r2 r3 r4 r5 : Byte) (rest : List Byte) (hm : s.cfg.mode = .loopback)
    (hs : s.streamIn = r0 :: r1 :: r2 :: r3 :: r4 :: r5 :: rest) :
    framerRun (n + 6) (Framer.start cmd len) s =
      framerRun n { Framer.start cmd len with phase := afterHeader len }
        (State.loopAll (headerBytes cmd len) [r0, r1, r2, r3, r4, r5] rest s) := by
  rw [framerRun_loopback (b := Wire.magic0) (s1 := s) (n + 5) rfl hm hs]
  simp only [framerNext, Framer.start]
  rw [framerRun_loopback (b := Wire.magic1) (s1 := s.looped _ _ _) (n + 4) rfl hm rfl]
  simp only [framerNext]
  rw [framerRun_loopback (b := cmd) (s1 := (s.looped _ _ _).looped _ _ _) (n + 3) rfl hm rfl]
  simp only [framerNext]
  rw [framerRun_loopback (b := Wire.comp) (s1 := ((s.looped _ _ _).looped _ _ _).looped _ _ _)
    (n + 2) rfl hm rfl]
  simp only [framerNext]
  rw [framerRun_loopback (b := low len)
    (s1 := (((s.looped _ _ _).looped _ _ _).looped _ _ _).looped _ _ _) (n + 1) rfl hm rfl]
  simp only [framerNext]
  rw [framerRun_loopback (b := high len)
    (s1 := ((((s.looped _ _ _).looped _ _ _).looped _ _ _).looped _ _ _).looped _ _ _) n rfl hm rfl]
  simp [framerNext, State.loopAll, State.looped, streamEvents, headerBytes, afterHeader]

/-- The four exchanges after the payload (R155, R156). -/
theorem framerRun_trailer_stream (n : Nat) (f : Framer) (s : State) (r0 r1 r2 r3 : Byte)
    (rest : List Byte) (hm : s.cfg.mode = .loopback)
    (hs : s.streamIn = r0 :: r1 :: r2 :: r3 :: rest) (hp : f.phase = .chkLo) :
    framerRun (n + 4) f s =
      .ok ((State.loopAll [low f.csum, high f.csum, Wire.statusOut, Wire.statusOut]
        [r0, r1, r2, r3] rest s).handBack (.status (join r2 r3))) := by
  obtain ⟨cmd, len, csum, rem, phase, statHi⟩ := f
  obtain rfl : phase = .chkLo := hp
  rw [framerRun_loopback (b := low csum) (s1 := s) (n + 3) rfl hm hs]
  simp only [framerNext]
  rw [framerRun_loopback (b := high csum) (s1 := s.looped _ _ _) (n + 2) rfl hm rfl]
  simp only [framerNext]
  rw [framerRun_loopback (b := Wire.statusOut) (s1 := (s.looped _ _ _).looped _ _ _) (n + 1) rfl hm
    rfl]
  simp only [framerNext]
  rw [framerRun_loopback (b := Wire.statusOut)
    (s1 := ((s.looped _ _ _).looped _ _ _).looped _ _ _) n rfl hm rfl]
  simp [framerNext, State.loopAll, State.looped, streamEvents]

/-- The payload phases when the FIFO holds the payload (R154, R159, R163). -/
theorem framerRun_payload_stream (k n : Nat) (f : Framer) (s : State) (ins rest : List Byte)
    (hm : s.cfg.mode = .loopback) (hs : s.streamIn = ins ++ rest) (hk : ins.length = k)
    (hh : s.head < s.cfg.capacity) (hf : s.fault = none) (hq : k ≤ s.fill)
    (hr : f.rem.toNat = k) (hp : f.phase = afterHeader f.rem) :
    framerRun (n + k) f s =
      framerRun n
        { f with csum := (s.queue.take k).foldl addSum f.csum, rem := 0, phase := .chkLo }
        ((State.loopAll (s.queue.take k) ins rest s).moved ((s.head + k) % s.cfg.capacity)
          (s.fill - k)) := by
  induction k generalizing f s ins with
  | zero =>
    have h0 : f.rem = 0#16 := BitVec.eq_of_toNat_eq (by simpa using hr)
    obtain ⟨cmd, len, csum, rem, phase, statHi⟩ := f
    obtain rfl : rem = 0#16 := h0
    obtain rfl : phase = .chkLo := hp
    obtain rfl : ins = [] := by simpa using hk
    have hs' : s.streamIn = rest := by simpa using hs
    simp [State.loopAll, streamEvents, Nat.mod_eq_of_lt hh, State.moved, ← hs']
  | succ k ih =>
    obtain ⟨r, ins, rfl⟩ := List.exists_cons_of_length_eq_add_one hk
    have h0 : f.rem ≠ 0#16 := by intro h; rw [h] at hr; simp at hr
    have hfill : s.fill ≠ 0 := by omega
    have hphase : f.phase = .payload := by simp [hp, afterHeader, h0]
    have hrem : (f.rem - 1).toNat = k := by
      rw [BitVec.toNat_sub]
      have := f.rem.isLt
      simp
      omega
    have hfetch : framerFetch f s = .ok (s.cell s.head,
        { f with csum := addSum f.csum (s.cell s.head) },
        s.moved (nextCursor s.cfg.capacity s.head) (s.fill - 1)) := by
      simp only [framerFetch, hphase, rbRead_faultFree _ s hh hf hfill]
    have hnext := ih
      { f with
        csum := addSum f.csum (s.cell s.head), rem := f.rem - 1, phase := afterHeader (f.rem - 1) }
      ((s.moved (nextCursor s.cfg.capacity s.head) (s.fill - 1)).looped (s.cell s.head) r
        (ins ++ rest)) ins
      hm rfl (by simpa using hk) (nextCursor_lt _ _ (by omega)) hf
      (by change k ≤ s.fill - 1; omega) hrem rfl
    rw [show n + (k + 1) = n + k + 1 from rfl,
      framerRun_loopback (n + k) (r := r) (rest := ins ++ rest) hfetch hm hs]
    simp only [framerNext, hphase]
    rw [show (if f.rem - 1 = 0 then Phase.chkLo else Phase.payload) = afterHeader (f.rem - 1) from rfl,
      hnext, s.queue_cons hfill hh]
    have hq' : ((s.moved (nextCursor s.cfg.capacity s.head) (s.fill - 1)).looped (s.cell s.head) r
        (ins ++ rest)).queue =
        (s.moved (nextCursor s.cfg.capacity s.head) (s.fill - 1)).queue := rfl
    have h1 : (nextCursor s.cfg.capacity s.head + k) % s.cfg.capacity =
        (s.head + (k + 1)) % s.cfg.capacity := nextCursor_add _ _ _
    have h2 : s.fill - 1 - k = s.fill - (k + 1) := by omega
    rw [hq']
    simp only [List.take_succ_cons, List.foldl_cons, State.moved, State.looped, State.loopAll,
      streamEvents, h1, h2, List.append_assoc, List.cons_append, List.nil_append]

/-- Everything a packet whose payload is in the FIFO does in `LOOPBACK` with a byte for each exchange (R138, R140,
R151). -/
theorem sendPacket_loopback (cmd : Byte) (len : Half) (s : State)
    (r0 r1 r2 r3 r4 r5 c0 c1 hi lo : Byte) (ins rest : List Byte) (hm : s.cfg.mode = .loopback)
    (hs : s.streamIn =
      r0 :: r1 :: r2 :: r3 :: r4 :: r5 :: (ins ++ (c0 :: c1 :: hi :: lo :: rest)))
    (hk : ins.length = len.toNat) (hh : s.head < s.cfg.capacity) (hf : s.fault = none)
    (hq : len.toNat ≤ s.fill) :
    sendPacket cmd len s =
      .ok (((State.loopAll (packetBytes cmd len (s.queue.take len.toNat))
          ([r0, r1, r2, r3, r4, r5] ++ ins ++ [c0, c1, hi, lo]) rest s).moved
          ((s.head + len.toNat) % s.cfg.capacity) (s.fill - len.toNat)).handBack
        (.status (join hi lo))) := by
  have hlen : (s.queue.take len.toNat).length = len.toNat := by simp; omega
  have hn : 10 + (Framer.start cmd len).rem.toNat = 0 + 4 + len.toNat + 6 := by
    simp [Framer.start]; omega
  rw [sendPacket, framerGo, hn, framerRun_header_stream _ _ _ _ _ _ _ _ _ _ _ hm hs,
    framerRun_payload_stream len.toNat (0 + 4) _
      (State.loopAll (headerBytes cmd len) [r0, r1, r2, r3, r4, r5]
        (ins ++ (c0 :: c1 :: hi :: lo :: rest)) s)
      ins (c0 :: c1 :: hi :: lo :: rest) hm rfl hk hh hf hq rfl rfl,
    framerRun_trailer_stream _ _ _ c0 c1 hi lo rest
      (by simpa [State.moved, State.loopAll] using hm) rfl rfl]
  have e1 : streamEvents (packetBytes cmd len (s.queue.take len.toNat))
      ([r0, r1, r2, r3, r4, r5] ++ ins ++ [c0, c1, hi, lo]) =
      streamEvents (headerBytes cmd len) [r0, r1, r2, r3, r4, r5] ++
        streamEvents (s.queue.take len.toNat) ins ++
        streamEvents [low (checksum cmd len (s.queue.take len.toNat)),
          high (checksum cmd len (s.queue.take len.toNat)), Wire.statusOut, Wire.statusOut]
          [c0, c1, hi, lo] := by
    rw [packetBytes, streamEvents_append _ _ _ _ (by simp [headerBytes, hlen, hk]),
      streamEvents_append (headerBytes cmd len) [r0, r1, r2, r3, r4, r5] _ ins rfl]
  simp only [State.loopAll, State.moved, e1, ← List.append_assoc]
  rfl

/-- A packet without a payload does the same whatever the FIFO holds (R158). -/
theorem sendPacket_loopback_empty (cmd : Byte) (s : State)
    (r0 r1 r2 r3 r4 r5 c0 c1 hi lo : Byte) (rest : List Byte) (hm : s.cfg.mode = .loopback)
    (hs : s.streamIn = r0 :: r1 :: r2 :: r3 :: r4 :: r5 :: c0 :: c1 :: hi :: lo :: rest) :
    sendPacket cmd 0 s =
      .ok ((State.loopAll (packetBytes cmd 0 []) [r0, r1, r2, r3, r4, r5, c0, c1, hi, lo] rest
        s).handBack (.status (join hi lo))) := by
  have hn : 10 + (Framer.start cmd 0).rem.toNat = 0 + 4 + 6 := rfl
  rw [sendPacket, framerGo, hn, framerRun_header_stream _ _ _ _ _ _ _ _ _ _ _ hm hs,
    framerRun_trailer_stream 0 _
      (State.loopAll (headerBytes cmd 0) [r0, r1, r2, r3, r4, r5]
        (c0 :: c1 :: hi :: lo :: rest) s) c0 c1 hi lo rest hm rfl rfl]
  simp [State.loopAll, streamEvents, packetBytes, headerBytes, checksum, Framer.start]

end Sys2Proof.Machine
end

