-- ==== Sys2Proof/Tests/Slice0.lean ====
section
/-! SUPPORT. Tests: what `WellFormed` refuses, words written out from the encoding tables, the vectors of
spec/95_test_vectors.md, and for each statement with hypotheses a state that meets them. Every expected value is
the spec's. -/

namespace Sys2Proof.Tests

open Sys2Proof Sys2Proof.Machine

/-! ## Helpers -/

/-- The parameters of the vectors (section 2.5 of the vectors fixes the controller's). -/
def cfgOf (mode : Mode) (capacity : Nat) : Config :=
  { capacity := capacity, mode := mode, delayUs := 61, driver := .external, maxPayload := capacity
    readyEmpty := 0x8100, readyData := 0x8108, marginSet := 1, marginClear := 0
    pollDelay := 5, hostTimeout := 9 }

/-- A block after hardware reset, with its free values chosen. -/
def unit (mode : Mode) (capacity : Nat) : State :=
  { State.resetWith (cfgOf mode capacity) 0 with
    sout := false
    ctl := { Controller.reset 0 with status := 0 } }

/-- A block whose FIFO stands at given cursors, with given cells. -/
def fifoAt (mode : Mode) (capacity head tail fill : Nat) (mem : Memory) : State :=
  { unit mode capacity with head := head, tail := tail, fill := fill, mem := mem }

/-- The reference controller at a place of its invocations, the block idle. -/
def ctlAt (point : Point) (host : HostState) (printer : PrinterState) : State :=
  let u := unit .link 8
  { u with
    cfg := { u.cfg with driver := .reference }
    ctl := { u.ctl with point := point, hostState := host, printerState := printer } }

/-- A property of the next state, false where there is none. -/
def after (o : Host.Outcome State Fault Refusal) (p : State → Bool) : Bool :=
  match o with
  | .next t => p t
  | .fault _ => false
  | .refused _ => false

/-- What `after` says. -/
theorem after_next {o : Host.Outcome State Fault Refusal} {p : State → Bool}
    (h : after o p = true) : ∃ t, o = .next t ∧ p t = true := by
  cases o with
  | next t => exact ⟨t, rfl, h⟩
  | fault f => cases h
  | refused r => cases h

/-- The cursors and the fill. -/
def cursors (t : State) : Nat × Nat × Nat := (t.head, t.tail, t.fill)

/-! ## WellFormed refuses what has not the shape of its row (R181 to R184) -/

theorem test_wellFormed_initialize :
    Instr.wellFormed (cfgOf .link 640) (.wireInitialize 0) = true ∧
    Instr.wellFormed (cfgOf .link 640) (.wireInitialize 1) = false := by decide
theorem test_wellFormed_print :
    Instr.wellFormed (cfgOf .link 640) (.wirePrint 4) = true ∧
    Instr.wellFormed (cfgOf .link 640) (.wirePrint 5) = false := by decide
theorem test_wellFormed_transfer :
    Instr.wellFormed (cfgOf .link 640) (.wireTransfer 0) = true ∧
    Instr.wellFormed (cfgOf .link 640) (.wireTransfer 640) = true ∧
    Instr.wellFormed (cfgOf .link 640) (.wireTransfer 641) = false := by decide
theorem test_wellFormed_report :
    Instr.wellFormed (cfgOf .link 640) (.wireReport 0) = true ∧
    Instr.wellFormed (cfgOf .link 640) (.wireReport 4) = false := by decide

/-! ## Words written out from the tables (R83, R91, section 2.4 of the vectors) -/

/-- `0001 0000 bbbbbbbb 0000000000000000` with `b = 1111 0010`. -/
theorem test_decode_rbwr : decodeTableWord 32 0b00010000111100100000000000000000 =
    some (.rbwr 0xF2) := by decide
/-- `0010 0000 00000000 0000000000000000`. -/
theorem test_decode_rbrd : decodeTableWord 32 0b00100000000000000000000000000000 =
    some .rbrd := by decide
/-- `0011 0000 00000000 0000000000000000`. -/
theorem test_decode_rbrst : decodeTableWord 32 0b00110000000000000000000000000000 =
    some .rbrst := by decide
/-- `0100 0000 bbbbbbbb 0000000000000000` with `b = 1000 1010`. -/
theorem test_decode_xchg : decodeTableWord 32 0b01000000100010100000000000000000 =
    some (.xchg 0x8A) := by decide
/-- `0101 0000 cccccccc nnnnnnnnnnnnnnnn` with `cmd = 0000 0100`, `len = 0000 0010 1000 0001`. -/
theorem test_decode_sendpkt : decodeTableWord 32 0b01010000000001000000001010000001 =
    some (.sendpkt 0x04 641) := by decide
/-- The bytes `10001000 00110011 00000001 00000000 llllllll hhhhhhhh` with `len = 0x0102`. -/
theorem test_decode_initialize :
    decode [0b10001000, 0b00110011, 0b00000001, 0b00000000, 0b00000010, 0b00000001] =
      .ok (.wireInitialize 0x0102) := by decide
/-- The bytes `10001000 00110011 00000010 00000000 llllllll hhhhhhhh` with `len = 4`. -/
theorem test_decode_print :
    decode [0b10001000, 0b00110011, 0b00000010, 0b00000000, 0b00000100, 0b00000000] =
      .ok (.wirePrint 4) := by decide
/-- The bytes of the header of K12: `10001000 00110011 00000100 00000000 10000000 00000010`. -/
theorem test_decode_transfer :
    decode [0b10001000, 0b00110011, 0b00000100, 0b00000000, 0b10000000, 0b00000010] =
      .ok (.wireTransfer 640) := by decide
/-- The bytes `10001000 00110011 00001111 00000000 llllllll hhhhhhhh` with `len = 0`. -/
theorem test_decode_report :
    decode [0b10001000, 0b00110011, 0b00001111, 0b00000000, 0b00000000, 0b00000000] =
      .ok (.wireReport 0) := by decide

/-- The reserved words of section 2.4. -/
theorem test_decode_reserved :
    [0x00000000, 0x60000000, 0xFFFFFFFF, 0x11020000, 0x10020001, 0x20010000, 0x30000001,
      0x40880100, 0x51040004, 0x70000000].all
      (fun w => decide (decodeTableWord 32 w = none)) = true := by decide

/-- Another magic byte, another flag, an unlisted code, and a length that is no form: rejected by name. -/
theorem test_decode_rejects :
    decode [0x88, 0x34, 0x01, 0x00, 0x00, 0x00] =
      .error (.unlistedHeader [0x88, 0x34, 0x01, 0x00, 0x00, 0x00]) ∧
    decode [0x88, 0x33, 0x01, 0x01, 0x00, 0x00] =
      .error (.unlistedHeader [0x88, 0x33, 0x01, 0x01, 0x00, 0x00]) ∧
    decode [0x88, 0x33, 0x03, 0x00, 0x00, 0x00] =
      .error (.unlistedHeader [0x88, 0x33, 0x03, 0x00, 0x00, 0x00]) ∧
    decode [0x00, 0x10] = .error (.badLength [0x00, 0x10]) := by decide

/-- The examples of R83. -/
theorem test_encode_examples :
    encode (.rbwr 0x02) = bytesOfNat 4 0x10020000 ∧
    encode (.xchg 0x88) = bytesOfNat 4 0x40880000 ∧
    encode (.sendpkt 0x04 4) = bytesOfNat 4 0x50040004 := by decide

/-- R227: the capacity 640 on the host stream is `00 00 02 80`; and the size of R236. -/
theorem test_bigEndian :
    bigEndian32 (BitVec.ofNat 32 640) = [0x00, 0x00, 0x02, 0x80] ∧
    word32 [0x00, 0x01, 0x02, 0x03] = 0x00010203 := by decide

/-- The texts of R93. -/
theorem test_text :
    instrText (.rbwr 0x12) = "RBWR 0x12" ∧
    instrText (.sendpkt 0x01 0) = "SENDPKT 0x01, 0x0000" ∧
    replyText (some (.status 0x8100)) = " -> 0x8100" := by decide

/-! ## The FIFO operations (section 2.1) -/

/-- F3: the write cursor wraps. -/
theorem test_rbwr_wraps : after (exec (.rbwr 0x01) (fifoAt .link 640 637 639 2 []))
    (fun t => cursors t == (637, 0, 3) && t.mem.read 639 == some 0x01 && t.good) = true := by decide
/-- F4: the oldest unread byte is written over and the overrun recorded. -/
theorem test_rbwr_overrun : after (exec (.rbwr 0x77) (fifoAt .link 640 0 0 640 [(0, 0x02)]))
    (fun t => cursors t == (0, 1, 640) && t.mem.read 0 == some 0x77 &&
      t.fault == some { kind := .fifoOverrun, op := 1, payload := none }) = true := by decide
/-- F6: the read cursor wraps. -/
theorem test_rbrd_wraps : after (exec .rbrd (fifoAt .link 640 639 3 4 [(639, 0xC3)]))
    (fun t => cursors t == (0, 3, 3) && t.result == some (.byte 0xC3) && t.good) = true := by decide
/-- F8: an empty FIFO; the cursor moves on and the underrun is recorded. -/
theorem test_rbrd_underrun : after (exec .rbrd (fifoAt .link 640 5 5 0 [(5, 0x10)]))
    (fun t => cursors t == (6, 5, 0) &&
      t.fault == some { kind := .fifoUnderrun, op := 1, payload := none }) = true := by decide
/-- F10: the unread bytes are dropped, the cells keep their bytes. -/
theorem test_rbrst_drops : after (exec .rbrst (fifoAt .link 640 10 200 190 [(10, 0x44)]))
    (fun t => cursors t == (0, 0, 0) && t.mem.read 10 == some 0x44) = true := by decide
/-- F13: `C = 1`, a second write is an overrun. -/
theorem test_rbwr_capacity_one : after (exec (.rbwr 0x22) (fifoAt .link 1 0 0 1 [(0, 0x11)]))
    (fun t => cursors t == (0, 0, 1) && t.mem == [(0, 0x22)] && !t.good) = true := by decide

/-! ## The transceiver (section 2.2) -/

/-- X1: the reply, the lines, the levels driven, and how many events. -/
theorem test_xchg_link : after
    (exec (.xchg 0x88)
      { unit .link 640 with sinIn := [true, false, false, false, false, false, false, true] })
    (fun t => t.result == some (.byte 0x81) && t.sck && !t.sout && t.trace.length == 48 &&
      soutLevels t.trace == [true, false, false, false, true, false, false, false] &&
      t.byteTrace == [(0x88, 0x81)]) = true := by decide
/-- X8: the two stream events. -/
theorem test_xchg_loopback : after
    (exec (.xchg 0x88) { unit .loopback 640 with streamIn := [0x81] })
    (fun t => t.result == some (.byte 0x81) &&
      t.trace == [.streamWrite 0x88, .streamRead 0x81] && t.byteTrace == [(0x88, 0x81)]) = true := by
  decide

/-! ## Packets (section 2.3), over the stream, which carries the same bytes (R140) -/

/-- Replies: zeros, then a status. -/
def replies (n : Nat) (hi lo : Byte) : List Byte := List.replicate n 0x00 ++ [hi, lo]

/-- K5 with the status of P2. -/
theorem test_sendpkt_transfer : after
    (exec (.sendpkt 0x04 4)
      { fifoAt .loopback 640 0 4 4 [(0, 0x02), (1, 0x02), (2, 0x02), (3, 0x02)] with
        streamIn := replies 12 0x81 0x00 })
    (fun t => cursors t == (4, 4, 0) && t.good && t.result == some (.status 0x8100) &&
      streamOuts t.trace == [0x88, 0x33, 0x04, 0x00, 0x04, 0x00, 0x02, 0x02, 0x02, 0x02, 0x10, 0x00,
        0x00, 0x00]) = true := by decide
/-- K15: the underrun at payload index 2; the packet is completed. -/
theorem test_sendpkt_underrun : after
    (exec (.sendpkt 0x04 3)
      { fifoAt .loopback 4 0 2 2 [(0, 0xAA), (1, 0x55), (2, 0xEE), (3, 0xEE)] with
        streamIn := replies 11 0x12 0x34 })
    (fun t => t.head == 3 && t.tail == 2 && t.result == some (.status 0x1234) &&
      (streamOuts t.trace).take 8 == [0x88, 0x33, 0x04, 0x00, 0x03, 0x00, 0xAA, 0x55] &&
      t.fault == some { kind := .fifoUnderrun, op := 1, payload := some 2 }) = true := by decide
/-- K1: the empty INITIALIZE, S4. -/
theorem test_wireInitialize : after
    (exec (.wireInitialize 0) { unit .loopback 640 with streamIn := replies 8 0x81 0x08 })
    (fun t => t.result == some (.status 0x8108) &&
      streamOuts t.trace == [0x88, 0x33, 0x01, 0x00, 0x00, 0x00, 0x01, 0x00, 0x00, 0x00]) = true := by
  decide
/-- K8: the PRINT payload. -/
theorem test_wirePrint : after
    (exec (.wirePrint 4)
      { fifoAt .loopback 640 0 4 4 [(0, 0x01), (1, 0x00), (2, 0xFF), (3, 0xFF)] with
        streamIn := replies 12 0x81 0x08 })
    (fun t => streamOuts t.trace == [0x88, 0x33, 0x02, 0x00, 0x04, 0x00, 0x01, 0x00, 0xFF, 0xFF,
      0x05, 0x02, 0x00, 0x00]) = true := by decide
/-- K7: the checksum carries into its high byte. -/
theorem test_wireTransfer : after
    (exec (.wireTransfer 2)
      { fifoAt .loopback 640 0 2 2 [(0, 0xAA), (1, 0x55)] with streamIn := replies 10 0x00 0x02 })
    (fun t => cursors t == (2, 2, 0) && t.result == some (.status 0x0002) &&
      streamOuts t.trace == [0x88, 0x33, 0x04, 0x00, 0x02, 0x00, 0xAA, 0x55, 0x05, 0x01, 0x00,
        0x00]) = true := by decide
/-- K2, on the lines: 480 events, the bytes out, and the status from the last sixteen levels. -/
theorem test_wireReport_link : after
    (exec (.wireReport 0)
      { unit .link 640 with
        sinIn := List.replicate 64 false ++ bitLevels 0x81 ++ bitLevels 0x02 })
    (fun t => t.trace.length == 480 && t.result == some (.status 0x8102) && t.sck && !t.sout &&
      bytesOut .link t.trace ==
        [0x88, 0x33, 0x0F, 0x00, 0x00, 0x00, 0x0F, 0x00, 0x00, 0x00]) = true := by decide +kernel

/-- The natural sum of K12 and its remainder: the checksum wraps past 65535 (R153). -/
theorem test_checksum_wraps : checksum 0x04 640 (List.replicate 640 0xFF) = 0x7E06 := by
  decide +kernel

/-- The busy bit of the status words of section 2.3. -/
theorem test_busyBit :
    busyBit 0x8100 = false ∧ busyBit 0x8102 = true ∧ busyBit 0x0002 = true ∧
    busyBit 0x0200 = false ∧ busyBit 0xFFFF = true ∧ busyBit 0x1234 = false := by decide

/-! ## Programs (part 3) -/

/-- P6: the reserved word is refused with its index, before any effect. -/
theorem test_refused_word :
    step { unit .link 640 with pending := [bytesOfNat 4 0x70000000], issued := 2 } =
      .refused (.reservedCommandWord 0x70000000 3) := rfl

/-- P1: both cursors wrap at `C = 4`. -/
theorem test_program_wrap :
    (fifoRun [.rbrst, .rbwr 0x11, .rbwr 0x22, .rbwr 0x33, .rbrd, .rbrd, .rbrd, .rbwr 0xA1,
        .rbwr 0xB2, .rbwr 0xC3, .rbrd, .rbrd, .rbrd] (unit .link 4)).map
      (fun r => (cursors r.1, r.1.mem, r.2)) =
      some ((2, 2, 0), [(0, 0xB2), (1, 0xC3), (2, 0x33), (3, 0xA1)],
        [0x11, 0x22, 0x33, 0xA1, 0xB2, 0xC3]) := by decide

/-- P5: the fault names operation 6. -/
theorem test_program_overrun :
    (runInstrs [.rbrst, .rbwr 0x01, .rbwr 0x02, .rbwr 0x03, .rbwr 0x04, .rbwr 0x05]
      (unit .link 4)).map (fun t => (cursors t, t.fault)) =
      some ((0, 1, 4), some { kind := .fifoOverrun, op := 6, payload := none }) := by decide

/-- R266, R296: an exchange that waits for the stream has not returned, so its run is not good; with a byte it is. -/
theorem test_waiting_run_is_not_good :
    goodRun 1 { unit .loopback 4 with pending := [encode (.xchg 0x88)] } = false ∧
    goodRun 1 { unit .loopback 4 with pending := [encode (.xchg 0x88)], streamIn := [0x81] } =
      true := by decide

/-- Reset: the memory has its canonical form. -/
theorem test_reset_memory : State.reset.mem.wf = true := rfl

/-! ## States that meet the hypotheses of the statements -/

/-- A state with one byte queued at the last cell: every invariant holds, no fault. -/
def lastCell (mode : Mode) : State := fifoAt mode 4 3 0 1 [(3, 0x5A)]

/-- A state with a full FIFO. -/
def fullFifo (mode : Mode) : State :=
  fifoAt mode 4 3 3 4 [(0, 0x02), (1, 0x03), (2, 0x04), (3, 0x01)]

/-- A fault that was recorded before. -/
def oldFault : FaultRecord := { kind := .fifoOverrun, op := 1, payload := none }

theorem inv_lastCell : (lastCell .link).Inv :=
  ⟨by decide, by decide, by decide, by decide, by decide, by decide, by decide, by decide, by decide,
    by decide⟩

theorem inv_fullFifo : (fullFifo .link).Inv :=
  ⟨by decide, by decide, by decide, by decide, by decide, by decide, by decide, by decide, by decide,
    by decide⟩

theorem witness_EncodeDecodeAgree :
    decode [0x01, 0x00, 0xFF, 0x50] = .ok (.sendpkt 0xFF 1) := by decide

theorem witness_ReservedWordsAreRefused :
    (unit .link 4).busy = false ∧
    { unit .link 4 with pending := [wordBytes 0x11020000] }.pending = wordBytes 0x11020000 :: [] ∧
    decodeWord 0x11020000 = .error (.reservedWord 0x11020000) := by decide

theorem witness_CommandRowsAreDisjoint :
    WordRow.xchg.selects 0x40FF0000 = true ∧ WordRow.xchg.selects 0x40FF0000 = true := by decide

/-- Its three cases: full, not full, and a fault recorded before. -/
theorem witness_RbwrStoresAtTail :
    ((fullFifo .link).tail < 4 ∧ (fullFifo .link).fault = none ∧ (fullFifo .link).fill = 4) ∧
    ((lastCell .link).tail < 4 ∧ (lastCell .link).fault = none ∧ (lastCell .link).fill ≠ 4) ∧
    ((fifoAt .link 4 0 3 3 []).tail = 4 - 1 ∧
      { fifoAt .link 4 0 3 3 [] with fault := some oldFault }.fault ≠ none) := by decide

/-- Its three cases: empty, not empty, and a fault recorded before. -/
theorem witness_RbrdFetchesAtHead :
    ((unit .link 4).head < 4 ∧ (unit .link 4).fault = none ∧ (unit .link 4).fill = 0) ∧
    ((lastCell .link).head = 4 - 1 ∧ (lastCell .link).fault = none ∧ (lastCell .link).fill ≠ 0) ∧
    ({ unit .link 4 with fault := some oldFault }.fault ≠ none) := by decide

/-- A cursor just outside the storage. -/
theorem witness_CursorOutsideStops :
    (fifoAt .link 4 4 4 0 []).cfg.capacity ≤ (fifoAt .link 4 4 4 0 []).tail ∧
    (fifoAt .link 4 4 4 0 []).cfg.capacity ≤ (fifoAt .link 4 4 4 0 []).head ∧
    ¬ (fifoAt .link 4 3 3 0 []).cfg.capacity ≤ (fifoAt .link 4 3 3 0 []).head := by decide

/-- One byte queued: room to write, and a first byte to read. -/
theorem witness_QueueContent :
    (lastCell .link).Inv ∧ (lastCell .link).fault = none ∧ (lastCell .link).fill < 4 ∧
    (lastCell .link).queue = 0x5A :: [] := ⟨inv_lastCell, by decide, by decide, by decide⟩

/-- A sequence that respects the queue and two that do not. -/
theorem witness_FifoRefinesTheQueue :
    (fullFifo .link).Inv ∧ (fullFifo .link).fault = none ∧
    [Instr.rbrd, .rbwr 7, .rbrst].all isFifoOp = true ∧
    queueRun 4 [.rbrd, .rbwr 7, .rbrst] (fullFifo .link).queue = some ([], [0x01]) ∧
    queueRun 4 [.rbwr 7] (fullFifo .link).queue = none ∧
    queueRun 4 [.rbrst, .rbrd] (fullFifo .link).queue = none :=
  ⟨inv_fullFifo, by decide, by decide, by decide, by decide, by decide⟩

theorem witness_CursorsCountModuloCapacity :
    1 ≤ (unit .link 1).cfg.capacity ∧ (unit .link 1).head = 0 ∧ (unit .link 1).tail = 0 ∧
    (∀ i, i ∈ [Instr.rbwr 3, .rbrd, .rbrd] → i = .rbrd ∨ ∃ b, i = .rbwr b) := by
  refine ⟨by decide, by decide, by decide, ?_⟩
  simp

theorem witness_XchgOnTheLines : (unit .link 4).cfg.mode = .link := by decide

theorem witness_XchgOnTheStream :
    { unit .loopback 4 with streamIn := [0x81, 0x02] }.cfg.mode = .loopback ∧
    { unit .loopback 4 with streamIn := [0x81, 0x02] }.streamIn = 0x81 :: [0x02] := by decide

/-- Before the exchange, and in progress. -/
theorem witness_XchgWaitsForTheStream :
    ((unit .loopback 4).cfg.mode = .loopback ∧ (unit .loopback 4).streamIn = []) ∧
    ({ unit .loopback 4 with xchg := some { out := 0x88, reply := 0, bit := 7 } }.xchg.isSome = true) := by
  decide

theorem witness_EveryReplyIsPossible :
    (unit .link 4).cfg.mode = .link ∧ (unit .loopback 4).cfg.mode = .loopback := by decide

theorem witness_ByteTraceFromPinTrace :
    (unit .link 4).cfg.mode = .link ∧ ∃ t, exec (.xchg 0xA5) (unit .link 4) = .next t :=
  ⟨by decide, _, rfl⟩

theorem witness_DataLineTiming :
    (unit .link 4).cfg.mode = .link ∧ ∃ t, exec (.xchg 0x01) (unit .link 4) = .next t :=
  ⟨by decide, _, rfl⟩

theorem witness_DelaysPerExchange :
    (unit .link 4).cfg.mode = .link ∧ (∃ t, exec (.xchg 0x01) (unit .link 4) = .next t) ∧
    packetOf (.wireReport 0) = some (0x0F, 0) ∧
    (∃ t, exec (.wireReport 0) (unit .link 4) = .next t ∧ true = true) :=
  ⟨by decide, ⟨_, rfl⟩, rfl, after_next (p := fun _ => true) (by decide +kernel)⟩

/-- The whole of a full FIFO, and nothing of an empty one. -/
theorem witness_PacketCompletesOnTheLines :
    (packetOf (.sendpkt 0x04 4) = some (0x04, 4) ∧ (fullFifo .link).cfg.mode = .link ∧
      (fullFifo .link).head < 4 ∧ (fullFifo .link).fault = none ∧
      (4 : Half).toNat ≤ (fullFifo .link).fill) ∧
    (packetOf (.wireInitialize 0) = some (0x01, 0) ∧ (0 : Half).toNat ≤ (unit .link 4).fill) := by
  decide

theorem witness_PacketCompletesOnTheStream :
    packetOf (.wirePrint 4) = some (0x02, 4) ∧ (fullFifo .loopback).cfg.mode = .loopback ∧
    (fullFifo .loopback).head < 4 ∧ (fullFifo .loopback).fault = none ∧
    (4 : Half).toNat ≤ (fullFifo .loopback).fill ∧ (replies 12 0x81 0x00).length = 10 + 4 ∧
    { fullFifo .loopback with streamIn := replies 12 0x81 0x00 ++ [0x33] }.streamIn =
      replies 12 0x81 0x00 ++ [0x33] := by decide

theorem witness_EmptyPacket :
    packetOf (.sendpkt 0xFF 0) = some (0xFF, 0) ∧ (unit .link 4).cfg.mode = .link ∧
    10 ≤ { unit .loopback 4 with streamIn := replies 8 1 2 }.streamIn.length := by decide

/-- A packet one byte longer than the content, and one from an empty FIFO; then the first of them over the stream. -/
theorem witness_DeficientPacketRecordsUnderrun :
    (packetOf (.sendpkt 0x04 2) = some (0x04, 2) ∧ (lastCell .link).cfg.mode = .link ∧
      (lastCell .link).head < 4 ∧ (lastCell .link).fault = none ∧
      (lastCell .link).fill < (2 : Half).toNat) ∧
    (packetOf (.wireTransfer 1) = some (0x04, 1) ∧ (unit .link 4).fill < (1 : Half).toNat) ∧
    ((lastCell .loopback).cfg.mode = .loopback ∧ (lastCell .loopback).head < 4 ∧
      (lastCell .loopback).fault = none ∧ (lastCell .loopback).fill < (2 : Half).toNat ∧
      (replies 10 0x12 0x34).length = 10 + 2 ∧
      { lastCell .loopback with streamIn := replies 10 0x12 0x34 ++ [0x33] }.streamIn =
        replies 10 0x12 0x34 ++ [0x33]) := by
  decide

theorem witness_HeaderPatternOnSout :
    packetOf (.wireTransfer 640) = some (0x04, 640) ∧ (unit .link 4).cfg.mode = .link ∧
    (unit .link 4).head < (unit .link 4).cfg.capacity := by decide

/-- The PRINT payload of K8 in the FIFO, and the five packets, as command words and as headers. -/
theorem witness_WireCommandBytes :
    ((fifoAt .link 4 3 3 4 [(0, 0x00), (1, 0xFF), (2, 0xFF), (3, 0x01)]).cfg.mode = .link ∧
      (fifoAt .link 4 3 3 4 [(0, 0x00), (1, 0xFF), (2, 0xFF), (3, 0x01)]).head < 4 ∧
      (fifoAt .link 4 3 3 4 [(0, 0x00), (1, 0xFF), (2, 0xFF), (3, 0x01)]).fault = none ∧
      (fifoAt .link 4 3 3 4 [(0, 0x00), (1, 0xFF), (2, 0xFF), (3, 0x01)]).queue =
        0x01 :: 0x00 :: 0xFF :: 0xFF :: []) ∧
    packetOf (.sendpkt 0x01 0) = some (0x01, 0) ∧ packetOf (.wireReport 0) = some (0x0F, 0) ∧
    packetOf (.sendpkt 0x04 0) = some (0x04, 0) ∧
    (packetOf (.sendpkt 0x04 4) = some (0x04, 4) ∧ 1 ≤ (4 : Half).toNat ∧
      (4 : Half).toNat ≤
        (fifoAt .link 4 3 3 4 [(0, 0x00), (1, 0xFF), (2, 0xFF), (3, 0x01)]).fill) ∧
    packetOf (.sendpkt 0x02 4) = some (0x02, 4) := by decide

/-- A packet that stops inside its payload. -/
theorem witness_WaitingOperationResumes :
    ∃ t, exec (.sendpkt 0x04 1)
      { lastCell .loopback with streamIn := List.replicate 6 0x00 } = .next t ∧ t.busy = true :=
  after_next (p := State.busy) (by decide)

/-- The three cases. -/
theorem witness_FaultsAreTheTwoOfTheTable :
    (∃ t, exec (.rbwr 7) (fullFifo .link) = .next t ∧ t.fault.isSome = true) ∧
    (∃ t, exec .rbrd (unit .link 4) = .next t ∧ t.fault.isSome = true) ∧
    (∃ t, exec (.sendpkt 0x04 2) { lastCell .loopback with streamIn := replies 10 1 2 } = .next t ∧
      t.fault.isSome = true) :=
  ⟨after_next (p := fun t => t.fault.isSome) (by decide),
    after_next (p := fun t => t.fault.isSome) (by decide),
    after_next (p := fun t => t.fault.isSome) (by decide)⟩

theorem witness_OnlyFifoOperationsReachTheFifo :
    (∃ t, exec (.xchg 7) (lastCell .link) = .next t) ∧ (∃ t, exec .rbrd (lastCell .link) = .next t) ∧
    (∀ b, Instr.rbrd ≠ .rbwr b) ∧ Instr.rbrd ≠ .rbrst :=
  ⟨⟨_, rfl⟩, ⟨_, rfl⟩, by simp, by simp⟩

theorem witness_RecordedFaultIsKept :
    ∃ t, step { unit .link 4 with fault := some oldFault, pending := [encode .rbrst] } = .next t ∧
      t.fault == some oldFault :=
  after_next (p := fun t => t.fault == some oldFault) (by decide)

/-- A good run of two steps, an exchange in progress, and a state in `LINK` that meets the invariant. -/
theorem witness_GoodRunHasReturned :
    goodRun (1 + 1) { unit .link 4 with pending := [encode (.rbwr 1), encode .rbrd] } = true ∧
    ({ unit .loopback 4 with xchg := some { out := 0x88, reply := 0, bit := 7 } }.cfg.mode =
        .loopback ∧
      { unit .loopback 4 with xchg := some { out := 0x88, reply := 0, bit := 7 } }.xchg.isSome =
        true ∧ (unit .loopback 4).streamIn = []) ∧
    ((lastCell .link).Inv ∧ (lastCell .link).cfg.mode = .link) :=
  ⟨by decide, by decide, inv_lastCell, by decide⟩

/-- A sequence that respects the queue, and two that do not. -/
theorem witness_FifoRunIsGoodIffQueueIs :
    (cfgOf .link 1).Wf ∧ [Instr.rbwr 1, .rbrd].all isFifoOp = true ∧
    (queueRun 1 [.rbwr 1, .rbrd] []).isSome = true ∧
    (queueRun 1 [.rbwr 1, .rbwr 2] []).isSome = false ∧ (queueRun 1 [.rbrd] []).isSome = false := by
  decide

theorem witness_ConfigurationIsFixed :
    ∃ t, step { unit .link 4 with pending := [encode (.rbwr 1)] } = .next t := ⟨_, rfl⟩

theorem witness_TraceOnlyGrows :
    ∃ t, step { unit .link 4 with pending := [encode (.xchg 1)] } = .next t ∧
      t.trace.length == 48 :=
  after_next (p := fun t => t.trace.length == 48) (by decide)

theorem witness_PeerCannotReachTheFifo :
    (unit .link 4).cfg.mode = .link ∧
    (∃ t, exec (.xchg 7) (unit .link 4) = .next t) ∧
    (∃ u, exec (.xchg 7) { unit .link 4 with sinIn := [true, false, true] } = .next u) ∧
    (unit .loopback 4).cfg.mode = .loopback ∧
    (∃ t, exec (.xchg 7) { unit .loopback 4 with streamIn := [0x81] } = .next t ∧
      (!t.busy) = true) ∧
    (∃ u, exec (.xchg 7) { { unit .loopback 4 with streamIn := [0x81] } with
      streamIn := [0x12, 0x34] } = .next u ∧ (!u.busy) = true) :=
  ⟨by decide, ⟨_, rfl⟩, ⟨_, rfl⟩, by decide, after_next (p := fun t => !t.busy) (by decide),
    after_next (p := fun t => !t.busy) (by decide)⟩

/-- The smallest FIFO, in `LOOPBACK`, and a capacity of several bytes. -/
theorem witness_InvariantAtReset :
    (cfgOf .loopback 1).Wf ∧ (cfgOf .link 65535).Wf := by decide

theorem witness_EveryStepKeepsInvariant :
    (lastCell .link).Inv ∧ ∃ t, step (lastCell .link) = .next t := ⟨inv_lastCell, _, rfl⟩

theorem witness_CursorsFitTheirWidth : (fullFifo .link).Inv := inv_fullFifo

/-- A presented instruction, and a table row's word. -/
theorem witness_StepRunsDecodedInstruction :
    ((unit .link 4).busy = false ∧
      { unit .link 4 with pending := [encode (.rbwr 9)] }.pending = encode (.rbwr 9) :: [] ∧
      decode (encode (.rbwr 9)) = .ok (.rbwr 9)) ∧
    decodeTableWord 48 0x028000043388 = some (.wireTransfer 640) := by decide

/-- An exchange in progress. -/
def waitingUnit : State :=
  { unit .loopback 4 with xchg := some { out := 0x88, reply := 0, bit := 7 } }

theorem witness_NoOperationWhileOneRuns :
    waitingUnit.busy = true ∧ ∃ t, step waitingUnit = .next t := ⟨by decide, _, rfl⟩

theorem witness_IdleBlockStays :
    (unit .link 4).busy = false ∧ (unit .link 4).pending = [] ∧
    (unit .link 4).cfg.driver = .external := by decide

theorem witness_ControllerLeavesTheBlock :
    (ctlAt .hostInvoke .idle .initializing).busy = false ∧
    (ctlAt .hostInvoke .idle .initializing).pending = [] := by decide

/-- The host stream in front of the controller. -/
def withHost (input : List HostInput) (s : State) : State :=
  { s with ctl := { s.ctl with hostIn := input } }

/-- The status word in the controller's hand. -/
def withResult (w : Half) (s : State) : State := { s with result := some (.status w) }

/-- The reference controller is attached, the block idle and nothing presented. -/
def attached (s : State) : Bool :=
  decide (s.cfg.driver = .reference) && !s.busy && decide (s.pending = [])

/-- The four clauses: `Idle` begins; four bytes; three bytes and a timeout; no byte yet. -/
theorem witness_HostIdleState :
    (attached (ctlAt .hostInvoke .idle .initializing) = true ∧
      (ctlAt .hostInvoke .idle .initializing).ctl.hostState = .idle) ∧
    (attached (ctlAt .idleRead .idle .initializing) = true ∧
      (withHost [.byte 0, .byte 1, .byte 2, .byte 3]
        (ctlAt .idleRead .idle .initializing)).ctl.hostIn =
          .byte 0 :: .byte 1 :: .byte 2 :: .byte 3 :: []) ∧
    ([(0 : Byte), 1, 2].length < 4 ∧
      (withHost [.byte 0, .byte 1, .byte 2, .timeout]
        (ctlAt .idleRead .idle .initializing)).ctl.hostIn =
          [(0 : Byte), 1, 2].map .byte ++ .timeout :: []) ∧
    (ctlAt .idleRead .idle .initializing).ctl.hostIn = ([] : List Byte).map .byte := by decide

/-- The acknowledgements of H7, `"OK"` and `"ok"`; one byte and a timeout; one byte. -/
theorem witness_HostSetupState :
    attached (ctlAt .hostInvoke .setup .initializing) = true ∧
    (withHost [.byte 0x4F, .byte 0x4B] (ctlAt .hostInvoke .setup .initializing)).ctl.hostIn =
      .byte 0x4F :: .byte 0x4B :: [] ∧
    ((0x4F : Byte) = 0x4F ∧ (0x4B : Byte) = 0x4B) ∧
    ¬ ((0x6F : Byte) = 0x4F ∧ (0x6B : Byte) = 0x4B) ∧
    (withHost [.byte 0x4F, .timeout] (ctlAt .hostInvoke .setup .initializing)).ctl.hostIn =
      [(0x4F : Byte)].map .byte ++ .timeout :: [] ∧
    (withHost [.byte 0x4F] (ctlAt .hostInvoke .setup .initializing)).ctl.hostIn =
      [(0x4F : Byte)].map .byte := by decide

/-- The five clauses. -/
theorem witness_HostPrintState :
    (attached (ctlAt .hostInvoke .print .initializing) = true ∧
      (ctlAt .hostInvoke .print .initializing).ctl.hostState = .print) ∧
    (attached (ctlAt (.load 1) .print .initializing) = true ∧
      (withHost [.timeout, .byte 0xA0] (ctlAt (.load 1) .print .initializing)).ctl.hostIn =
        List.replicate 1 .timeout ++ .byte 0xA0 :: []) ∧
    (withHost [.timeout] (ctlAt (.load 1) .print .initializing)).ctl.hostIn =
      List.replicate 1 .timeout ∧
    attached (ctlAt (.load 0) .print .initializing) = true ∧
    (attached (ctlAt .batchDone .print .initializing) = true ∧
      (ctlAt .batchDone .print .initializing).ctl.printed.toNat +
        (ctlAt .batchDone .print .initializing).ctl.batchLen < 2 ^ 32) := by decide

/-- The two clauses, the second with a ready status and with another. -/
theorem witness_PrinterInitializeState :
    attached (ctlAt .printerInvoke .print .initializing) = true ∧
    attached (withResult 0x8100 (ctlAt .initStatus .print .initializing)) = true ∧
    (withResult 0x8100 (ctlAt .initStatus .print .initializing)).result =
      some (.status 0x8100) ∧
    (0x8100 : Half) = (cfgOf .link 8).readyEmpty ∧
    ¬ ((0 : Half) = (cfgOf .link 8).readyEmpty ∨ (0 : Half) = (cfgOf .link 8).readyData) := by decide

/-- `bytesSent` bytes of a batch of eight are sent. -/
def sending (bytesSent : Nat) (s : State) : State :=
  { s with ctl := { s.ctl with batchLen := 8, bytesSent := bytesSent } }

/-- The three clauses; in the second, more to send, all sent, and a status that is not ready. -/
theorem witness_PrinterTransferState :
    (attached (sending 3 (ctlAt .printerInvoke .print .transfer)) = true ∧
      (sending 3 (ctlAt .printerInvoke .print .transfer)).cfg.maxPayload ≤ 65535) ∧
    (attached (sending 3 (withResult 0x8108 (ctlAt (.dataStatus 4) .print .transfer))) = true ∧
      (0x8108 : Half) = (cfgOf .link 8).readyData ∧ 3 + 4 < 8) ∧
    (attached (sending 4 (withResult 0x8108 (ctlAt (.dataStatus 4) .print .transfer))) = true ∧
      8 ≤ 4 + 4) ∧
    (attached (sending 4 (withResult 0x0000 (ctlAt (.dataStatus 4) .print .transfer))) = true ∧
      ¬ ((0 : Half) = (cfgOf .link 8).readyEmpty ∨ (0 : Half) = (cfgOf .link 8).readyData)) ∧
    attached (withResult 0 (ctlAt .endStatus .print .transfer)) = true := by decide

/-- `Print` begins; then each of the three places where a status is taken. -/
theorem witness_PrinterPrintState :
    attached (ctlAt .printerInvoke .print .print) = true ∧
    attached (withResult 0x8108 (ctlAt .printStatus .print .print)) = true ∧
    attached (withResult 0x8102 (ctlAt .pollBusy .print .print)) = true ∧
    attached (withResult 0x8100 (ctlAt .pollClear .print .print)) = true ∧
    (0x8102 : Half).getLsbD 1 = true ∧ (0x8100 : Half).getLsbD 1 = false := by decide

theorem witness_PrintedNeverPassesTotal :
    (ctlAt .hostInvoke .print .initializing).Counted ∧
    ∃ t, step (ctlAt .hostInvoke .print .initializing) = .next t :=
  ⟨⟨by decide, by decide, by decide⟩, _, rfl⟩

/-- A data packet is presented and its bytes are queued. -/
theorem witness_ReferenceControllerKeepsTheContract :
    let s := ctlAt (.dataStatus 1) .print .transfer
    let u := { s with
      fill := 1, tail := 1, mem := [(0, 0x10)], pending := [encode (.sendpkt 0x04 1)]
      ctl := { s.ctl with batchLen := 1, total := 1 } }
    u.Accounted ∧ ¬ u.fallsBack ∧ (∃ t, step u = .next t ∧ t.fill == 0) := by
  refine ⟨⟨by decide, by decide, by decide, by decide, by decide, by decide, by decide, by decide,
    by decide, ?_, ?_, by decide⟩, ?_, after_next (p := fun t => t.fill == 0) (by decide +kernel)⟩
  · intro chunk h
    cases h
    decide
  · intro left h
    cases h
  · rintro ⟨-, h, -⟩
    cases h

theorem witness_ControllerStartsAccounted :
    ({ cfgOf .link 4 with driver := .reference } : Config).Wf ∧ 4 ≤ (cfgOf .link 4).capacity := by
  decide

/-- Two packets answered by two words that are not ready. -/
def neverReady : State :=
  { ctlAt .printerInvoke .print .initializing with sinIn := answerLevels [(0, 0x1234), (0, 0x8102)] }

theorem neverReady_statuses :
    State.comingStatuses (List.replicate 2 0) neverReady = [0x1234, 0x8102] :=
  State.comingStatuses_answerLevels [(0, 0x1234), (0, 0x8102)] [] neverReady
    (by simp [neverReady])

theorem witness_NeverReadyPeerKeepsInitialize :
    (attached neverReady = true ∧ neverReady.cfg.mode = .link ∧
      neverReady.ctl.point = .printerInvoke ∧ neverReady.ctl.printerState = .initializing) ∧
    (∀ w, w ∈ State.comingStatuses (List.replicate 2 0) neverReady →
      isReady neverReady.cfg w = false) := by
  rw [neverReady_statuses]
  exact ⟨by decide, by simp [isReady, neverReady, ctlAt, unit, cfgOf, State.resetWith]⟩

/-- A batch of one byte, answered by each of the two ready words. -/
def alwaysReady : State :=
  let s := ctlAt .printerInvoke .print .initializing
  { s with
    fill := 1, tail := 1, mem := [(0, 0x10)]
    sinIn := answerLevels [(0, 0x8100), (1, 0x8108)]
    ctl := { s.ctl with batchLen := 1 } }

theorem alwaysReady_statuses :
    State.comingStatuses (0 :: dataPackets alwaysReady.cfg.maxPayload alwaysReady.ctl.batchLen)
      alwaysReady = [0x8100, 0x8108] :=
  State.comingStatuses_answerLevels [(0, 0x8100), (1, 0x8108)] [] alwaysReady
    (by simp [alwaysReady])

theorem witness_ReadyPeerReachesPrint :
    (alwaysReady.cfg.Wf ∧ attached alwaysReady = true ∧ alwaysReady.cfg.mode = .link ∧
      alwaysReady.head < alwaysReady.cfg.capacity ∧ alwaysReady.fault = none ∧
      alwaysReady.ctl.point = .printerInvoke ∧ alwaysReady.ctl.printerState = .initializing ∧
      alwaysReady.fill = alwaysReady.ctl.batchLen) ∧
    (∀ w, w ∈ State.comingStatuses
        (0 :: dataPackets alwaysReady.cfg.maxPayload alwaysReady.ctl.batchLen) alwaysReady →
      isReady alwaysReady.cfg w = true) := by
  rw [alwaysReady_statuses]
  exact ⟨by decide, by simp [isReady, alwaysReady, ctlAt, unit, cfgOf, State.resetWith]⟩

/-- An empty batch still has one data packet, and a batch of two packets and a half three. -/
theorem test_dataPackets : dataPackets 8 0 = [0] ∧ dataPackets 8 20 = [8, 8, 4] := by decide

/-- No poll before the busy one, one busy poll, and a clear one. -/
def printing : State :=
  { ctlAt .printerInvoke .print .print with
    sinIn := answerLevels [(4, 0x0001), (0, 0x8102), (0, 0x8100)] }

theorem printing_statuses :
    State.comingStatuses (4 :: List.replicate (0 + 1 + 1) 0) printing =
      0x0001 :: ([] ++ [0x8102] ++ [0x8100]) :=
  State.comingStatuses_answerLevels [(4, 0x0001), (0, 0x8102), (0, 0x8100)] [] printing
    (by simp [printing])

theorem witness_PrintStateReturns :
    (attached printing = true ∧ printing.cfg.mode = .link ∧ 4 ≤ printing.cfg.capacity ∧
      printing.head < printing.cfg.capacity ∧ printing.tail < printing.cfg.capacity ∧
      printing.fault = none ∧ printing.fill = 0 ∧ printing.ctl.point = .printerInvoke ∧
      printing.ctl.printerState = .print) ∧
    (∀ w, w ∈ ([] : List Half) → w.getLsbD 1 = false) ∧ [(0x8102 : Half)] ≠ [] ∧
    (∀ w, w ∈ [(0x8102 : Half)] → w.getLsbD 1 = true) ∧ (0x8100 : Half).getLsbD 1 = false ∧
    State.comingStatuses (4 :: List.replicate (0 + 1 + 1) 0) printing =
      0x0001 :: ([] ++ [0x8102] ++ [0x8100]) :=
  ⟨by decide, by simp, by simp, by simp, by simp, printing_statuses⟩

/-- A session that ends within `n` steps, none of which is about to fall back, as a test. -/
def quietSession : Nat → State → Bool
  | 0, _ => false
  | n + 1, s =>
    (match s.ctl.point, s.result with
      | .dataStatus _, some (.status w) => isReady s.cfg w
      | _, _ => true) &&
    (match step s with
      | .next t => if t.atIdle then s.ctl.point == .batchDone && n == 0 else quietSession n t
      | .fault _ => false
      | .refused _ => false)

/-- What `quietSession` says. -/
theorem quietSession_spec {n : Nat} {s : State} (h : quietSession n s = true) :
    (∀ k u, k < n → runSteps k s = some u → ¬ u.fallsBack) ∧ ∃ t, sessionRest n s = some t := by
  induction n generalizing s with
  | zero => cases h
  | succ n ih =>
    simp only [quietSession, Bool.and_eq_true] at h
    obtain ⟨hq, h⟩ := h
    have first : ¬ s.fallsBack := by
      rintro ⟨-, -, chunk, w, hp, hr, hn⟩
      simp [hp, hr, hn] at hq
    split at h
    · next t ht =>
      split at h
      · next hidle =>
        simp only [Bool.and_eq_true, beq_iff_eq] at h
        obtain ⟨hp, rfl⟩ := h
        refine ⟨fun k u hk hu => ?_, t, by simp [sessionRest, ht, hidle, hp]⟩
        obtain rfl : k = 0 := by omega
        cases hu
        exact first
      · next hidle =>
        obtain ⟨h1, t', h2⟩ := ih h
        refine ⟨fun k u hk hu => ?_, t', by simpa [sessionRest, ht, hidle] using h2⟩
        cases k with
        | zero => cases hu; exact first
        | succ k =>
          rw [runSteps_next ht] at hu
          exact h1 k u (by omega) hu
    · cases h
    · cases h

/-- A whole session of an image of no bytes: each packet answered as the session needs it. -/
def emptySession : State :=
  let s := ctlAt .hostInvoke .idle .initializing
  { s with
    sinIn := answerLevels
      [(0, 0x8100), (0, 0x8108), (0, 0x0000), (4, 0x0000), (0, 0x8102), (0, 0x8100)]
    ctl := { s.ctl with hostIn := [0, 0, 0, 0, 0x4F, 0x4B].map .byte } }

theorem emptySession_quiet : quietSession 26 emptySession = true := by decide +kernel

theorem emptySession_good : emptySession.Accounted ∧ emptySession.Counted := by
  refine ⟨⟨by decide, by decide, by decide, by decide, by decide, by decide, by decide, by decide,
    by decide, ?_, ?_, by decide⟩, ⟨by decide, by decide, by decide⟩⟩
  · intro chunk h
    cases h
  · intro left h
    cases h

theorem witness_SessionEndsAsExpected :
    emptySession.Accounted ∧ emptySession.Counted ∧
    (∀ k u, k < 26 → runSteps k emptySession = some u → ¬ u.fallsBack) ∧
    ∃ t, session 26 emptySession = some t := by
  obtain ⟨h1, h2⟩ := quietSession_spec emptySession_quiet
  refine ⟨emptySession_good.1, emptySession_good.2, h1, ?_⟩
  rw [session, if_pos (by decide)]
  exact h2

end Sys2Proof.Tests
end

section
/-! SUPPORT. The statements of spec/00_scope.md: what a step is while no operation is in progress. Each of the two
steps of that kind, a move of the controller and the start of the instruction presented first, has one equation, and
the proofs go through it. -/

namespace Sys2Proof.Machine

/-! ## No operation in progress -/

theorem State.busy_eq_false_iff (s : State) :
    s.busy = false ↔ s.xchg = none ∧ s.framer = none := by
  simp [State.busy]

/-- With nothing presented, a step is a move of the controller (R11). -/
theorem step_idle {s : State} (hb : s.busy = false) (hp : s.pending = []) :
    step s = .next (controllerMove s) := by
  have hf : fetch s = .idle := by simp [fetch, hb, hp]
  simp [step, hf]

/-- The first presentation is taken from the port and runs as the instruction it decodes to (R10, R11). -/
theorem step_presented {s : State} {bytes : List Byte} {rest : List (List Byte)} {i : Instr}
    (hb : s.busy = false) (hp : s.pending = bytes :: rest) (hd : decode bytes = .ok i) :
    step s = exec i { s with pending := rest } := by
  have hf : fetch s = .instr i { s with pending := rest } := by simp [fetch, hb, hp, hd]
  simp [step, hf]

/-! ## The word of a table row at the port -/

theorem decodeTableWord_eq_some {nbits w : Nat} {i : Instr} :
    decodeTableWord nbits w = some i ↔ decode (tableBytes nbits w) = .ok i := by
  unfold decodeTableWord
  cases decode (tableBytes nbits w) <;> simp

@[simp] theorem State.withFetchWord_pending (s : State) (nbits w : Nat) :
    (s.withFetchWord nbits w).pending = tableBytes nbits w :: s.pending := rfl

@[simp] theorem State.withFetchWord_busy (s : State) (nbits w : Nat) :
    (s.withFetchWord nbits w).busy = false := rfl

/-- Taking the word from the port again leaves the state without its operation in progress. -/
theorem State.withFetchWord_taken (s : State) (nbits w : Nat) :
    { s.withFetchWord nbits w with pending := s.pending } =
      { s with framer := none, xchg := none } := rfl

/-! ## What a move of the controller leaves -/

theorem State.sameBlock.sameFifo {s t : State} (h : s.sameBlock t) : s.sameFifo t := by
  unfold State.sameBlock at h
  rw [h]
  exact ⟨fun _ => rfl, rfl, rfl, rfl, rfl⟩

theorem State.sameBlock.sameLink {s t : State} (h : s.sameBlock t) : s.sameLink t := by
  unfold State.sameBlock at h
  rw [h]
  exact ⟨rfl, rfl, rfl, rfl, rfl⟩

/-- The same transients, the same count of operations and the same power-on (R5, R26, R28). -/
theorem State.sameBlock.sameProgress {s t : State} (h : s.sameBlock t) :
    t.framer = s.framer ∧ t.xchg = s.xchg ∧ t.issued = s.issued ∧ t.boot = s.boot := by
  unfold State.sameBlock at h
  rw [h]
  exact ⟨rfl, rfl, rfl, rfl⟩

/-- An arbitrary controller that presents nothing changes nothing (notes/assumptions/15.md). -/
theorem controllerMove_external {s : State} (h : s.cfg.driver = .external) :
    controllerMove s = s := by
  simp [controllerMove, h]

/-! ## The obligations of spec/00_scope.md -/

/-- Settles O42: the step is a move of the controller, and every move keeps the block. -/
theorem controllerLeavesTheBlock : Obligations.ControllerLeavesTheBlock := by
  intro s hb hp
  have hsame : s.sameBlock (controllerMove s) := sameBlock_controllerMove s
  obtain ⟨hxchg, hframer⟩ := s.busy_eq_false_iff.mp hb
  obtain ⟨hf, hx, hi, hboot⟩ := hsame.sameProgress
  exact ⟨controllerMove s, step_idle hb hp, hsame.sameFifo, hsame.sameLink,
    hf.trans hframer, hx.trans hxchg, hi, hboot⟩

/-- Settles O39: the first presentation is the one that runs, and `withFetchWord` makes a table row's word the first
presentation. -/
theorem stepRunsDecodedInstruction : Obligations.StepRunsDecodedInstruction := by
  refine ⟨fun s bytes rest i hb hp hd => step_presented hb hp hd, fun s nbits w i hd => ?_⟩
  calc step (s.withFetchWord nbits w)
      = exec i { s.withFetchWord nbits w with pending := s.pending } :=
        step_presented (s.withFetchWord_busy nbits w) (s.withFetchWord_pending nbits w)
          (decodeTableWord_eq_some.mp hd)
    _ = exec i { s with framer := none, xchg := none } :=
        congrArg (exec i) (s.withFetchWord_taken nbits w)

/-- Settles O41: the step is a move of the controller, and an arbitrary one moves nothing. -/
theorem idleBlockStays : Obligations.IdleBlockStays := by
  intro s hb hp hext
  rw [step_idle hb hp, controllerMove_external hext]

end Sys2Proof.Machine
end

section
/-! SUPPORT. The statements of spec/10_state.md. What a step can do is said once: it is a chain of FIFO accesses and of
changes beside the FIFO (`step_evolves`). That the configuration is fixed, a fault kept, the trace only appended to and
the storage sound are then facts about each link of the chain. -/

namespace Sys2Proof.Machine

/-! ## What happens beside the FIFO -/

/-- `t` comes from `s` without an access to the FIFO: nothing of R21 to R23, R30 and R31 moves, the clock is left as it
is or at 1, and the trace is at most appended to. Nothing is said of the transients, the port, the controller and the
peers. -/
structure State.BesideFifo (s t : State) : Prop where
  cfg : t.cfg = s.cfg := by rfl
  mem : t.mem = s.mem := by rfl
  head : t.head = s.head := by rfl
  tail : t.tail = s.tail := by rfl
  fill : t.fill = s.fill := by rfl
  fault : t.fault = s.fault := by rfl
  clock : t.sck = s.sck ∨ t.sck = true := by exact .inl rfl
  trace : ∃ events, t.trace = s.trace ++ events := by exact ⟨[], (List.append_nil _).symm⟩

theorem State.besideFifo_issue (s : State) : s.BesideFifo s.issue := {}

theorem State.besideFifo_handBack (s : State) (r : Reply) : s.BesideFifo (s.handBack r) := {}

theorem State.besideFifo_transients (s : State) (f : Option Framer) (x : Option Exchange) :
    s.BesideFifo { s with framer := f, xchg := x } := {}

theorem State.besideFifo_pending (s : State) (ops : List (List Byte)) :
    s.BesideFifo { s with pending := ops } := {}

theorem State.sameBlock.besideFifo {s t : State} (h : s.sameBlock t) : s.BesideFifo t := by
  unfold State.sameBlock at h
  rw [h]
  exact {}

/-- In `LINK` the bits leave the clock at 1 and append their events (R131, R135); in `LOOPBACK` at most the stream is
read (R138). -/
theorem continueExchange_besideFifo (x : Exchange) (s : State) :
    s.BesideFifo (continueExchange x s).2 := by
  unfold continueExchange
  split
  · rw [(linkBits_eq x.bit x s).2]
    exact { clock := .inr rfl, trace := ⟨_, rfl⟩ }
  · split
    · exact {}
    · exact { trace := ⟨_, rfl⟩ }

/-- An exchange is the going on of one, from a state with the same exchange in progress. -/
theorem exchange_eq_continueExchange (b : Byte) (s : State) :
    ∃ u, exchange b s = continueExchange { out := b, reply := 0, bit := 7 } u ∧
      s.BesideFifo u ∧ u.xchg = s.xchg ∧ u.framer = s.framer := by
  cases hm : s.cfg.mode with
  | link => exact ⟨s, by simp only [exchange, hm], {}, rfl, rfl⟩
  | loopback =>
    exact ⟨s.streamWrite b, by simp only [exchange, hm], { trace := ⟨_, rfl⟩ }, rfl, rfl⟩

/-! ## What a step can do -/

/-- A chain of FIFO accesses and of changes beside the FIFO leads from `s` to `t`. -/
inductive State.Evolves (s : State) : State → Prop
  | refl : State.Evolves s s
  | write {t u : State} {b : Byte} (ht : State.Evolves s t) (hw : rbWrite b t = .ok u) :
      State.Evolves s u
  | read {t u : State} {p : Option Nat} {v : Byte} (ht : State.Evolves s t)
      (hr : rbRead p t = .ok (v, u)) : State.Evolves s u
  | reset {t : State} (ht : State.Evolves s t) : State.Evolves s (rbReset t)
  | beside {t u : State} (ht : State.Evolves s t) (hb : t.BesideFifo u) : State.Evolves s u

theorem State.Evolves.trans {s t u : State} (hst : s.Evolves t) (htu : t.Evolves u) :
    s.Evolves u := by
  induction htu with
  | refl => exact hst
  | write _ hw ih => exact ih.write hw
  | read _ hr ih => exact ih.read hr
  | reset _ ih => exact ih.reset
  | beside _ hb ih => exact ih.beside hb

theorem State.BesideFifo.evolves {s t : State} (h : s.BesideFifo t) : s.Evolves t :=
  State.Evolves.refl.beside h

theorem continueExchange_evolves {x : Exchange} {o : Option Byte} {s t : State}
    (h : continueExchange x s = (o, t)) : s.Evolves t := by
  have hb := continueExchange_besideFifo x s
  rw [h] at hb
  exact hb.evolves

theorem exchange_evolves {b : Byte} {o : Option Byte} {s t : State} (h : exchange b s = (o, t)) :
    s.Evolves t := by
  obtain ⟨u, he, hsu, -, -⟩ := exchange_eq_continueExchange b s
  exact hsu.evolves.trans (continueExchange_evolves (he ▸ h))

theorem framerRun_evolves {n : Nat} {f : Framer} {s t : State} (h : framerRun n f s = .ok t) :
    s.Evolves t :=
  framerRun_preserves s.Evolves
    (fun _ _ _ _ hs hr => hs.read hr)
    (fun _ _ hs => hs.trans (exchange_evolves rfl))
    (fun f u hs => hs.beside (u.besideFifo_transients f u.xchg))
    (fun r u hs => hs.beside (u.besideFifo_handBack r))
    n f s t .refl h

theorem exec_evolves {i : Instr} {s t : State} (h : exec i s = .next t) : s.Evolves t := by
  have issued : s.Evolves s.issue := s.besideFifo_issue.evolves
  rcases exec_cases h with ⟨b, -, hw⟩ | ⟨v, u, -, hr, rfl⟩ | ⟨-, rfl⟩ | ⟨b, r, u, -, he, rfl⟩ |
    ⟨b, -, he⟩ | ⟨cmd, len, -, hp⟩
  · exact issued.write hw
  · exact (issued.read hr).beside (u.besideFifo_handBack _)
  · exact issued.reset
  · exact (issued.trans (exchange_evolves he)).beside (u.besideFifo_handBack _)
  · exact issued.trans (exchange_evolves he)
  · exact issued.trans (framerRun_evolves hp)

/-- How the operation in progress goes on (R161, R258): the exchange waits still; it completes and was all of the
operation; it completes and ends the packet, or the packet goes on; or no exchange is in progress. -/
inductive State.Resumes (s : State) : State → Prop
  | waits {x : Exchange} {t : State} (hx : s.xchg = some x)
      (hc : continueExchange x { s with xchg := none } = (none, t)) : State.Resumes s t
  | returnsByte {x : Exchange} {r : Byte} {u : State} (hx : s.xchg = some x)
      (hc : continueExchange x { s with xchg := none } = (some r, u)) (hf : u.framer = none) :
      State.Resumes s (u.handBack (.byte r))
  | returnsStatus {x : Exchange} {r : Byte} {u : State} {f : Framer} {w : Half}
      (hx : s.xchg = some x) (hc : continueExchange x { s with xchg := none } = (some r, u))
      (hf : u.framer = some f) (hn : framerNext f r = .inr w) :
      State.Resumes s ({ u with framer := none }.handBack (.status w))
  | goesOn {x : Exchange} {r : Byte} {u t : State} {f g : Framer}
      (hx : s.xchg = some x) (hc : continueExchange x { s with xchg := none } = (some r, u))
      (hf : u.framer = some f) (hn : framerNext f r = .inl g)
      (hg : framerGo g { u with framer := none } = .ok t) : State.Resumes s t
  | runsFramer {f : Framer} {t : State} (hx : s.xchg = none) (hf : s.framer = some f)
      (hg : framerGo f { s with framer := none } = .ok t) : State.Resumes s t
  | nothing (hx : s.xchg = none) (hf : s.framer = none) : State.Resumes s s

theorem resume_resumes {s t : State} (h : resume s = .ok t) : s.Resumes t := by
  unfold resume at h
  split at h
  · next x hx =>
    split at h
    · next u hc => cases h; exact .waits hx hc
    · next r u hc =>
      split at h
      · next hf => cases h; exact .returnsByte hx hc hf
      · next f hf =>
        split at h
        · next g hn => exact .goesOn hx hc hf hn h
        · next w hn => cases h; exact .returnsStatus hx hc hf hn
  · next hx =>
    split at h
    · next f hf => exact .runsFramer hx hf h
    · next hf => cases h; exact .nothing hx hf

theorem resume_evolves {s t : State} (h : resume s = .ok t) : s.Evolves t := by
  have exchanged : ∀ {x o u}, continueExchange x { s with xchg := none } = (o, u) →
      s.Evolves u :=
    fun hc => (s.besideFifo_transients s.framer none).evolves.trans (continueExchange_evolves hc)
  cases resume_resumes h with
  | waits _ hc => exact exchanged hc
  | returnsByte _ hc _ => exact (exchanged hc).beside (State.besideFifo_handBack _ _)
  | @returnsStatus _ _ u _ _ _ hc _ _ =>
    exact ((exchanged hc).beside (u.besideFifo_transients none u.xchg)).beside
      (State.besideFifo_handBack _ _)
  | @goesOn _ _ u _ _ _ _ hc _ _ hg =>
    exact ((exchanged hc).beside (u.besideFifo_transients none u.xchg)).trans (framerRun_evolves hg)
  | runsFramer _ _ hg =>
    exact (s.besideFifo_transients none s.xchg).evolves.trans (framerRun_evolves hg)
  | nothing => exact .refl

/-- Every step is a chain of FIFO accesses and of changes beside the FIFO. -/
theorem step_evolves {s t : State} (h : step s = .next t) : s.Evolves t := by
  rcases step_cases h with ⟨-, hr⟩ | ⟨-, -, rfl⟩ | ⟨-, bytes, rest, i, -, -, he⟩
  · exact resume_evolves hr
  · exact (sameBlock_controllerMove s).besideFifo.evolves
  · exact (s.besideFifo_pending rest).evolves.trans (exec_evolves he)

/-! ## What every chain keeps -/

/-- The first fault is kept by the ghost effect of a write (R252, R254). -/
theorem State.ghostWrite_fault_of_some {s : State} {r : FaultRecord} (h : s.fault = some r) :
    s.ghostWrite.fault = some r := by
  simp [State.ghostWrite, h]

/-- The same of a read. -/
theorem State.ghostRead_fault_of_some {s : State} {r : FaultRecord} (p : Option Nat)
    (h : s.fault = some r) : (s.ghostRead p).fault = some r := by
  simp [State.ghostRead, h]

theorem State.Evolves.fault_kept {s t : State} {r : FaultRecord} (h : s.Evolves t)
    (hs : s.fault = some r) : t.fault = some r := by
  induction h with
  | refl => exact hs
  | write _ hw ih =>
    obtain ⟨-, rfl⟩ := rbWrite_ok hw
    exact State.ghostWrite_fault_of_some ih
  | read _ hr ih =>
    obtain ⟨-, -, rfl⟩ := rbRead_ok hr
    exact State.ghostRead_fault_of_some _ ih
  | reset _ ih => exact ih
  | beside _ hb ih => exact hb.fault.trans ih

theorem State.Evolves.cfg_eq {s t : State} (h : s.Evolves t) : t.cfg = s.cfg := by
  induction h with
  | refl => rfl
  | write _ hw ih =>
    obtain ⟨-, rfl⟩ := rbWrite_ok hw
    exact ih
  | read _ hr ih =>
    obtain ⟨-, -, rfl⟩ := rbRead_ok hr
    exact ih
  | reset _ ih => exact ih
  | beside _ hb ih => exact hb.cfg.trans ih

theorem State.Evolves.trace_append {s t : State} (h : s.Evolves t) :
    ∃ events, t.trace = s.trace ++ events := by
  induction h with
  | refl => exact ⟨[], (List.append_nil _).symm⟩
  | write _ hw ih =>
    obtain ⟨-, rfl⟩ := rbWrite_ok hw
    exact ih
  | read _ hr ih =>
    obtain ⟨-, -, rfl⟩ := rbRead_ok hr
    exact ih
  | reset _ ih => exact ih
  | beside _ hb ih =>
    obtain ⟨before, hbefore⟩ := ih
    obtain ⟨after, hafter⟩ := hb.trace
    exact ⟨before ++ after, by rw [hafter, hbefore, List.append_assoc]⟩

/-! ## The storage, the cursors and the clock -/

/-- The part of `State.Inv` that every link of a chain keeps: all of it but the clause on the operation in progress. -/
structure State.StoreInv (s : State) : Prop where
  cfg : s.cfg.Wf
  memWf : s.mem.wf = true
  memWithin : s.mem.within s.cfg.capacity = true
  headRange : s.head < s.cfg.capacity
  tailRange : s.tail < s.cfg.capacity
  fillRange : s.fill ≤ s.cfg.capacity
  clockIdle : s.sck = true
  cursors : s.fault = none → s.tail = (s.head + s.fill) % s.cfg.capacity
  written : s.fault = none →
    ∀ k, k < s.fill → (s.mem.read ((s.head + k) % s.cfg.capacity)).isSome = true

/-- An operation in progress waits for the stream of `LOOPBACK` (R137, R266). -/
def State.WaitsForStream (s : State) : Prop :=
  s.busy = true → s.cfg.mode = .loopback ∧ s.xchg.isSome = true

theorem State.inv_iff (s : State) : s.Inv ↔ s.StoreInv ∧ s.WaitsForStream :=
  ⟨fun h => ⟨⟨h.cfg, h.memWf, h.memWithin, h.headRange, h.tailRange, h.fillRange, h.clockIdle,
      h.cursors, h.written⟩, h.waiting⟩,
    fun ⟨h, hw⟩ => ⟨h.cfg, h.memWf, h.memWithin, h.headRange, h.tailRange, h.fillRange,
      h.clockIdle, hw, h.cursors, h.written⟩⟩

theorem State.StoreInv.beside {s t : State} (hs : s.StoreInv) (hb : s.BesideFifo t) :
    t.StoreInv where
  cfg := hb.cfg ▸ hs.cfg
  memWf := hb.mem ▸ hs.memWf
  memWithin := by rw [hb.mem, hb.cfg]; exact hs.memWithin
  headRange := by rw [hb.head, hb.cfg]; exact hs.headRange
  tailRange := by rw [hb.tail, hb.cfg]; exact hs.tailRange
  fillRange := by rw [hb.fill, hb.cfg]; exact hs.fillRange
  clockIdle := hb.clock.elim (·.trans hs.clockIdle) id
  cursors := by rw [hb.fault, hb.tail, hb.head, hb.fill, hb.cfg]; exact hs.cursors
  written := by rw [hb.fault, hb.head, hb.fill, hb.mem, hb.cfg]; exact hs.written

/-- A reset leaves an empty queue, whatever it held (R113). -/
theorem State.StoreInv.reset {s : State} (hs : s.StoreInv) : (rbReset s).StoreInv where
  cfg := hs.cfg
  memWf := hs.memWf
  memWithin := hs.memWithin
  headRange := hs.cfg.1
  tailRange := hs.cfg.1
  fillRange := Nat.zero_le _
  clockIdle := hs.clockIdle
  cursors := fun _ => (Nat.zero_mod _).symm
  written := fun _ k hk => absurd hk (Nat.not_lt_zero k)

/-- A write that records no fault found none, and room for its byte (R111). -/
theorem State.ghostWrite_faultFree {s : State} (h : s.ghostWrite.fault = none) :
    s.fault = none ∧ s.fill ≠ s.cfg.capacity ∧ s.ghostWrite.fill = s.fill + 1 := by
  rcases s.ghostWrite_cases with ⟨-, -, -, hf⟩ | ⟨hn, hc, hfill, -⟩ | ⟨hn, -, hf⟩
  · rw [hf] at h; cases h
  · exact ⟨hn, hc, hfill⟩
  · exact absurd (hf.symm.trans h) hn

/-- A read that records no fault found none, and a byte to read (R112). -/
theorem State.ghostRead_faultFree {s : State} {p : Option Nat} (h : (s.ghostRead p).fault = none) :
    s.fault = none ∧ s.fill ≠ 0 ∧ (s.ghostRead p).fill = s.fill - 1 := by
  rcases s.ghostRead_cases p with ⟨-, -, -, hf⟩ | ⟨hn, hc, hfill, -⟩ | ⟨hn, -, hf⟩
  · rw [hf] at h; cases h
  · exact ⟨hn, hc, hfill⟩
  · exact absurd (hf.symm.trans h) hn

theorem State.ghostWrite_fill_le {s : State} (h : s.fill ≤ s.cfg.capacity) :
    s.ghostWrite.fill ≤ s.cfg.capacity := by
  rcases s.ghostWrite_cases with ⟨-, -, hfill, -⟩ | ⟨-, hc, hfill, -⟩ | ⟨-, hfill, -⟩ <;> omega

theorem State.ghostRead_fill_le (s : State) (p : Option Nat) : (s.ghostRead p).fill ≤ s.fill := by
  rcases s.ghostRead_cases p with ⟨-, -, hfill, -⟩ | ⟨-, -, hfill, -⟩ | ⟨-, hfill, -⟩ <;> omega

/-- The cursor `k` cells on moves one cell on with the next access (R34, R70). -/
theorem nextCursor_mod (capacity x k : Nat) :
    nextCursor capacity ((x + k) % capacity) = (x + (k + 1)) % capacity := by
  rw [nextCursor, Nat.mod_add_mod, Nat.add_assoc]

/-- The byte written stands at the end of the queue; the cells queued before stay written (R34, R35). -/
theorem State.StoreInv.write {s t : State} {b : Byte} (hs : s.StoreInv)
    (hw : rbWrite b s = .ok t) : t.StoreInv := by
  obtain ⟨htail, rfl⟩ := rbWrite_ok hw
  refine
    { cfg := hs.cfg
      memWf := Memory.wf_write _ _ _ hs.memWf
      memWithin := Memory.within_write _ _ _ _ htail hs.memWithin
      headRange := hs.headRange
      tailRange := nextCursor_lt _ _ hs.cfg.1
      fillRange := State.ghostWrite_fill_le hs.fillRange
      clockIdle := hs.clockIdle
      cursors := fun hfree => ?_
      written := fun hfree k hk => ?_ }
  · obtain ⟨hnone, -, hfill⟩ := State.ghostWrite_faultFree hfree
    simp only [hfill]
    rw [hs.cursors hnone, nextCursor_mod]
  · obtain ⟨hnone, -, hfill⟩ := State.ghostWrite_faultFree hfree
    have hle : k ≤ s.fill := by simp only [hfill] at hk; omega
    simp only [Memory.read_write]
    split
    · rfl
    · next hne =>
      have hlt : k < s.fill := by
        refine lt_of_le_of_ne hle fun hk => hne ?_
        rw [hk, hs.cursors hnone]
      exact hs.written hnone k hlt

/-- The queue loses its first cell; the others stay as they are (R34, R35). -/
theorem State.StoreInv.read {s t : State} {p : Option Nat} {v : Byte} (hs : s.StoreInv)
    (hr : rbRead p s = .ok (v, t)) : t.StoreInv := by
  obtain ⟨-, -, rfl⟩ := rbRead_ok hr
  refine
    { cfg := hs.cfg
      memWf := hs.memWf
      memWithin := hs.memWithin
      headRange := nextCursor_lt _ _ hs.cfg.1
      tailRange := hs.tailRange
      fillRange := (s.ghostRead_fill_le p).trans hs.fillRange
      clockIdle := hs.clockIdle
      cursors := fun hfree => ?_
      written := fun hfree k hk => ?_ }
  · obtain ⟨hnone, hpos, hfill⟩ := State.ghostRead_faultFree hfree
    simp only [hfill, nextCursor_add]
    rw [hs.cursors hnone, Nat.sub_add_cancel (Nat.one_le_iff_ne_zero.mpr hpos)]
  · obtain ⟨hnone, -, hfill⟩ := State.ghostRead_faultFree hfree
    simp only [hfill] at hk
    simp only [nextCursor_add]
    exact hs.written hnone (k + 1) (by omega)

theorem State.Evolves.storeInv {s t : State} (h : s.Evolves t) (hs : s.StoreInv) : t.StoreInv := by
  induction h with
  | refl => exact hs
  | write _ hw ih => exact ih.write hw
  | read _ hr ih => exact ih.read hr
  | reset _ ih => exact ih.reset
  | beside _ hb ih => exact ih.beside hb

/-! ## The operation in progress -/

theorem State.waitsForStream_of_not_busy {s : State} (hx : s.xchg = none) (hf : s.framer = none) :
    s.WaitsForStream := by
  intro hb
  rw [s.busy_eq_false_iff.mpr ⟨hx, hf⟩] at hb
  cases hb

/-- An exchange that completes leaves the field of the exchange in progress alone. -/
theorem continueExchange_some {x : Exchange} {r : Byte} {s t : State}
    (h : continueExchange x s = (some r, t)) : t.xchg = s.xchg ∧ t.framer = s.framer := by
  unfold continueExchange at h
  split at h
  · rw [(linkBits_eq x.bit x s).2] at h
    cases h
    exact ⟨rfl, rfl⟩
  · split at h
    · cases h
    · cases h; exact ⟨rfl, rfl⟩

/-- An exchange that does not complete waits in `LOOPBACK` (R137, R138). -/
theorem continueExchange_none {x : Exchange} {s t : State}
    (h : continueExchange x s = (none, t)) : t.cfg.mode = .loopback ∧ t.xchg.isSome = true := by
  unfold continueExchange at h
  split at h
  · cases h
  · next hm =>
    split at h
    · cases h; exact ⟨hm, rfl⟩
    · cases h

theorem exchange_some {b r : Byte} {s t : State} (h : exchange b s = (some r, t)) :
    t.xchg = s.xchg ∧ t.framer = s.framer := by
  obtain ⟨u, he, -, hx, hf⟩ := exchange_eq_continueExchange b s
  obtain ⟨hxt, hft⟩ := continueExchange_some (he ▸ h)
  exact ⟨hxt.trans hx, hft.trans hf⟩

theorem exchange_none {b : Byte} {s t : State} (h : exchange b s = (none, t)) :
    t.cfg.mode = .loopback ∧ t.xchg.isSome = true := by
  obtain ⟨u, he, -, -, -⟩ := exchange_eq_continueExchange b s
  exact continueExchange_none (he ▸ h)

/-- A framer run from a state with nothing in progress completes its packet or waits for the stream (R161, R266). -/
theorem framerRun_waitsForStream {n : Nat} {f : Framer} {s t : State} (hs : f.sound)
    (hn : f.left ≤ n) (hx : s.xchg = none) (hf : s.framer = none)
    (h : framerRun n f s = .ok t) : t.WaitsForStream := by
  rcases framerRun_ends n f s t hs hn hx hf h with ⟨hft, hxt, -⟩ | ⟨hm, -, hxt, -, -⟩
  · exact State.waitsForStream_of_not_busy hxt hft
  · exact fun _ => ⟨(framerRun_evolves h).cfg_eq ▸ hm, hxt⟩

theorem exec_waitsForStream {i : Instr} {s t : State} (h : exec i s = .next t) :
    t.WaitsForStream := by
  rcases exec_cases h with ⟨b, -, hw⟩ | ⟨v, u, -, hr, rfl⟩ | ⟨-, rfl⟩ | ⟨b, r, u, -, he, rfl⟩ |
    ⟨b, -, he⟩ | ⟨cmd, len, -, hp⟩
  · obtain ⟨-, rfl⟩ := rbWrite_ok hw
    exact State.waitsForStream_of_not_busy rfl rfl
  · obtain ⟨-, -, rfl⟩ := rbRead_ok hr
    exact State.waitsForStream_of_not_busy rfl rfl
  · exact State.waitsForStream_of_not_busy rfl rfl
  · obtain ⟨hx, hf⟩ := exchange_some he
    exact State.waitsForStream_of_not_busy hx hf
  · exact fun _ => exchange_none he
  · exact framerRun_waitsForStream (Framer.start_sound cmd len) (Framer.left_le _) rfl rfl hp

/-- An operation in progress that waits for the stream returns, or goes on to wait again. -/
theorem resume_waitsForStream {s t : State} (hs : s.WaitsForStream) (h : resume s = .ok t) :
    t.WaitsForStream := by
  cases resume_resumes h with
  | waits _ hc => exact fun _ => continueExchange_none hc
  | returnsByte _ hc hf =>
    exact State.waitsForStream_of_not_busy (continueExchange_some hc).1 hf
  | returnsStatus _ hc _ _ =>
    exact State.waitsForStream_of_not_busy (continueExchange_some hc).1 rfl
  | @goesOn _ _ u _ _ _ _ hc _ hn hg =>
    exact framerRun_waitsForStream (s := { u with framer := none }) (framerNext_sound hn)
      (Framer.left_le _) (continueExchange_some hc).1 rfl hg
  | runsFramer hx hf _ =>
    have hwait := (hs (by simp [State.busy, hf])).2
    simp [hx] at hwait
  | nothing => exact hs

theorem State.WaitsForStream.sameBlock {s t : State} (hs : s.WaitsForStream)
    (h : s.sameBlock t) : t.WaitsForStream := by
  unfold State.sameBlock at h
  rw [h]
  exact hs

theorem step_waitsForStream {s t : State} (hs : s.WaitsForStream) (h : step s = .next t) :
    t.WaitsForStream := by
  rcases step_cases h with ⟨-, hr⟩ | ⟨-, -, rfl⟩ | ⟨-, bytes, rest, i, -, -, he⟩
  · exact resume_waitsForStream hs hr
  · exact hs.sameBlock (sameBlock_controllerMove s)
  · exact exec_waitsForStream he

/-! ## The queue content -/

/-- The cells of a queue that is not full are not the cell at `tail` (R34). -/
theorem queue_cell_ne_tail {capacity fill k : Nat} (head : Nat) (hk : k < fill)
    (hfill : fill < capacity) : (head + k) % capacity ≠ (head + fill) % capacity := by
  intro h
  have hmod : k ≡ fill [MOD capacity] := Nat.ModEq.add_left_cancel' head h
  exact absurd (hmod.eq_of_lt_of_lt (hk.trans hfill) hfill) hk.ne

/-- A write with room in the FIFO appends its byte to the queue (R35, R111). -/
theorem rbWrite_queue {s t : State} {b : Byte} (hs : s.StoreInv) (hnone : s.fault = none)
    (hroom : s.fill < s.cfg.capacity) (hw : rbWrite b s = .ok t) :
    t.queue = s.queue ++ [b] ∧ t.fault = none := by
  have hghost : s.ghostWrite = { s with fill := s.fill + 1 } := by
    simp [State.ghostWrite, hnone, hroom.ne]
  obtain ⟨-, rfl⟩ := rbWrite_ok hw
  refine ⟨?_, by rw [hghost]; exact hnone⟩
  have hlast : (Memory.write s.mem s.tail b).read ((s.head + s.fill) % s.cfg.capacity) = some b := by
    rw [← hs.cursors hnone, Memory.read_write_same]
  have hothers : ∀ k ∈ List.range s.fill,
      (Memory.write s.mem s.tail b).read ((s.head + k) % s.cfg.capacity) =
        s.mem.read ((s.head + k) % s.cfg.capacity) := by
    intro k hk
    refine Memory.read_write_other _ _ _ _ ?_
    rw [hs.cursors hnone]
    exact queue_cell_ne_tail s.head (List.mem_range.mp hk) hroom
  simp only [State.queue, State.cell, hghost, List.range_succ, List.map_append, List.map_singleton,
    hlast, Option.getD_some]
  congr 1
  exact List.map_congr_left fun k hk => by rw [hothers k hk]

/-- A read of a queue that is not empty hands back its first byte and leaves the others (R35, R112). -/
theorem rbRead_queue (p : Option Nat) {s : State} {v : Byte} {q : List Byte}
    (hhead : s.head < s.cfg.capacity) (hnone : s.fault = none) (hq : s.queue = v :: q) :
    ∃ t, rbRead p s = .ok (v, t) ∧ t.queue = q ∧ t.fault = none := by
  have hpos : s.fill ≠ 0 := by
    rw [← s.queue_length, hq]
    exact Nat.succ_ne_zero _
  obtain ⟨rfl, rfl⟩ := List.cons.inj (hq.symm.trans (s.queue_cons hpos hhead))
  exact ⟨_, rbRead_faultFree p s hhead hnone hpos, rfl, hnone⟩

/-! ## The width of a cursor -/

/-- `W` bits number every cell of the storage (R8, R22). -/
theorem capacity_le_two_pow_cursorWidth (c : Config) : c.capacity ≤ 2 ^ c.cursorWidth := by
  unfold Config.cursorWidth
  split
  · simpa
  · have := Nat.lt_log2_self (n := c.capacity - 1)
    omega

/-! ## The obligations of spec/10_state.md -/

/-- Settles O37: the chain of a step keeps the storage, and each kind of step leaves at most an operation that waits for
the stream. -/
theorem everyStepKeepsInvariant : Obligations.EveryStepKeepsInvariant := by
  intro s t hs h
  obtain ⟨hstore, hwaits⟩ := s.inv_iff.mp hs
  exact t.inv_iff.mpr ⟨(step_evolves h).storeInv hstore, step_waitsForStream hwaits h⟩

/-- Settles O12: issuing an operation leaves the queue, and then `RBWR`, `RBRD` and `RBRST` are one write, one read and
one reset of it. -/
theorem queueContent : Obligations.QueueContent := by
  intro s hs hnone
  have hstore : s.issue.StoreInv := (s.inv_iff.mp hs).1.beside s.besideFifo_issue
  refine ⟨fun b hroom => ?_, fun v q hq => ?_, rbReset s.issue, rfl, rfl, hnone⟩
  · obtain ⟨t, ht⟩ := rbWrite_of_lt b s.issue hs.tailRange
    exact ⟨t, answer_next.mpr ht, rbWrite_queue (s := s.issue) hstore hnone hroom ht⟩
  · obtain ⟨t, hr, hqueue, hfault⟩ := rbRead_queue none (s := s.issue) hs.headRange hnone hq
    exact ⟨t.handBack (.byte v), by simp only [exec, execRbrd, hr], rfl, hqueue, hfault⟩

/-- Settles O31: no link of a step's chain replaces a recorded fault. -/
theorem recordedFaultIsKept : Obligations.RecordedFaultIsKept :=
  fun _ _ _ hs h => (step_evolves h).fault_kept hs

/-- Settles O32: no link of a step's chain changes the configuration. -/
theorem configurationIsFixed : Obligations.ConfigurationIsFixed :=
  fun _ _ h => (step_evolves h).cfg_eq

/-- Settles O33: every link of a step's chain at most appends to the trace. -/
theorem traceOnlyGrows : Obligations.TraceOnlyGrows :=
  ⟨fun _ _ => rfl, fun _ _ h => (step_evolves h).trace_append⟩

/-- Settles O38: the cursors are below `C`, and `C` is at most `2 ^ W`. -/
theorem cursorsFitTheirWidth : Obligations.CursorsFitTheirWidth :=
  fun s hs => ⟨hs.headRange.trans_le (capacity_le_two_pow_cursorWidth s.cfg),
    hs.tailRange.trans_le (capacity_le_two_pow_cursorWidth s.cfg)⟩

/-- Settles O35: the reset state is written out in the model, with the defaults of R8. -/
theorem resetState : Obligations.ResetState :=
  ⟨fun _ _ => ⟨rfl, rfl, fun _ => rfl, rfl, rfl, rfl, rfl, rfl, rfl, rfl, rfl, rfl⟩,
    rfl, rfl, by decide⟩

/-- After hardware reset the FIFO is empty, the clock at 1 and nothing in progress (R36). -/
theorem State.inv_resetWith {cfg : Config} (boot : Nat) (h : cfg.Wf) :
    (State.resetWith cfg boot).Inv where
  cfg := h
  memWf := rfl
  memWithin := rfl
  headRange := h.1
  tailRange := h.1
  fillRange := Nat.zero_le _
  clockIdle := rfl
  waiting := State.waitsForStream_of_not_busy rfl rfl
  cursors := fun _ => (Nat.zero_mod _).symm
  written := fun _ k hk => absurd hk (Nat.not_lt_zero k)

theorem default_wf : Config.default.Wf := by decide

/-- Settles O36: the defaults of R8 are one of the legal configurations. -/
theorem invariantAtReset : Obligations.InvariantAtReset :=
  ⟨fun _ boot h => State.inv_resetWith boot h, State.inv_resetWith 0 default_wf⟩

end Sys2Proof.Machine
end

section
/-! SUPPORT. The statements of spec/20_memory.md. Which instructions can reach the storage is said once, by what a read,
an exchange and a framer's run leave unchanged. That a peer cannot reach the FIFO is two arguments: in `LINK` every
packet's effect is a function of the state without the peer's levels (`State.SentOnLink`); in `LOOPBACK` two runs
go in step, exchange by exchange (`State.InStep`). -/

namespace Sys2Proof.Machine

/-! ## What leaves the storage alone -/

/-- Storage, `tail` and all that no operation touches are as they were (R51, R110). -/
structure State.SameStorage (s t : State) : Prop where
  mem : t.mem = s.mem := by rfl
  tail : t.tail = s.tail := by rfl
  outside : s.sameOutside t := by exact ⟨rfl, rfl, rfl, rfl⟩

theorem State.SameStorage.trans {s t u : State} (hst : s.SameStorage t) (htu : t.SameStorage u) :
    s.SameStorage u := by
  obtain ⟨hcfg, hpending, hctl, hboot⟩ := hst.outside
  obtain ⟨hcfg', hpending', hctl', hboot'⟩ := htu.outside
  exact ⟨htu.mem.trans hst.mem, htu.tail.trans hst.tail, hcfg'.trans hcfg,
    hpending'.trans hpending, hctl'.trans hctl, hboot'.trans hboot⟩

theorem State.SameStorage.sameMemory {s t : State} (h : s.SameStorage t) : s.sameMemory t :=
  fun a => congrArg (Memory.read · a) h.mem

theorem State.sameStorage_issue (s : State) : s.SameStorage s.issue := {}

theorem State.sameStorage_handBack (s : State) (r : Reply) : s.SameStorage (s.handBack r) := {}

theorem rbRead_sameStorage {p : Option Nat} {v : Byte} {s t : State} (h : rbRead p s = .ok (v, t)) :
    s.SameStorage t := by
  obtain ⟨-, -, rfl⟩ := rbRead_ok h
  exact {}

theorem exchange_sameStorage {b : Byte} {o : Option Byte} {s t : State}
    (h : exchange b s = (o, t)) : s.SameStorage t := by
  obtain rfl : (exchange b s).2 = t := congrArg Prod.snd h
  rw [exchange_keeps]
  exact {}

theorem framerRun_sameStorage {n : Nat} {f : Framer} {s t : State} (h : framerRun n f s = .ok t) :
    s.SameStorage t :=
  framerRun_preserves s.SameStorage
    (fun _ _ _ _ hs hr => hs.trans (rbRead_sameStorage hr))
    (fun _ _ hs => hs.trans (exchange_sameStorage rfl))
    (fun _ _ hs => hs.trans {})
    (fun r u hs => hs.trans (u.sameStorage_handBack r))
    n f s t {} h

/-- Every instruction but `RBWR` and `RBRST` leaves the storage and `tail` (R51, R110). -/
theorem exec_sameStorage {i : Instr} {s t : State} (hw : ∀ b, i ≠ .rbwr b) (hr : i ≠ .rbrst)
    (h : exec i s = .next t) : s.SameStorage t := by
  refine s.sameStorage_issue.trans ?_
  rcases exec_cases h with ⟨b, hi, -⟩ | ⟨v, u, -, hread, rfl⟩ | ⟨hi, -⟩ | ⟨b, r, u, -, he, rfl⟩ |
    ⟨b, -, he⟩ | ⟨cmd, len, -, hp⟩
  · exact absurd hi (hw b)
  · exact (rbRead_sameStorage hread).trans (u.sameStorage_handBack _)
  · exact absurd hi hr
  · exact (exchange_sameStorage he).trans (u.sameStorage_handBack _)
  · exact exchange_sameStorage he
  · exact framerRun_sameStorage hp

theorem exec_rbwr_sameOutside {b : Byte} {s t : State} (h : exec (.rbwr b) s = .next t) :
    s.sameOutside t := by
  obtain ⟨-, rfl⟩ := rbWrite_ok (answer_next.mp h)
  exact ⟨rfl, rfl, rfl, rfl⟩

theorem exec_rbrst_eq {s t : State} (h : exec .rbrst s = .next t) : t = rbReset s.issue := by
  cases h
  rfl

/-- An exchange moves neither cursor and counts no access (R51). -/
theorem exchange_sameFifo {b : Byte} {o : Option Byte} {s t : State}
    (h : exchange b s = (o, t)) : s.sameFifo t := by
  obtain rfl : (exchange b s).2 = t := congrArg Prod.snd h
  rw [exchange_keeps]
  exact ⟨fun _ => rfl, rfl, rfl, rfl, rfl⟩

theorem exec_xchg_sameFifo {b : Byte} {s t : State} (h : exec (.xchg b) s = .next t) :
    s.sameFifo t := by
  rw [exec, execXchg] at h
  split at h
  · next r u he =>
    cases h
    have hfifo : s.issue.sameFifo u := exchange_sameFifo he
    exact hfifo
  · next u he =>
    cases h
    have hfifo : s.issue.sameFifo t := exchange_sameFifo he
    exact hfifo

/-- Settles O30: `RBWR` and `RBRST` are looked at one by one; every other instruction leaves the storage. -/
theorem onlyFifoOperationsReachTheFifo : Obligations.OnlyFifoOperationsReachTheFifo := by
  intro i s t h
  by_cases hw : ∃ b, i = .rbwr b
  · obtain ⟨b, rfl⟩ := hw
    exact ⟨fun hne => absurd rfl (hne b), fun hne => absurd rfl (hne b), by simp,
      exec_rbwr_sameOutside h⟩
  · have hne : ∀ b, i ≠ .rbwr b := fun b hb => hw ⟨b, hb⟩
    by_cases hr : i = .rbrst
    · subst hr
      rw [exec_rbrst_eq h]
      exact ⟨fun _ _ => rfl, fun _ hne => absurd rfl hne, by simp, rfl, rfl, rfl, rfl⟩
    · have hs := exec_sameStorage hne hr h
      exact ⟨fun _ => hs.sameMemory, fun _ _ => hs.tail,
        fun b hb => exec_xchg_sameFifo (hb ▸ h), hs.outside⟩

/-! ## What two runs agree on -/

/-- Storage, cursors, `fill`, `fault` and the output lines are the same (R68). -/
structure State.SameButPeer (t u : State) : Prop where
  mem : t.mem = u.mem := by rfl
  head : t.head = u.head := by rfl
  tail : t.tail = u.tail := by rfl
  fill : t.fill = u.fill := by rfl
  fault : t.fault = u.fault := by rfl
  sck : t.sck = u.sck := by rfl
  sout : t.sout = u.sout := by rfl

/-- The events that `t` and `u` add to a trace say the same under a view of events. -/
def State.addSame {α : Type} (view : List Event → List α) (before : List Event) (t u : State) :
    Prop :=
  ∃ e1 e2, t.trace = before ++ e1 ∧ u.trace = before ++ e2 ∧ view e1 = view e2

theorem State.addSame_of_trace_eq {α : Type} {view : List Event → List α} {before : List Event}
    {t u : State} (ht : t.trace = before) (hu : u.trace = before) :
    State.addSame view before t u :=
  ⟨[], [], by rw [ht, List.append_nil], by rw [hu, List.append_nil], rfl⟩

/-- An instruction is one of the FIFO, an exchange, or a packet. -/
theorem instr_kinds (i : Instr) :
    isFifoOp i = true ∨ (∃ b, i = .xchg b) ∨ ∃ cmd len, packetOf i = some (cmd, len) := by
  cases i with
  | rbwr _ => exact .inl rfl
  | rbrd => exact .inl rfl
  | rbrst => exact .inl rfl
  | xchg b => exact .inr (.inl ⟨b, rfl⟩)
  | sendpkt cmd len => exact .inr (.inr ⟨_, _, rfl⟩)
  | wireInitialize len => exact .inr (.inr ⟨_, _, rfl⟩)
  | wirePrint len => exact .inr (.inr ⟨_, _, rfl⟩)
  | wireTransfer len => exact .inr (.inr ⟨_, _, rfl⟩)
  | wireReport len => exact .inr (.inr ⟨_, _, rfl⟩)

/-! ## The FIFO operations do not see the peer -/

/-- `s` before other peers, with another trace and another result. -/
def State.facing (levels : List Level) (bytes : List Byte) (tr : List Event) (r : Option Reply)
    (s : State) : State :=
  { s with sinIn := levels, streamIn := bytes, trace := tr, result := r }

section Facing

variable (levels : List Level) (bytes : List Byte) (tr : List Event) (r : Option Reply) (s : State)

theorem State.ghostWrite_facing :
    (s.facing levels bytes tr r).ghostWrite = s.ghostWrite.facing levels bytes tr r := by
  cases hf : s.fault with
  | some _ => simp [State.ghostWrite, State.facing, hf]
  | none =>
    by_cases hc : s.fill = s.cfg.capacity <;>
      simp [State.ghostWrite, State.raise, State.facing, hf, hc]

theorem State.ghostRead_facing (p : Option Nat) :
    (s.facing levels bytes tr r).ghostRead p = (s.ghostRead p).facing levels bytes tr r := by
  cases hf : s.fault with
  | some _ => simp [State.ghostRead, State.facing, hf]
  | none =>
    by_cases hc : s.fill = 0 <;> simp [State.ghostRead, State.raise, State.facing, hf, hc]

theorem rbWrite_facing {b : Byte} {s t : State} (h : rbWrite b s = .ok t) :
    rbWrite b (s.facing levels bytes tr r) = .ok (t.facing levels bytes tr r) := by
  obtain ⟨hlt, rfl⟩ := rbWrite_ok h
  obtain ⟨u, hu⟩ := rbWrite_of_lt b (s.facing levels bytes tr r) hlt
  rw [hu, (rbWrite_ok hu).2, State.ghostWrite_facing]
  rfl

/-- A read hands back the same byte, after a recorded fault too (R112). -/
theorem rbRead_facing {p : Option Nat} {v : Byte} {s t : State} (h : rbRead p s = .ok (v, t)) :
    rbRead p (s.facing levels bytes tr r) = .ok (v, t.facing levels bytes tr r) := by
  obtain ⟨hlt, rfl, rfl⟩ := rbRead_ok h
  obtain ⟨w, u, hu⟩ := rbRead_of_lt p (s.facing levels bytes tr r) hlt
  obtain ⟨-, hw, hu'⟩ := rbRead_ok hu
  rw [hu, hw, hu', State.ghostRead_facing]
  rfl

end Facing

/-- A FIFO operation drives no line and runs alike before every peer (R51, R68). -/
theorem exec_fifo_facing {i : Instr} {s t : State} (hi : isFifoOp i = true)
    (h : exec i s = .next t) (levels : List Level) (bytes : List Byte) :
    t.trace = s.trace ∧ t.sinIn = s.sinIn ∧
      exec i (s.facing levels bytes s.trace s.result) =
        .next (t.facing levels bytes s.trace t.result) := by
  cases i with
  | rbwr b =>
    have hw : rbWrite b s.issue = .ok t := answer_next.mp h
    have hfacing := rbWrite_facing levels bytes s.trace none hw
    obtain ⟨-, rfl⟩ := rbWrite_ok hw
    exact ⟨rfl, rfl, answer_next.mpr hfacing⟩
  | rbrd =>
    rw [exec, execRbrd] at h
    split at h
    · next v u hr =>
      cases h
      have hfacing := rbRead_facing levels bytes s.trace none hr
      obtain ⟨-, -, hu⟩ := rbRead_ok hr
      refine ⟨by rw [hu]; rfl, by rw [hu]; rfl, ?_⟩
      have hissue : (s.facing levels bytes s.trace s.result).issue =
          s.issue.facing levels bytes s.trace none := rfl
      rw [exec, execRbrd, hissue, hfacing]
      rfl
    · cases h
  | rbrst =>
    obtain rfl := exec_rbrst_eq h
    exact ⟨rfl, rfl, rfl⟩
  | _ => cases hi

/-! ## `LINK` -/

/-- What a packet in `LINK` leaves, written without the peer: the lines at 1 and 0, `head` and `fill` moved and an
underrun recorded as the length and `fill` say, and, free of fault, the levels of the packet's bytes on `SOUT`
(R151, R159). -/
structure State.SentOnLink (cmd : Byte) (len : Half) (s t : State) : Prop where
  mem : t.mem = s.mem
  head : t.head = if len = 0#16 then s.head else (s.head + len.toNat) % s.cfg.capacity
  tail : t.tail = s.tail
  fill : t.fill = if s.fault = none then s.fill - len.toNat else s.fill
  fault : t.fault =
    if s.fault = none ∧ s.fill < len.toNat then
      some { kind := .fifoUnderrun, op := s.issued, payload := some s.fill }
    else s.fault
  sck : t.sck = true
  sout : t.sout = false
  levels : ∃ e, t.trace = s.trace ++ e ∧
    (t.fault = none →
      soutLevels e = (packetBytes cmd len (s.queue.take len.toNat)).flatMap bitLevels)

theorem Drained.fill_eq {s t : State} {k0 : Nat} {p out : List Byte} (h : Drained s t k0 p out) :
    t.fill = if s.fault = none then s.fill - p.length else s.fill := by
  split
  · next hnone =>
    rcases Nat.lt_or_ge s.fill p.length with hlt | hge
    · rw [(h.short hnone hlt).2]
      omega
    · exact (h.held hnone hge).2
  · next hsome => exact (h.kept hsome).2

theorem Drained.fault_eq {s t : State} {k0 : Nat} {p out : List Byte} (h : Drained s t k0 p out) :
    t.fault =
      if s.fault = none ∧ s.fill < p.length then
        some { kind := .fifoUnderrun, op := s.issued, payload := some (k0 + s.fill) }
      else s.fault := by
  split
  · next hshort => exact (h.short hshort.1 hshort.2).1
  · next hother =>
    by_cases hnone : s.fault = none
    · have hge : p.length ≤ s.fill := Nat.le_of_not_lt fun hlt => hother ⟨hnone, hlt⟩
      rw [(h.held hnone hge).1, hnone]
    · exact (h.kept hnone).1

/-- A run that records no fault drew the queued bytes. -/
theorem Drained.payload_eq {s t : State} {k0 : Nat} {p out : List Byte} (h : Drained s t k0 p out)
    (hfree : t.fault = none) : p = s.queue.take p.length := by
  have hnone : s.fault = none := by
    by_contra hsome
    exact hsome ((h.kept hsome).1.symm.trans hfree)
  have hge : p.length ≤ s.fill := by
    refine Nat.le_of_not_lt fun hlt => ?_
    rw [(h.short hnone hlt).1] at hfree
    cases hfree
  rw [← h.bytes hnone, List.take_of_length_le hge]

theorem sendPacket_sentOnLink {cmd : Byte} {len : Half} {s t : State} (hm : s.cfg.mode = .link)
    (h : sendPacket cmd len s = .ok t) : s.SentOnLink cmd len t := by
  have hh : len = 0#16 ∨ s.head < s.cfg.capacity := by
    by_contra hout
    obtain ⟨hl, hcap⟩ := not_or.mp hout
    rw [sendPacket_link_outside cmd len s hm hl (Nat.le_of_not_lt hcap)] at h
    cases h
  obtain ⟨p, u, w, hlen, hd, hsck, hsout, hsend⟩ := sendPacket_link_any cmd len s hm hh
  obtain rfl := Except.ok.inj (hsend.symm.trans h)
  have hfill := hd.fill_eq
  have hfault := hd.fault_eq
  rw [hlen] at hfill hfault
  rw [Nat.zero_add] at hfault
  refine ⟨hd.rest.mem, ?_, hd.rest.tail, hfill, hfault, hsck, hsout, ?_⟩
  · split
    · next h0 => exact hd.nothing (List.length_eq_zero_iff.mp (by rw [hlen, h0]; rfl))
    · next h0 => rw [← hlen]; exact hd.head (hh.resolve_left h0)
  · obtain ⟨ls, hls, htrace⟩ := hd.trace
    refine ⟨_, htrace, fun hfree => ?_⟩
    rw [(sendEvents_views _ _ _ hls).2.1, ← hlen, ← hd.payload_eq hfree]

theorem State.SentOnLink.agree {cmd : Byte} {len : Half} {s t u : State} {levels : List Level}
    (ht : s.SentOnLink cmd len t) (hu : State.SentOnLink cmd len { s with sinIn := levels } u) :
    t.SameButPeer u ∧ (t.fault = none → State.addSame soutLevels s.trace t u) := by
  have hfault : t.fault = u.fault := ht.fault.trans hu.fault.symm
  obtain ⟨e1, htrace, hlevels⟩ := ht.levels
  obtain ⟨e2, hutrace, hulevels⟩ := hu.levels
  refine ⟨⟨ht.mem.trans hu.mem.symm, ht.head.trans hu.head.symm, ht.tail.trans hu.tail.symm,
    ht.fill.trans hu.fill.symm, hfault, ht.sck.trans hu.sck.symm, ht.sout.trans hu.sout.symm⟩,
    fun hfree => ⟨e1, e2, htrace, hutrace, ?_⟩⟩
  exact (hlevels hfree).trans (hulevels (hfault ▸ hfree)).symm

/-- `XCHG` in `LINK` always returns (R137). -/
theorem exec_xchg_link {b : Byte} {s : State} (hm : s.cfg.mode = .link) :
    exec (.xchg b) s =
      .next ((s.issue.linked b).handBack (.byte s.issue.nextReply)) := by
  rw [exec, execXchg, exchange_link b s.issue hm]

theorem linked_agree (b : Byte) (s : State) (levels : List Level) :
    (s.linked b).SameButPeer (State.linked b { s with sinIn := levels }) ∧
      State.addSame soutLevels s.trace (s.linked b) (State.linked b { s with sinIn := levels }) := by
  refine ⟨{}, _, _, rfl, rfl, ?_⟩
  rw [(linkEvents_views _ b _ (State.upcoming_length 8 _)).2.1,
    (linkEvents_views _ b _ (State.upcoming_length 8 _)).2.1]

/-- Two runs in `LINK` before different levels (R68). -/
theorem exec_link_agree {i : Instr} {s t u : State} {levels : List Level}
    (hm : s.cfg.mode = .link) (ht : exec i s = .next t)
    (hu : exec i { s with sinIn := levels } = .next u) :
    t.SameButPeer u ∧ (t.fault = none → State.addSame soutLevels s.trace t u) := by
  rcases instr_kinds i with hi | ⟨b, rfl⟩ | ⟨cmd, len, hi⟩
  · obtain ⟨htrace, -, hfacing⟩ := exec_fifo_facing hi ht levels s.streamIn
    obtain rfl := Host.Outcome.next.inj (hfacing.symm.trans hu)
    exact ⟨{}, fun _ => State.addSame_of_trace_eq htrace rfl⟩
  · obtain rfl := Host.Outcome.next.inj ((exec_xchg_link hm).symm.trans ht)
    obtain rfl := Host.Outcome.next.inj
      ((exec_xchg_link (s := { s with sinIn := levels }) hm).symm.trans hu)
    obtain ⟨hsame, hadd⟩ := linked_agree b s.issue levels
    exact ⟨⟨hsame.mem, hsame.head, hsame.tail, hsame.fill, hsame.fault, hsame.sck, hsame.sout⟩,
      fun _ => hadd⟩
  · rw [exec_packet hi] at ht hu
    have hst := sendPacket_sentOnLink (s := s.issue) hm (answer_next.mp ht)
    have hsu := sendPacket_sentOnLink (s := { s.issue with sinIn := levels }) hm
      (answer_next.mp hu)
    exact hst.agree hsu

/-! ## `LOOPBACK` -/

/-- `u` is `s` but for the bytes the stream supplies, those read from it, and the result (R68, R138). -/
def State.InStep (s u : State) : Prop :=
  ∃ bytes tr r, u = s.facing s.sinIn bytes tr r ∧ streamOuts tr = streamOuts s.trace

theorem streamOuts_append (a b : List Event) :
    streamOuts (a ++ b) = streamOuts a ++ streamOuts b := List.filterMap_append

theorem State.InStep.handBack {s u : State} (h : s.InStep u) (r r' : Reply) :
    (s.handBack r).InStep (u.handBack r') := by
  obtain ⟨bytes, tr, _, rfl, htr⟩ := h
  exact ⟨bytes, tr, some r', rfl, htr⟩

theorem State.InStep.sameButPeer {s u : State} (h : s.InStep u) : s.SameButPeer u := by
  obtain ⟨_, _, _, rfl, -⟩ := h
  exact {}

theorem State.InStep.sinIn_eq {s u : State} (h : s.InStep u) : s.sinIn = u.sinIn := by
  obtain ⟨_, _, _, rfl, -⟩ := h
  rfl

/-- An exchange over the stream that completes found a byte there (R138). -/
theorem exchange_loopback_some {b r : Byte} {s t : State} (hm : s.cfg.mode = .loopback)
    (h : exchange b s = (some r, t)) : ∃ rest, t = s.looped b r rest := by
  cases hs : s.streamIn with
  | nil =>
    rw [exchange_waits b s hm hs] at h
    cases h
  | cons r' rest =>
    rw [exchange_loopback b r' rest s hm hs] at h
    cases h
    exact ⟨rest, rfl⟩

/-- Two exchanges of the same byte stay in step, whatever the stream supplies (R138). -/
theorem exchange_inStep {s u t v : State} {b r r' : Byte} (h : s.InStep u)
    (hm : s.cfg.mode = .loopback) (ht : exchange b s = (some r, t))
    (hv : exchange b u = (some r', v)) : t.InStep v ∧ t.cfg.mode = .loopback := by
  obtain ⟨bytes, tr, res, rfl, htr⟩ := h
  obtain ⟨rest, rfl⟩ := exchange_loopback_some hm ht
  obtain ⟨rest', rfl⟩ := exchange_loopback_some (s := s.facing s.sinIn bytes tr res) hm hv
  refine ⟨⟨rest', tr ++ [.streamWrite b, .streamRead r'], res, rfl, ?_⟩, hm⟩
  rw [State.looped, streamOuts_append, streamOuts_append, htr]
  rfl

/-- Outside the payload phase the byte fetched depends neither on the state nor on the reply held (R87). -/
theorem framerFetch_outside_payload {f : Framer} {s : State} {b : Byte} (hp : f.phase ≠ .payload)
    (h : framerFetch f s = .ok (b, f, s)) (w : Byte) (u : State) :
    framerFetch { f with statHi := w } u = .ok (b, { f with statHi := w }, u) := by
  cases hphase : f.phase with
  | payload => exact absurd hphase hp
  | _ =>
    simp only [framerFetch, hphase, Except.ok.injEq, Prod.mk.injEq, and_true] at h ⊢
    exact h

/-- A fetch of the framer sees neither the peer nor the reply held (R157, R161). -/
theorem framerFetch_inStep {f f1 : Framer} {s u s1 : State} {b : Byte} (h : s.InStep u)
    (hs : framerFetch f s = .ok (b, f1, s1)) (w : Byte) :
    ∃ u1, framerFetch { f with statHi := w } u = .ok (b, { f1 with statHi := w }, u1) ∧
      s1.InStep u1 ∧ s1.cfg = s.cfg := by
  rcases framerFetch_cases hs with ⟨hp, rfl, rfl⟩ | ⟨hp, rfl, hr⟩
  · exact ⟨u, framerFetch_outside_payload hp hs w u, h, rfl⟩
  · obtain ⟨bytes, tr, res, rfl, htr⟩ := h
    have hfacing := rbRead_facing s.sinIn bytes tr res hr
    obtain ⟨-, -, hs1⟩ := rbRead_ok hr
    refine ⟨s1.facing s.sinIn bytes tr res, ?_, ⟨bytes, tr, res, ?_, ?_⟩, ?_⟩
    · simp only [framerFetch, hp, hfacing]
    · rw [hs1]
    · rw [hs1]; exact htr
    · rw [hs1]

/-- Where the framer goes on does not depend on the replies; only the reply it holds does (R156, R157). -/
theorem framerNext_replies (f : Framer) (w r r' : Byte) :
    (∃ g w', framerNext f r = .inl g ∧
      framerNext { f with statHi := w } r' = .inl { g with statHi := w' }) ∨
    (∃ x x', framerNext f r = .inr x ∧ framerNext { f with statHi := w } r' = .inr x') := by
  obtain ⟨cmd, len, csum, rem, phase, statHi⟩ := f
  cases phase with
  | statLo => exact .inr ⟨_, _, rfl, rfl⟩
  | statHi => exact .inl ⟨_, r', rfl, rfl⟩
  | _ => exact .inl ⟨_, w, rfl, rfl⟩

/-- A run of the framer that returns: its first exchange completes, and then the rest of the run returns or the packet
is complete (R161). -/
theorem framerRun_returns {n : Nat} {f : Framer} {s t : State} (h : framerRun n f s = .ok t)
    (hb : t.busy = false) :
    ∃ m b f1 s1 r s2, n = m + 1 ∧ framerFetch f s = .ok (b, f1, s1) ∧
      exchange b s1 = (some r, s2) ∧
      (framerNext f1 r).elim (fun g => framerRun m g s2 = .ok t)
        (fun w => t = s2.handBack (.status w)) := by
  have hframer : t.framer = none := (t.busy_eq_false_iff.mp hb).2
  cases n with
  | zero => cases h; cases hframer
  | succ m =>
    rw [framerRun] at h
    split at h
    · cases h
    · next b f1 s1 hf =>
      split at h
      · cases h; cases hframer
      · next r s2 he =>
        refine ⟨m, b, f1, s1, r, s2, rfl, hf, he, ?_⟩
        split at h
        · next g hn => rw [hn]; exact h
        · next w hn => rw [hn]; exact (Except.ok.inj h).symm

/-- Two framer runs in step that both return end in step: every exchange sends the same byte (R138, R161). -/
theorem framerRun_inStep {n : Nat} {f : Framer} {w : Byte} {s u t v : State}
    (h : s.InStep u) (hm : s.cfg.mode = .loopback) (ht : framerRun n f s = .ok t)
    (hv : framerRun n { f with statHi := w } u = .ok v) (hbt : t.busy = false)
    (hbv : v.busy = false) : t.InStep v := by
  induction n generalizing f w s u with
  | zero => obtain ⟨_, _, _, _, _, _, hn, -⟩ := framerRun_returns ht hbt; cases hn
  | succ n ih =>
    obtain ⟨m, b, f1, s1, r, s2, hn, hfetch, hex, hrest⟩ := framerRun_returns ht hbt
    obtain ⟨m', c, g1, u1, r', u2, hn', hfetch', hex', hrest'⟩ := framerRun_returns hv hbv
    obtain rfl : n = m := Nat.succ.inj hn
    obtain rfl : n = m' := Nat.succ.inj hn'
    obtain ⟨u1', hfetch'', hin1, hcfg⟩ := framerFetch_inStep h hfetch w
    obtain ⟨rfl, heq⟩ := Prod.mk.inj (Except.ok.inj (hfetch''.symm.trans hfetch'))
    obtain ⟨rfl, rfl⟩ := Prod.mk.inj heq
    obtain ⟨hin2, hm2⟩ := exchange_inStep hin1 (hcfg ▸ hm) hex hex'
    rcases framerNext_replies f1 w r r' with ⟨g, w', hnext, hnext'⟩ | ⟨x, x', hnext, hnext'⟩
    · rw [hnext, Sum.elim_inl] at hrest
      rw [hnext', Sum.elim_inl] at hrest'
      exact ih hin2 hm2 hrest hrest'
    · rw [hnext, Sum.elim_inr] at hrest
      rw [hnext', Sum.elim_inr] at hrest'
      rw [hrest, hrest']
      exact hin2.handBack _ _

/-- An exchange that has returned had its reply (R138, R266). -/
theorem exec_xchg_returned {b : Byte} {s t : State} (h : exec (.xchg b) s = .next t)
    (hb : t.busy = false) :
    ∃ r u, exchange b s.issue = (some r, u) ∧ t = u.handBack (.byte r) := by
  rw [exec, execXchg] at h
  split at h
  · next r u he => cases h; exact ⟨r, u, he, rfl⟩
  · next u he =>
    cases h
    have hwaits := (exchange_none he).2
    rw [(t.busy_eq_false_iff.mp hb).1] at hwaits
    cases hwaits

/-- Two runs in step wrote the same bytes to the stream. -/
theorem State.InStep.addSame {t u : State} {before : List Event} (h : t.InStep u)
    (ht : ∃ e, t.trace = before ++ e) (hu : ∃ e, u.trace = before ++ e) :
    State.addSame (bytesOut .loopback) before t u := by
  obtain ⟨e1, htrace⟩ := ht
  obtain ⟨e2, hutrace⟩ := hu
  obtain ⟨_, tr, _, rfl, htr⟩ := h
  have htr' : tr = before ++ e2 := hutrace
  rw [htr', htrace, streamOuts_append, streamOuts_append] at htr
  exact ⟨e1, e2, htrace, hutrace, (List.append_cancel_left htr).symm⟩

/-- Two runs of an instruction in `LOOPBACK` before different streams end in step when both return (R68). -/
theorem exec_loopback_inStep {i : Instr} {s t u : State} {bytes : List Byte}
    (hm : s.cfg.mode = .loopback) (ht : exec i s = .next t)
    (hu : exec i { s with streamIn := bytes } = .next u) (hbt : t.busy = false)
    (hbu : u.busy = false) : t.InStep u := by
  have hissue : s.issue.InStep { s.issue with streamIn := bytes } :=
    ⟨bytes, s.trace, none, rfl, rfl⟩
  rcases instr_kinds i with hi | ⟨b, rfl⟩ | ⟨cmd, len, hp⟩
  · obtain ⟨htrace, hsin, hfacing⟩ := exec_fifo_facing hi ht s.sinIn bytes
    obtain rfl := Host.Outcome.next.inj (hfacing.symm.trans hu)
    exact ⟨bytes, s.trace, t.result, by rw [hsin], by rw [htrace]⟩
  · obtain ⟨r, t', het, rfl⟩ := exec_xchg_returned ht hbt
    obtain ⟨r', u', heu, rfl⟩ := exec_xchg_returned hu hbu
    exact (exchange_inStep hissue hm het heu).1.handBack _ _
  · rw [exec_packet hp] at ht hu
    exact framerRun_inStep (f := Framer.start cmd len) hissue hm (answer_next.mp ht)
      (answer_next.mp hu) hbt hbu

/-- Settles O34: in `LINK` by what every packet leaves (`State.SentOnLink`), in `LOOPBACK` by the two runs going in
step (`State.InStep`). -/
theorem peerCannotReachTheFifo : Obligations.PeerCannotReachTheFifo := by
  refine ⟨fun i s t u levels hm ht hu => ?_, fun i s t u bytes hm ht hu hbt hbu => ?_⟩
  · obtain ⟨h, hout⟩ := exec_link_agree hm ht hu
    exact ⟨h.mem, h.head, h.tail, h.fill, h.fault, h.sck, h.sout, hout⟩
  · have hin := exec_loopback_inStep hm ht hu hbt hbu
    have h := hin.sameButPeer
    exact ⟨h.mem, h.head, h.tail, h.fill, h.fault, h.sck, h.sout, hin.sinIn_eq, fun _ =>
      hin.addSame (exec_evolves ht).trace_append (exec_evolves hu).trace_append⟩

end Sys2Proof.Machine
end

section
/-! SUPPORT. The statements of spec/30_encoding.md on the encodings. A command word is its four fields
(`word_ext_fields`), and that a row selects it is said of the fields (`WordRow.selects_iff`); disjointness, the reserved
words and both round trips follow from that. -/

namespace Sys2Proof

/-! ## Halves and bytes (R88) -/

theorem toNat_low (v : Half) : (low v).toNat = v.toNat % 256 := by
  simp [low]

theorem toNat_high (v : Half) : (high v).toNat = v.toNat / 256 := by
  have hlt := v.isLt
  simp only [high, BitVec.extractLsb'_toNat, Nat.shiftRight_eq_div_pow]
  omega

theorem toNat_join (hi lo : Byte) : (join hi lo).toNat = hi.toNat * 256 + lo.toNat := by
  rw [join, BitVec.toNat_append, ← Nat.shiftLeft_add_eq_or_of_lt lo.isLt, Nat.shiftLeft_eq]

@[simp] theorem low_join (hi lo : Byte) : low (join hi lo) = lo :=
  BitVec.extractLsb'_append_eq_right

@[simp] theorem high_join (hi lo : Byte) : high (join hi lo) = hi :=
  BitVec.extractLsb'_append_eq_left

@[simp] theorem join_high_low (v : Half) : join (high v) (low v) = v := by
  apply BitVec.eq_of_toNat_eq
  rw [toNat_join, toNat_high, toNat_low, Nat.div_add_mod']

/-! ## The fields of a command word (R83) -/

theorem append_fields (w : Word) : fieldOp w ++ fieldZ w ++ fieldA w ++ fieldN w = w := by
  have hop : fieldOp w ++ fieldZ w = w.extractLsb' 24 8 :=
    BitVec.extractLsb'_append_extractLsb'_eq_extractLsb' rfl
  have ha : w.extractLsb' 24 8 ++ fieldA w = w.extractLsb' 16 16 :=
    BitVec.extractLsb'_append_extractLsb'_eq_extractLsb' rfl
  have hn : w.extractLsb' 16 16 ++ fieldN w = w.extractLsb' 0 32 :=
    BitVec.extractLsb'_append_extractLsb'_eq_extractLsb' rfl
  rw [hop, ha, hn, BitVec.extractLsb'_eq_self]

/-- No bit of a word lies outside its fields. -/
theorem word_ext_fields {w v : Word} :
    w = v ↔ fieldOp w = fieldOp v ∧ fieldZ w = fieldZ v ∧ fieldA w = fieldA v ∧
      fieldN w = fieldN v := by
  refine ⟨fun h => h ▸ ⟨rfl, rfl, rfl, rfl⟩, fun ⟨hop, hz, ha, hn⟩ => ?_⟩
  rw [← append_fields w, ← append_fields v, hop, hz, ha, hn]

theorem fieldOp_and (w v : Word) : fieldOp (w &&& v) = fieldOp w &&& fieldOp v :=
  BitVec.extractLsb'_and

theorem fieldZ_and (w v : Word) : fieldZ (w &&& v) = fieldZ w &&& fieldZ v :=
  BitVec.extractLsb'_and

theorem fieldA_and (w v : Word) : fieldA (w &&& v) = fieldA w &&& fieldA v :=
  BitVec.extractLsb'_and

theorem fieldN_and (w v : Word) : fieldN (w &&& v) = fieldN w &&& fieldN v :=
  BitVec.extractLsb'_and

/-! The fields of a word written as its fields, one after another. -/

section Append

variable (op z : BitVec 4) (a : Byte) (n : Half)

theorem fieldOp_append : fieldOp (op ++ z ++ a ++ n) = op :=
  calc (op ++ z ++ a ++ n).extractLsb' 28 4
    _ = (op ++ z ++ a).extractLsb' 12 4 := BitVec.extractLsb'_append_eq_of_le (by decide)
    _ = (op ++ z).extractLsb' 4 4 := BitVec.extractLsb'_append_eq_of_le (by decide)
    _ = op := BitVec.extractLsb'_append_eq_left

theorem fieldZ_append : fieldZ (op ++ z ++ a ++ n) = z :=
  calc (op ++ z ++ a ++ n).extractLsb' 24 4
    _ = (op ++ z ++ a).extractLsb' 8 4 := BitVec.extractLsb'_append_eq_of_le (by decide)
    _ = (op ++ z).extractLsb' 0 4 := BitVec.extractLsb'_append_eq_of_le (by decide)
    _ = z := BitVec.extractLsb'_append_eq_right

theorem fieldA_append : fieldA (op ++ z ++ a ++ n) = a :=
  calc (op ++ z ++ a ++ n).extractLsb' 16 8
    _ = (op ++ z ++ a).extractLsb' 0 8 := BitVec.extractLsb'_append_eq_of_le (by decide)
    _ = a := BitVec.extractLsb'_append_eq_right

theorem fieldN_append : fieldN (op ++ z ++ a ++ n) = n :=
  BitVec.extractLsb'_append_eq_right

@[simp] theorem fieldOp_packWord : fieldOp (packWord op a n) = op := fieldOp_append op 0 a n

@[simp] theorem fieldZ_packWord : fieldZ (packWord op a n) = 0 := fieldZ_append op 0 a n

@[simp] theorem fieldA_packWord : fieldA (packWord op a n) = a := fieldA_append op 0 a n

@[simp] theorem fieldN_packWord : fieldN (packWord op a n) = n := fieldN_append op 0 a n

end Append

/-- A word whose zero field is zero is packed from its other fields. -/
theorem packWord_fields {w : Word} (hz : fieldZ w = 0) :
    packWord (fieldOp w) (fieldA w) (fieldN w) = w := by
  rw [packWord, ← hz, append_fields]

/-! ## The rows of the command-word table (R83, R84) -/

/-- The `op` column of R83. -/
def WordRow.op : WordRow → BitVec 4
  | .rbwr => 1
  | .rbrd => 2
  | .rbrst => 3
  | .xchg => 4
  | .sendpkt => 5

/-- The row has an operand in the field `a`. -/
def WordRow.usesA : WordRow → Bool
  | .rbwr | .xchg | .sendpkt => true
  | .rbrd | .rbrst => false

/-- The row has an operand in the field `n`. -/
def WordRow.usesN : WordRow → Bool
  | .sendpkt => true
  | .rbwr | .rbrd | .rbrst | .xchg => false

theorem WordRow.mem_wordRows (r : WordRow) : r ∈ wordRows := by
  cases r <;> decide

theorem WordRow.op_injective {r q : WordRow} (h : r.op = q.op) : r = q := by
  have hrows : ∀ r ∈ wordRows, ∀ q ∈ wordRows, r.op = q.op → r = q := by decide
  exact hrows r r.mem_wordRows q q.mem_wordRows h

/-- `op` is outside 1 to 5, or that of a row. -/
theorem op_cases (op : BitVec 4) : (op = 0 ∨ 6 ≤ op.toNat) ∨ ∃ r ∈ wordRows, op = r.op := by
  revert op
  decide

theorem WordRow.op_inside (r : WordRow) : ¬(r.op = 0 ∨ 6 ≤ r.op.toNat) := by
  cases r <;> decide

/-- A mask looks at `op`, at `z` and at the unused fields. -/
theorem WordRow.mask_fields (r : WordRow) :
    fieldOp r.mask = BitVec.allOnes 4 ∧ fieldZ r.mask = BitVec.allOnes 4 ∧
      fieldA r.mask = (if r.usesA then 0#8 else BitVec.allOnes 8) ∧
      fieldN r.mask = (if r.usesN then 0#16 else BitVec.allOnes 16) := by
  cases r <;> decide

theorem WordRow.value_eq_packWord (r : WordRow) : r.value = packWord r.op 0 0 := by
  cases r <;> rfl

theorem and_unused_eq_zero {k : Nat} (used : Bool) (x : BitVec k) :
    x &&& (if used then 0#k else BitVec.allOnes k) = 0#k ↔ (used = false → x = 0#k) := by
  cases used <;> simp

/-- R84, said of the fields: a row selects the words with its `op` whose zero field and unused fields are zero. -/
theorem WordRow.selects_iff (r : WordRow) (w : Word) :
    r.selects w = true ↔ fieldOp w = r.op ∧ fieldZ w = 0 ∧
      (r.usesA = false → fieldA w = 0) ∧ (r.usesN = false → fieldN w = 0) := by
  obtain ⟨hop, hz, ha, hn⟩ := r.mask_fields
  have and_op : fieldOp (w &&& r.mask) = fieldOp w := by
    rw [fieldOp_and, hop, BitVec.and_allOnes]
  have and_z : fieldZ (w &&& r.mask) = fieldZ w := by
    rw [fieldZ_and, hz, BitVec.and_allOnes]
  have and_a : fieldA (w &&& r.mask) = 0#8 ↔ (r.usesA = false → fieldA w = 0#8) := by
    rw [fieldA_and, ha, and_unused_eq_zero]
  have and_n : fieldN (w &&& r.mask) = 0#16 ↔ (r.usesN = false → fieldN w = 0#16) := by
    rw [fieldN_and, hn, and_unused_eq_zero]
  rw [WordRow.selects, beq_iff_eq, r.value_eq_packWord, word_ext_fields, fieldOp_packWord,
    fieldZ_packWord, fieldA_packWord, fieldN_packWord, and_op, and_z]
  exact and_congr_right' (and_congr_right' (and_congr and_a and_n))

/-- Two rows that select a word have the same `op`. -/
theorem WordRow.eq_of_selects {r q : WordRow} {w : Word} (hr : r.selects w = true)
    (hq : q.selects w = true) : r = q := by
  obtain ⟨hrop, -⟩ := (r.selects_iff w).mp hr
  obtain ⟨hqop, -⟩ := (q.selects_iff w).mp hq
  exact WordRow.op_injective (hrop.symm.trans hqop)

/-- The words a row selects are those packed from its `op`, with nothing in a field it does not use. -/
theorem WordRow.selects_packWord (r : WordRow) {a : Byte} {n : Half} (ha : r.usesA = false → a = 0)
    (hn : r.usesN = false → n = 0) : r.selects (packWord r.op a n) = true := by
  rw [r.selects_iff, fieldOp_packWord, fieldZ_packWord, fieldA_packWord, fieldN_packWord]
  exact ⟨rfl, rfl, ha, hn⟩

/-! ## Decoding a word (R84, R85) -/

theorem decodeWord_of_selects {r : WordRow} {w : Word} (h : r.selects w = true) :
    decodeWord w = .ok (r.build w) := by
  cases hfind : wordRows.find? (fun q => q.selects w) with
  | none => exact absurd h (List.find?_eq_none.mp hfind r r.mem_wordRows)
  | some q =>
    have hq := List.find?_some hfind
    obtain rfl : q = r := WordRow.eq_of_selects hq h
    simp only [decodeWord, hfind]

theorem decodeWord_of_unselected {w : Word} (h : ∀ r : WordRow, ¬r.selects w = true) :
    decodeWord w = .error (.reservedWord w) := by
  have hfind : wordRows.find? (fun q => q.selects w) = none :=
    List.find?_eq_none.mpr fun r _ => h r
  simp only [decodeWord, hfind]

/-- A word decodes exactly when a row selects it. -/
theorem decodeWord_eq_ok_iff {w : Word} {i : Instr} :
    decodeWord w = .ok i ↔ ∃ r : WordRow, r.selects w = true ∧ r.build w = i := by
  constructor
  · intro h
    by_contra hnone
    have hall : ∀ r : WordRow, ¬r.selects w = true := fun r hr =>
      hnone ⟨r, hr, Except.ok.inj ((decodeWord_of_selects hr).symm.trans h)⟩
    rw [decodeWord_of_unselected hall] at h
    cases h
  · rintro ⟨r, hr, rfl⟩
    exact decodeWord_of_selects hr

theorem decodeWord_reserved_iff {w : Word} :
    decodeWord w = .error (.reservedWord w) ↔ ∀ r : WordRow, ¬r.selects w = true := by
  refine ⟨fun h r hr => ?_, decodeWord_of_unselected⟩
  rw [decodeWord_of_selects hr] at h
  cases h

/-- Where `op` is that of a row, what makes a word reserved is that row's zero field and unused fields (R85). -/
theorem unselected_iff_of_op {r : WordRow} {w : Word} (h : fieldOp w = r.op) :
    (∀ q : WordRow, ¬q.selects w = true) ↔
      fieldZ w ≠ 0 ∨ (r.usesA = false ∧ fieldA w ≠ 0) ∨ (r.usesN = false ∧ fieldN w ≠ 0) := by
  have hrow : (∀ q : WordRow, ¬q.selects w = true) ↔ ¬r.selects w = true := by
    refine ⟨fun hall => hall r, fun hr q hq => hr ?_⟩
    obtain ⟨hqop, -⟩ := (q.selects_iff w).mp hq
    exact WordRow.op_injective (hqop.symm.trans h) ▸ hq
  rw [hrow, r.selects_iff]
  tauto

/-! ## The bytes of a presentation (R83, R87) -/

/-- Four bytes are the bytes of the word they make, the last one highest. -/
theorem wordBytes_append (b3 b2 b1 b0 : Byte) :
    wordBytes (b3 ++ b2 ++ b1 ++ b0) = [b0, b1, b2, b3] := by
  have h0 : (b3 ++ b2 ++ b1 ++ b0).extractLsb' 0 8 = b0 := BitVec.extractLsb'_append_eq_right
  have h1 : (b3 ++ b2 ++ b1 ++ b0).extractLsb' 8 8 = b1 :=
    (BitVec.extractLsb'_append_eq_of_le (by decide)).trans BitVec.extractLsb'_append_eq_right
  have h2 : (b3 ++ b2 ++ b1 ++ b0).extractLsb' 16 8 = b2 :=
    calc (b3 ++ b2 ++ b1 ++ b0).extractLsb' 16 8
      _ = (b3 ++ b2 ++ b1).extractLsb' 8 8 := BitVec.extractLsb'_append_eq_of_le (by decide)
      _ = (b3 ++ b2).extractLsb' 0 8 := BitVec.extractLsb'_append_eq_of_le (by decide)
      _ = b2 := BitVec.extractLsb'_append_eq_right
  have h3 : (b3 ++ b2 ++ b1 ++ b0).extractLsb' 24 8 = b3 :=
    calc (b3 ++ b2 ++ b1 ++ b0).extractLsb' 24 8
      _ = (b3 ++ b2 ++ b1).extractLsb' 16 8 := BitVec.extractLsb'_append_eq_of_le (by decide)
      _ = (b3 ++ b2).extractLsb' 8 8 := BitVec.extractLsb'_append_eq_of_le (by decide)
      _ = b3 := BitVec.extractLsb'_append_eq_left
  rw [wordBytes, h0, h1, h2, h3]

/-- The bytes of a packed word: `n` low byte first, `a`, and `op` over a zero field. -/
theorem wordBytes_packWord (op : BitVec 4) (a : Byte) (n : Half) :
    wordBytes (packWord op a n) = [low n, high n, a, op ++ 0#4] := by
  have h0 : (packWord op a n).extractLsb' 0 8 = low n :=
    BitVec.extractLsb'_append_eq_of_add_le (by decide)
  have h1 : (packWord op a n).extractLsb' 8 8 = high n :=
    BitVec.extractLsb'_append_eq_of_add_le (by decide)
  have h2 : (packWord op a n).extractLsb' 16 8 = a := fieldA_packWord op a n
  have h3 : (packWord op a n).extractLsb' 24 8 = op ++ 0#4 :=
    calc (op ++ 0#4 ++ a ++ n).extractLsb' 24 8
      _ = (op ++ 0#4 ++ a).extractLsb' 8 8 := BitVec.extractLsb'_append_eq_of_le (by decide)
      _ = op ++ 0#4 := BitVec.extractLsb'_append_eq_left
  rw [wordBytes, h0, h1, h2, h3]

/-- The bytes of a word make the word. -/
theorem append_wordBytes (w : Word) :
    w.extractLsb' 24 8 ++ w.extractLsb' 16 8 ++ w.extractLsb' 8 8 ++ w.extractLsb' 0 8 = w := by
  have h3 : w.extractLsb' 24 8 ++ w.extractLsb' 16 8 = w.extractLsb' 16 16 :=
    BitVec.extractLsb'_append_extractLsb'_eq_extractLsb' rfl
  have h2 : w.extractLsb' 16 16 ++ w.extractLsb' 8 8 = w.extractLsb' 8 24 :=
    BitVec.extractLsb'_append_extractLsb'_eq_extractLsb' rfl
  have h1 : w.extractLsb' 8 24 ++ w.extractLsb' 0 8 = w.extractLsb' 0 32 :=
    BitVec.extractLsb'_append_extractLsb'_eq_extractLsb' rfl
  rw [h3, h2, h1, BitVec.extractLsb'_eq_self]

theorem decode_wordBytes (w : Word) : decode (wordBytes w) = decodeWord w :=
  congrArg decodeWord (append_wordBytes w)

/-- A word packed for a row decodes to the operation of that row. -/
theorem decode_packWord (r : WordRow) {a : Byte} {n : Half} {i : Instr}
    (ha : r.usesA = false → a = 0) (hn : r.usesN = false → n = 0)
    (hi : r.build (packWord r.op a n) = i) : decode (wordBytes (packWord r.op a n)) = .ok i := by
  rw [decode_wordBytes, decodeWord_of_selects (r.selects_packWord ha hn), hi]

/-- A selected word is the encoding of the operation its row stands for: the fields which the operation does not carry
are zero (R85). -/
theorem encode_build {r : WordRow} {w : Word} (h : r.selects w = true) :
    encode (r.build w) = wordBytes w := by
  obtain ⟨hop, hz, ha, hn⟩ := (r.selects_iff w).mp h
  have hw : packWord r.op (fieldA w) (fieldN w) = w := hop ▸ packWord_fields hz
  cases r with
  | rbwr => rw [hn rfl] at hw; exact congrArg wordBytes hw
  | rbrd => rw [ha rfl, hn rfl] at hw; exact congrArg wordBytes hw
  | rbrst => rw [ha rfl, hn rfl] at hw; exact congrArg wordBytes hw
  | xchg => rw [hn rfl] at hw; exact congrArg wordBytes hw
  | sendpkt => exact congrArg wordBytes hw

/-! ## Headers (R87, R91) -/

theorem decode_headerBytes {cmd : Byte} {len : Half} {i : Instr} (h : wireCommand cmd len = some i) :
    decode (headerBytes cmd len) = .ok i := by
  have hmagic : Wire.magic0 = Wire.magic0 ∧ Wire.magic1 = Wire.magic1 ∧ Wire.comp = Wire.comp :=
    ⟨rfl, rfl, rfl⟩
  rw [headerBytes, decode, decodeHeader, if_pos hmagic, join_high_low, h]

/-- A listed code is that of the wire command it gives (R91). -/
theorem encode_wireCommand {cmd : Byte} {len : Half} {i : Instr} (h : wireCommand cmd len = some i) :
    encode i = headerBytes cmd len := by
  unfold wireCommand at h
  split_ifs at h with hinitialize hprint htransfer hreport
  · cases h; rw [hinitialize]; rfl
  · cases h; rw [hprint]; rfl
  · cases h; rw [htransfer]; rfl
  · cases h; rw [hreport]; rfl

/-- A header that decodes has the fixed bytes of R87 and a listed code. -/
theorem decodeHeader_eq_ok {m0 m1 cmd comp lo hi : Byte} {i : Instr}
    (h : decodeHeader m0 m1 cmd comp lo hi = .ok i) :
    m0 = Wire.magic0 ∧ m1 = Wire.magic1 ∧ comp = Wire.comp ∧
      wireCommand cmd (join hi lo) = some i := by
  unfold decodeHeader at h
  split at h
  · next hfixed =>
    obtain ⟨h0, h1, hc⟩ := hfixed
    split at h
    · next j hw => cases h; exact ⟨h0, h1, hc, hw⟩
    · cases h
  · cases h

/-- What decodes is a word, or a header. -/
theorem decode_eq_ok {bytes : List Byte} {i : Instr} (h : decode bytes = .ok i) :
    (∃ w, bytes = wordBytes w ∧ decodeWord w = .ok i) ∨
      ∃ cmd len, bytes = headerBytes cmd len ∧ wireCommand cmd len = some i := by
  unfold decode at h
  split at h
  · next b0 b1 b2 b3 =>
    exact .inl ⟨b3 ++ b2 ++ b1 ++ b0, (wordBytes_append b3 b2 b1 b0).symm, h⟩
  · next m0 m1 cmd comp lo hi =>
    obtain ⟨rfl, rfl, rfl, hw⟩ := decodeHeader_eq_ok h
    exact .inr ⟨cmd, join hi lo, by rw [headerBytes, low_join, high_join], hw⟩
  · cases h

/-! ## The obligations on the encodings -/

/-- Every instruction is encoded as a word its row selects, or as a header with the code of its command. -/
theorem decode_encode (i : Instr) : decode (encode i) = .ok i := by
  cases i with
  | rbwr b =>
    exact decode_packWord .rbwr nofun (fun _ => rfl) (congrArg Instr.rbwr (fieldA_packWord 1 b 0))
  | rbrd => exact decode_packWord .rbrd (fun _ => rfl) (fun _ => rfl) rfl
  | rbrst => exact decode_packWord .rbrst (fun _ => rfl) (fun _ => rfl) rfl
  | xchg b =>
    exact decode_packWord .xchg nofun (fun _ => rfl) (congrArg Instr.xchg (fieldA_packWord 4 b 0))
  | sendpkt cmd len =>
    exact decode_packWord .sendpkt nofun nofun
      (congrArg₂ Instr.sendpkt (fieldA_packWord 5 cmd len) (fieldN_packWord 5 cmd len))
  | wireInitialize len => exact decode_headerBytes rfl
  | wirePrint len => exact decode_headerBytes rfl
  | wireTransfer len => exact decode_headerBytes rfl
  | wireReport len => exact decode_headerBytes rfl

/-- Settles O1. -/
theorem decodeEncodeAgree : Obligations.DecodeEncodeAgree := decode_encode

/-- Settles O2: no field of a word is ignored (`encode_build`), and no byte of a header (`encode_wireCommand`). -/
theorem encodeDecodeAgree : Obligations.EncodeDecodeAgree := by
  intro bytes i h
  rcases decode_eq_ok h with ⟨w, rfl, hw⟩ | ⟨cmd, len, rfl, hw⟩
  · obtain ⟨r, hr, rfl⟩ := decodeWord_eq_ok_iff.mp hw
    exact encode_build hr
  · exact encode_wireCommand hw

/-- Settles O4: a row selects only words with its `op`, and no two rows have the same. -/
theorem commandRowsAreDisjoint : Obligations.CommandRowsAreDisjoint :=
  fun _ _ _ hr hq => WordRow.eq_of_selects hr hq

/-- A table row's word that is laid out as the encoder lays out an instruction decodes to it. -/
theorem decodeTableWord_of_encode {nbits w : Nat} {i : Instr} (h : tableBytes nbits w = encode i) :
    decodeTableWord nbits w = some i :=
  Machine.decodeTableWord_eq_some.mpr (h ▸ decode_encode i)

/-- Settles O5: each of the nine words is laid out as its instruction is encoded. -/
theorem sampleWordsDecode : Obligations.SampleWordsDecode :=
  ⟨decodeTableWord_of_encode (by decide), decodeTableWord_of_encode (by decide),
    decodeTableWord_of_encode (by decide), decodeTableWord_of_encode (by decide),
    decodeTableWord_of_encode (by decide), decodeTableWord_of_encode (by decide),
    decodeTableWord_of_encode (by decide), decodeTableWord_of_encode (by decide),
    decodeTableWord_of_encode (by decide)⟩

end Sys2Proof

namespace Sys2Proof.Machine

/-! ## Reserved words (R85, R265) -/

/-- A presentation that does not decode is refused with the index it would have had (R265). -/
theorem step_rejected {s : State} {bytes : List Byte} {rest : List (List Byte)} {r : Reject}
    (hb : s.busy = false) (hp : s.pending = bytes :: rest) (hd : decode bytes = .error r) :
    step s = .refused (refusalOf (s.issued + 1) r) := by
  have hf : fetch s = .reject (refusalOf (s.issued + 1) r) := by simp [fetch, hb, hp, hd]
  simp [step, hf]

/-- Settles O3: no row selects a word whose `op` is outside 1 to 5; for any other word one row decides. -/
theorem reservedWordsAreRefused : Obligations.ReservedWordsAreRefused := by
  refine ⟨fun w => ?_, fun w s rest hb hp hd => ?_⟩
  · rcases op_cases (fieldOp w) with hout | ⟨r, -, hr⟩
    · refine iff_of_true (decodeWord_of_unselected fun r hsel => ?_) (.inl hout)
      obtain ⟨hop, -⟩ := (r.selects_iff w).mp hsel
      exact r.op_inside (hop ▸ hout)
    · rw [decodeWord_reserved_iff, unselected_iff_of_op hr, hr]
      cases r <;> simp [WordRow.op, WordRow.usesA, WordRow.usesN]
  · exact step_rejected hb hp ((decode_wordBytes w).trans hd)

/-! ## The sums of a packet (R88) -/

theorem toNat_headerSum (cmd : Byte) (len : Half) :
    (headerSum cmd len).toNat = (cmd.toNat + (low len).toNat + (high len).toNat) % 65536 := by
  simp [headerSum, BitVec.toNat_add]

theorem toNat_addSum (csum : Half) (p : Byte) :
    (addSum csum p).toNat = (csum.toNat + p.toNat) % 65536 := by
  simp [addSum, BitVec.toNat_add]

/-- Accumulating modulo 65536 is adding up and reducing once. -/
theorem toNat_foldl_addSum (payload : List Byte) (csum : Half) :
    (payload.foldl addSum csum).toNat =
      (csum.toNat + (payload.map BitVec.toNat).sum) % 65536 := by
  induction payload generalizing csum with
  | nil => exact (Nat.mod_eq_of_lt csum.isLt).symm
  | cons p ps ih =>
    rw [List.foldl_cons, ih, toNat_addSum, Nat.mod_add_mod, List.map_cons, List.sum_cons,
      Nat.add_assoc]

theorem toNat_checksum (cmd : Byte) (len : Half) (payload : List Byte) :
    (checksum cmd len payload).toNat =
      (cmd.toNat + (low len).toNat + (high len).toNat + (payload.map BitVec.toNat).sum) % 65536 := by
  rw [checksum, toNat_foldl_addSum, toNat_headerSum, Nat.mod_add_mod]

/-- Settles O6. -/
theorem wireFieldAssembly : Obligations.WireFieldAssembly := by
  refine ⟨fun len => ⟨toNat_low len, toNat_high len, ?_⟩, toNat_checksum, toNat_join⟩
  rw [toNat_low, toNat_high, Nat.mod_add_div]

end Sys2Proof.Machine
end

section
/-! SUPPORT. What the command words of spec/30_encoding.md stand for: the whole effect of `RBWR`, `RBRD`, `RBRST` and of
`XCHG` in `LINK`, and the header bits of a packet. Each operation has one equation for the state it answers, and the
proofs read the effect off it. -/

namespace Sys2Proof.Machine

/-! ## The command words, byte by byte (R83) -/

theorem encode_rbwr (b : Byte) : encode (.rbwr b) = [0x00, 0x00, b, 0x10] :=
  wordBytes_packWord 1 b 0

theorem encode_rbrd : encode .rbrd = [0x00, 0x00, 0x00, 0x20] := wordBytes_packWord 2 0 0

theorem encode_rbrst : encode .rbrst = [0x00, 0x00, 0x00, 0x30] := wordBytes_packWord 3 0 0

theorem encode_xchg (b : Byte) : encode (.xchg b) = [0x00, 0x00, b, 0x40] :=
  wordBytes_packWord 4 b 0

/-! ## The ghost effects, case by case (R111, R112, R252) -/

theorem State.ghostWrite_of_full {s : State} (hf : s.fault = none) (hc : s.fill = s.cfg.capacity) :
    s.ghostWrite.fill = s.fill ∧
      s.ghostWrite.fault = some { kind := .fifoOverrun, op := s.issued, payload := none } := by
  simp [State.ghostWrite, State.raise_fault, hf, hc]

theorem State.ghostWrite_of_room {s : State} (hf : s.fault = none) (hc : s.fill ≠ s.cfg.capacity) :
    s.ghostWrite.fill = s.fill + 1 ∧ s.ghostWrite.fault = none := by
  simp [State.ghostWrite, hf, hc]

theorem State.ghostWrite_of_fault {s : State} (hf : s.fault ≠ none) : s.ghostWrite = s := by
  obtain ⟨r, hr⟩ := Option.ne_none_iff_exists'.mp hf
  simp [State.ghostWrite, hr]

theorem State.ghostRead_of_empty {s : State} (p : Option Nat) (hf : s.fault = none)
    (hq : s.fill = 0) :
    (s.ghostRead p).fill = 0 ∧
      (s.ghostRead p).fault = some { kind := .fifoUnderrun, op := s.issued, payload := p } := by
  simp [State.ghostRead, State.raise_fault, hf, hq]

theorem State.ghostRead_of_queued {s : State} (p : Option Nat) (hf : s.fault = none)
    (hq : s.fill ≠ 0) :
    (s.ghostRead p).fill = s.fill - 1 ∧ (s.ghostRead p).fault = none := by
  simp [State.ghostRead, hf, hq]

theorem State.ghostRead_of_fault {s : State} (p : Option Nat) (hf : s.fault ≠ none) :
    s.ghostRead p = s := by
  obtain ⟨r, hr⟩ := Option.ne_none_iff_exists'.mp hf
  simp [State.ghostRead, hr]

/-! ## The FIFO operations (R111, R112, R113) -/

/-- Everything `RBWR` does with `tail` in range (R111). -/
theorem exec_rbwr_of_lt (b : Byte) {s : State} (h : s.tail < s.cfg.capacity) :
    exec (.rbwr b) s = .next
      { s.issue with
        mem := s.mem.write s.tail b
        tail := nextCursor s.cfg.capacity s.tail
        fill := s.issue.ghostWrite.fill
        fault := s.issue.ghostWrite.fault } := by
  obtain ⟨t, ht⟩ := rbWrite_of_lt b s.issue h
  obtain ⟨-, rfl⟩ := rbWrite_ok ht
  exact answer_next.mpr ht

/-- Everything `RBRD` does with `head` in range (R112). -/
theorem exec_rbrd_of_lt {s : State} (h : s.head < s.cfg.capacity) :
    exec .rbrd s = .next
      { s.issue with
        head := nextCursor s.cfg.capacity s.head
        fill := (s.issue.ghostRead none).fill
        fault := (s.issue.ghostRead none).fault
        draws := if (s.issue.ghostRead none).fault.isSome then s.draws + 1 else s.draws
        result := some (.byte (readValue (s.issue.ghostRead none).fault.isSome s.issue)) } := by
  obtain ⟨v, t, ht⟩ := rbRead_of_lt none s.issue h
  obtain ⟨-, rfl, rfl⟩ := rbRead_ok ht
  rw [exec, execRbrd, ht]
  rfl

/-- Settles O8: the cell is that of a write, the cursor that of R70, the ghost effect that of its three cases. -/
theorem rbwrStoresAtTail : Obligations.RbwrStoresAtTail := by
  intro b s hlt
  refine ⟨_, encode_rbwr b ▸ decode_encode (.rbwr b), exec_rbwr_of_lt b hlt,
    s.mem.read_write_same s.tail b, fun a ha => s.mem.read_write_other s.tail a b ha,
    nextCursor_eq _ _ hlt, rfl, ?full, ?room, ?faulted, rfl, ⟨rfl, rfl, rfl, rfl, rfl⟩,
    ⟨rfl, rfl, rfl, rfl⟩, ⟨rfl, rfl, rfl⟩⟩
  case full => exact fun hf hc => State.ghostWrite_of_full (s := s.issue) hf hc
  case room => exact fun hf hc => State.ghostWrite_of_room (s := s.issue) hf hc
  case faulted =>
    intro hf
    rw [State.ghostWrite_of_fault (s := s.issue) hf]
    exact ⟨rfl, rfl⟩

/-- Settles O9: the cursor is that of R70, the ghost effect that of its three cases, and the byte is the cell's where
the read finds a queued byte. -/
theorem rbrdFetchesAtHead : Obligations.RbrdFetchesAtHead := by
  intro s hlt
  refine ⟨_, _, encode_rbrd ▸ decode_encode .rbrd, exec_rbrd_of_lt hlt, rfl, ?value,
    nextCursor_eq _ _ hlt, rfl, fun _ => rfl, ?empty, ?queued, ?faulted, ⟨rfl, rfl, rfl, rfl, rfl⟩,
    ⟨rfl, rfl, rfl, rfl⟩, ⟨rfl, rfl, rfl⟩⟩
  case value =>
    intro hf hq
    obtain ⟨-, hfree⟩ := State.ghostRead_of_queued (s := s.issue) none hf hq
    rw [hfree]
    rfl
  case empty => exact fun hf hq => State.ghostRead_of_empty (s := s.issue) none hf hq
  case queued => exact fun hf hq => State.ghostRead_of_queued (s := s.issue) none hf hq
  case faulted =>
    intro hf
    rw [State.ghostRead_of_fault (s := s.issue) none hf]
    exact ⟨rfl, rfl⟩

/-- Settles O10: the state answered is `rbReset s.issue`. -/
theorem rbrstZeroesTheCursors : Obligations.RbrstZeroesTheCursors := by
  intro s
  exact ⟨rbReset s.issue, encode_rbrst ▸ decode_encode .rbrst, rfl, rfl, rfl, rfl, rfl, fun _ => rfl,
    rfl, ⟨rfl, rfl, rfl, rfl, rfl⟩, ⟨rfl, rfl, rfl, rfl⟩, ⟨rfl, rfl, rfl⟩⟩

/-! ## One exchange on the lines (R131, R134) -/

/-- Issuing an operation consumes no level. -/
theorem State.upcoming_issue (n : Nat) (s : State) :
    State.upcoming n s.issue = State.upcoming n s := by
  obtain ⟨hupcoming, -, -⟩ := State.upcoming_congr n s.issue s rfl rfl rfl
  exact hupcoming

/-- The events of one byte make one pair of the byte trace: the byte driven and the byte sampled (R134). -/
theorem byteTrace_linkEvents (micros : Nat) (b : Byte) (l7 l6 l5 l4 l3 l2 l1 l0 : Level) :
    byteTrace .link (linkEvents micros b 8 [l7, l6, l5, l4, l3, l2, l1, l0]) =
      [(b, packByte l7 l6 l5 l4 l3 l2 l1 l0)] := by
  obtain ⟨-, hsout, hsin, -⟩ :=
    linkEvents_views micros b [l7, l6, l5, l4, l3, l2, l1, l0] rfl
  have hout : packBytes (bitLevels b) = [b] := packBytes_bitLevels [b]
  rw [byteTrace, bytesOut, bytesIn, hsout, hsin, hout]
  rfl

/-- Settles O15: the exchange in `LINK` is `exec_xchg_link`, and its events are those of the eight levels to come. -/
theorem xchgOnTheLines : Obligations.XchgOnTheLines := by
  intro b s hm
  obtain ⟨l7, l6, l5, l4, l3, l2, l1, l0, hlevels⟩ := eight_levels (State.upcoming_length 8 s)
  have hissue : State.upcoming 8 s.issue = [l7, l6, l5, l4, l3, l2, l1, l0] :=
    (s.upcoming_issue 8).trans hlevels
  have hreply : s.issue.nextReply = packByte l7 l6 l5 l4 l3 l2 l1 l0 := by
    rw [State.nextReply, hissue, replyAfter_eight]
  refine ⟨_, linkEvents s.cfg.delayUs b 8 [l7, l6, l5, l4, l3, l2, l1, l0],
    l7, l6, l5, l4, l3, l2, l1, l0, encode_xchg b ▸ decode_encode (.xchg b), exec_xchg_link hm,
    hlevels, ?trace, linkEvents_eight _ b l7 l6 l5 l4 l3 l2 l1 l0,
    byteTrace_linkEvents _ b l7 l6 l5 l4 l3 l2 l1 l0, ?reply, rfl, rfl, rfl,
    exec_xchg_sameFifo (exec_xchg_link hm), ⟨rfl, rfl, rfl, rfl⟩, ⟨rfl, rfl, rfl⟩⟩
  case trace => rw [← hissue]; rfl
  case reply => rw [State.handBack_result, hreply]

/-! ## The header on the lines (R87, R89) -/

theorem bitLevels_low (v : Half) :
    bitLevels (low v) = [v.getLsbD 7, v.getLsbD 6, v.getLsbD 5, v.getLsbD 4,
      v.getLsbD 3, v.getLsbD 2, v.getLsbD 1, v.getLsbD 0] := by
  simp [bitLevels, low]

theorem bitLevels_high (v : Half) :
    bitLevels (high v) = [v.getLsbD 15, v.getLsbD 14, v.getLsbD 13, v.getLsbD 12,
      v.getLsbD 11, v.getLsbD 10, v.getLsbD 9, v.getLsbD 8] := by
  simp [bitLevels, high]

/-- The 48-symbol pattern of R89. -/
theorem headerBytes_flatMap_bitLevels (cmd : Byte) (len : Half) :
    (headerBytes cmd len).flatMap bitLevels =
      [true, false, false, false, true, false, false, false,
        false, false, true, true, false, false, true, true] ++
      bitLevels cmd ++ List.replicate 8 false ++ bitLevels (low len) ++ bitLevels (high len) := by
  have hmagic0 : bitLevels Wire.magic0 = [true, false, false, false, true, false, false, false] :=
    rfl
  have hmagic1 : bitLevels Wire.magic1 = [false, false, true, true, false, false, true, true] := rfl
  have hcomp : bitLevels Wire.comp = List.replicate 8 false := rfl
  simp [headerBytes, hmagic0, hmagic1, hcomp]

/-- Every packet begins with its header, whatever its payload (R87). -/
theorem packetBytes_take_levels (cmd : Byte) (len : Half) (payload : List Byte) :
    ((packetBytes cmd len payload).flatMap bitLevels).take 48 =
      (headerBytes cmd len).flatMap bitLevels := by
  rw [packetBytes, List.append_assoc, List.flatMap_append]
  exact List.take_left' rfl

/-- Settles O26: a packet in `LINK` sends the bytes of a packet with some payload (`sendPacket_link_any`). -/
theorem headerPatternOnSout : Obligations.HeaderPatternOnSout := by
  intro i cmd len s hi hm hh
  obtain ⟨p, t, w, -, hd, -, -, hsend⟩ := sendPacket_link_any cmd len s.issue hm (.inr hh)
  obtain ⟨levels, hlevels, htrace⟩ := hd.trace
  refine ⟨_, _, (exec_packet hi s).trans (answer_next.mpr hsend), htrace, ?_⟩
  obtain ⟨-, hsout, -, -⟩ := sendEvents_views s.cfg.delayUs _ levels hlevels
  rw [State.issue_cfg, hsout, packetBytes_take_levels, headerBytes_flatMap_bitLevels, bitLevels_low,
    bitLevels_high]

end Sys2Proof.Machine
end

section
/-! SUPPORT. The accounting of the reference controller (R216, R237). What an instruction does to `fill` is said once
(`fillAfter`), and `account` is that, instruction by instruction; an instruction in `LINK` does what `fillAfter` says
(`exec_fillAfter`), and each move of the controller leaves the books balanced (`State.Balanced`). -/

namespace Sys2Proof.Machine

/-! ## What an instruction does to `fill` -/

/-- `fill` after an instruction that respects the FIFO contract, and nothing where it overruns or underruns (R111 to
R113, R159). -/
def fillAfter (capacity fill : Nat) : Instr → Option Nat
  | .rbwr _ => if fill < capacity then some (fill + 1) else none
  | .rbrd => if 0 < fill then some (fill - 1) else none
  | .rbrst => some 0
  | .xchg _ => some fill
  | .sendpkt _ len | .wireInitialize len | .wirePrint len | .wireTransfer len
  | .wireReport len => if len.toNat ≤ fill then some (fill - len.toNat) else none

theorem fillAfter_packet {i : Instr} {cmd : Byte} {len : Half} (h : packetOf i = some (cmd, len))
    (capacity fill : Nat) :
    fillAfter capacity fill i = if len.toNat ≤ fill then some (fill - len.toNat) else none := by
  cases i <;> simp only [packetOf, Option.some.injEq, Prod.mk.injEq, reduceCtorEq] at h <;>
    obtain ⟨-, rfl⟩ := h <;> rfl

@[simp] theorem account_nil (capacity fill : Nat) : account capacity [] fill = some fill := rfl

/-- `account` is `fillAfter`, one presentation after another. -/
theorem account_cons {bytes : List Byte} {i : Instr} (h : decode bytes = .ok i)
    (capacity fill : Nat) (rest : List (List Byte)) :
    account capacity (bytes :: rest) fill =
      (fillAfter capacity fill i).bind (account capacity rest) := by
  cases i <;> simp [account, h, fillAfter, apply_ite (Option.bind · (account capacity rest))]

@[simp] theorem account_encode (capacity fill : Nat) (i : Instr) (rest : List (List Byte)) :
    account capacity (encode i :: rest) fill =
      (fillAfter capacity fill i).bind (account capacity rest) :=
  account_cons (decode_encode i) capacity fill rest

/-! ## What an instruction does in `LINK` -/

theorem exec_sameOutside {i : Instr} {s t : State} (h : exec i s = .next t) : s.sameOutside t := by
  obtain ⟨-, -, -, houtside⟩ := onlyFifoOperationsReachTheFifo i s t h
  exact houtside

/-- In `LINK` every operation returns (R137). -/
theorem exec_link_not_busy {i : Instr} {s t : State} (hm : s.cfg.mode = .link)
    (h : exec i s = .next t) : t.busy = false := by
  by_contra hb
  obtain ⟨hloop, -⟩ := exec_waitsForStream h (by simpa using hb)
  rw [(exec_evolves h).cfg_eq, hm] at hloop
  cases hloop

theorem exec_xchg_fill_fault {b : Byte} {s t : State} (hf : s.fault = none)
    (h : exec (.xchg b) s = .next t) : t.fill = s.fill ∧ t.fault = none := by
  obtain ⟨-, -, -, hfill, hfault⟩ := exec_xchg_sameFifo h
  exact ⟨hfill, hfault.trans hf⟩

/-- An instruction that respects the contract leaves `fill` as `fillAfter` says and records no fault (R237). -/
theorem exec_fillAfter {i : Instr} {s t : State} {n : Nat} (hm : s.cfg.mode = .link)
    (hf : s.fault = none) (hn : fillAfter s.cfg.capacity s.fill i = some n)
    (h : exec i s = .next t) : t.fill = n ∧ t.fault = none := by
  rcases exec_cases h with ⟨b, rfl, hw⟩ | ⟨v, u, rfl, hr, rfl⟩ | ⟨rfl, rfl⟩ | ⟨b, r, u, rfl, -, -⟩ |
    ⟨b, rfl, -⟩ | ⟨cmd, len, hi, hp⟩
  · obtain ⟨hroom, hn⟩ := Option.ite_none_right_eq_some.mp hn
    obtain ⟨-, rfl⟩ := rbWrite_ok hw
    cases hn
    exact State.ghostWrite_of_room (s := s.issue) hf hroom.ne
  · obtain ⟨hqueued, hn⟩ := Option.ite_none_right_eq_some.mp hn
    obtain ⟨-, -, rfl⟩ := rbRead_ok hr
    cases hn
    exact State.ghostRead_of_queued (s := s.issue) none hf hqueued.ne'
  · cases hn
    exact ⟨rfl, hf⟩
  · cases hn
    exact exec_xchg_fill_fault hf h
  · cases hn
    exact exec_xchg_fill_fault hf h
  · rw [fillAfter_packet hi] at hn
    obtain ⟨hqueued, hn⟩ := Option.ite_none_right_eq_some.mp hn
    cases hn
    have hsent : s.issue.SentOnLink cmd len t := sendPacket_sentOnLink hm hp
    exact ⟨by simp [hsent.fill, hf], by simp [hsent.fault, hf, hqueued]⟩

/-! ## The block and the books -/

/-- The reference controller drives a `LINK` block that is free of fault and has room for the four PRINT bytes. -/
structure State.Driven (s : State) : Prop where
  cfg : s.cfg.Wf
  driver : s.cfg.driver = .reference
  mode : s.cfg.mode = .link
  room : 4 ≤ s.cfg.capacity
  noFault : s.fault = none
  idle : s.busy = false

/-- What the controller's counts obey at the place where it waits (R205, R217, R231). -/
def Controller.Fits (c : Controller) : Prop :=
  match c.point with
  | .load left => left ≤ c.batchLen
  | .printerInvoke => c.printerState = .transfer → c.bytesSent ≤ c.batchLen
  | .initStatus => c.bytesSent = 0
  | .dataStatus chunk => c.bytesSent + chunk ≤ c.batchLen
  | _ => True

/-- The counts fit, and the operations presented leave the bytes that are owed (R216). -/
structure State.Balanced (s : State) : Prop where
  batch : s.ctl.batchLen ≤ s.cfg.capacity
  fits : s.ctl.Fits
  account : account s.cfg.capacity s.pending s.fill = some s.ctl.owed

theorem Controller.fits_iff (c : Controller) :
    c.Fits ↔ (c.point = .initStatus → c.bytesSent = 0) ∧
      (c.point = .printerInvoke → c.printerState = .transfer → c.bytesSent ≤ c.batchLen) ∧
      (∀ chunk, c.point = .dataStatus chunk → c.bytesSent + chunk ≤ c.batchLen) ∧
      (∀ left, c.point = .load left → left ≤ c.batchLen) := by
  cases hp : c.point <;> simp [Controller.Fits, hp]

theorem State.accounted_iff (s : State) : s.Accounted ↔ s.Driven ∧ s.Balanced := by
  constructor
  · intro h
    exact ⟨⟨h.cfg, h.driver, h.mode, h.room, h.noFault, h.idle⟩, h.batch,
      s.ctl.fits_iff.mpr ⟨h.nothingSent, h.sent, h.chunkFits, h.loading⟩, h.account⟩
  · rintro ⟨hd, hb⟩
    obtain ⟨hnothing, hsent, hchunk, hloading⟩ := s.ctl.fits_iff.mp hb.fits
    exact ⟨hd.cfg, hd.driver, hd.mode, hd.room, hd.noFault, hd.idle, hb.batch, hnothing, hsent,
      hchunk, hloading, hb.account⟩

/-- A move of the controller reaches nothing of the block (R5, R11). -/
theorem State.Driven.sameBlock {s t : State} (hs : s.Driven) (h : s.sameBlock t) : t.Driven := by
  unfold State.sameBlock at h
  rw [h]
  exact ⟨hs.cfg, hs.driver, hs.mode, hs.room, hs.noFault, hs.idle⟩

/-! ## The instruction presented first -/

theorem accounted_exec {s t : State} {bytes : List Byte} {rest : List (List Byte)} {i : Instr}
    (hs : s.Accounted) (hp : s.pending = bytes :: rest) (hd : decode bytes = .ok i)
    (h : exec i { s with pending := rest } = .next t) : t.Accounted := by
  obtain ⟨hdriven, hbal⟩ := s.accounted_iff.mp hs
  have hacc := hbal.account
  rw [hp, account_cons hd] at hacc
  obtain ⟨n, hn, hrest⟩ := Option.bind_eq_some_iff.mp hacc
  obtain ⟨hfill, hfault⟩ := exec_fillAfter (s := { s with pending := rest }) hdriven.mode
    hdriven.noFault hn h
  have hidle := exec_link_not_busy (s := { s with pending := rest }) hdriven.mode h
  obtain ⟨hcfg, hpending, hctl, -⟩ := exec_sameOutside h
  have hkept : t.Driven := ⟨hcfg ▸ hdriven.cfg, hcfg ▸ hdriven.driver, hcfg ▸ hdriven.mode,
    hcfg ▸ hdriven.room, hfault, hidle⟩
  refine t.accounted_iff.mpr ⟨hkept, ?_, hctl ▸ hbal.fits, ?_⟩
  · rw [hctl, hcfg]
    exact hbal.batch
  · rw [hcfg, hpending, hctl, hfill]
    exact hrest

/-! ## A move of the controller -/

section Moves

variable {s : State}

/-- With nothing presented, the FIFO holds what is owed. -/
theorem State.Balanced.fill_eq (hs : s.Balanced) (hp : s.pending = []) : s.fill = s.ctl.owed := by
  have hacc := hs.account
  rw [hp, account_nil] at hacc
  exact Option.some.inj hacc

/-- A move that presents nothing is balanced when the FIFO already holds what is owed after it. -/
theorem balanced_withCtl {c : Controller} (hp : s.pending = []) (hb : c.batchLen ≤ s.cfg.capacity)
    (hc : c.Fits) (ho : s.fill = c.owed) : (s.withCtl c).Balanced :=
  ⟨hb, hc, by simp [hp, ho]⟩

/-- A move that presents operations is balanced when they leave what is owed after it. -/
theorem balanced_present {c : Controller} {ops : List Instr} (hp : s.pending = [])
    (hb : c.batchLen ≤ s.cfg.capacity) (hc : c.Fits)
    (ho : account s.cfg.capacity (ops.map encode) s.fill = some c.owed) :
    ((s.withCtl c).present ops).Balanced :=
  ⟨hb, hc, by simpa [State.present, hp] using ho⟩

/-! ### HostSession -/

theorem balanced_shortRead (bytes : List Byte) (rest : List HostInput) (hs : s.Balanced)
    (hp : s.pending = []) (hfill : s.fill = 0) : (shortRead bytes rest s).Balanced :=
  ⟨hs.batch, trivial, by simp [shortRead, hp, hfill, Controller.owed]⟩

theorem balanced_setupRead (hs : s.Balanced) (hp : s.pending = []) (hfill : s.fill = 0) :
    (setupRead s).Balanced := by
  unfold setupRead
  split
  · exact hs
  · exact balanced_shortRead _ _ hs hp hfill
  · exact balanced_withCtl hp hs.batch trivial hfill

theorem balanced_idleRead (hs : s.Balanced) (hp : s.pending = []) (hfill : s.fill = 0) :
    (idleRead s).Balanced := by
  unfold idleRead
  split
  · exact hs
  · exact balanced_shortRead _ _ hs hp hfill
  · exact balanced_withCtl hp hs.batch trivial hfill

/-- The `RBRST` leaves nothing (R227, R238); a chunk not yet loaded owes nothing (R231). -/
theorem balanced_hostInvoke (hs : s.Balanced) (hp : s.pending = []) (hfill : s.fill = 0) :
    (hostInvoke s).Balanced := by
  unfold hostInvoke
  split
  · exact balanced_present hp hs.batch trivial (account_encode _ _ _ _)
  · exact balanced_setupRead hs hp hfill
  · exact balanced_withCtl hp (Nat.min_le_right _ _) (Nat.le_refl (toRead s))
      (hfill.trans (Nat.sub_self (toRead s)).symm)

/-- The chunk byte is written into the room that is left of the batch (R231, R237). -/
theorem balanced_loadByte {left : Nat} (hs : s.Balanced) (hp : s.pending = [])
    (hpt : s.ctl.point = .load (left + 1)) : (loadByte left s).Balanced := by
  have hfits : left + 1 ≤ s.ctl.batchLen := by simpa [Controller.Fits, hpt] using hs.fits
  have hfill : s.fill = s.ctl.batchLen - (left + 1) := by
    simpa [Controller.owed, hpt] using hs.fill_eq hp
  have hbatch := hs.batch
  unfold loadByte
  split
  · exact hs
  · refine balanced_present hp hbatch (by simp only [Controller.Fits]; omega) ?_
    have hroom : s.fill < s.cfg.capacity := by omega
    simp only [List.map_cons, List.map_nil, account_encode, fillAfter, if_pos hroom,
      Option.bind_some, account_nil, Controller.owed]
    congr 1
    omega

/-- The loaded batch is what PrinterSession is run on (R202, R231). -/
theorem balanced_batchStart (hs : s.Balanced) (hp : s.pending = []) (hpt : s.ctl.point = .load 0) :
    (batchStart s).Balanced := by
  have hfill : s.fill = s.ctl.batchLen := by simpa [Controller.owed, hpt] using hs.fill_eq hp
  exact ⟨hs.batch, nofun, by simp [batchStart, hp, hfill, Controller.owed]⟩

theorem balanced_chunkEnd (hs : s.Balanced) (hp : s.pending = []) (hfill : s.fill = 0) :
    (chunkEnd s).Balanced :=
  balanced_withCtl hp hs.batch trivial hfill

/-! ### PrinterSession -/

/-- A packet without a payload leaves the FIFO as it is (R158). -/
theorem account_emptyPacket (capacity fill : Nat) (cmd : Byte) :
    account capacity ([Instr.sendpkt cmd 0].map encode) fill = some fill := by
  simp [fillAfter]

theorem toNat_chunkSize (h : s.cfg.Wf) :
    (BitVec.ofNat 16 (chunkSize s)).toNat = chunkSize s := by
  obtain ⟨-, -, hmax⟩ := h
  rw [BitVec.toNat_ofNat]
  exact Nat.mod_eq_of_lt (by unfold chunkSize; omega)

/-- A data packet takes the next chunk, which is at most the rest of the batch (R205, R216). -/
theorem account_dataPacket (h : s.cfg.Wf) (hfill : s.fill = s.ctl.batchLen - s.ctl.bytesSent) :
    account s.cfg.capacity ((pktData (BitVec.ofNat 16 (chunkSize s))).map encode) s.fill =
      some (s.ctl.batchLen - s.ctl.bytesSent - chunkSize s) := by
  have hle : chunkSize s ≤ s.fill := hfill ▸ Nat.min_le_left _ _
  simp only [pktData, List.map_cons, List.map_nil, account_encode, fillAfter, toNat_chunkSize h,
    if_pos hle, Option.bind_some, account_nil]
  rw [hfill]

/-- The PRINT payload is written and sent: four bytes, for which there is room (R209, R210). -/
theorem account_print (hroom : 4 ≤ s.cfg.capacity) (hfill : s.fill = 0) (a b c d : Byte) :
    account s.cfg.capacity ((rbwr4 a b c d ++ pktPrint).map encode) s.fill = some 0 := by
  have h (n : Nat) (hn : n < 4) : n < s.cfg.capacity := by omega
  simp [rbwr4, pktPrint, fillAfter, hfill, h]

theorem balanced_printerInvoke (hd : s.Driven) (hs : s.Balanced) (hp : s.pending = [])
    (hpt : s.ctl.point = .printerInvoke) : (printerInvoke s).Balanced := by
  have howed := hs.fill_eq hp
  have hfits := hs.fits
  simp only [Controller.owed, hpt] at howed
  simp only [Controller.Fits, hpt] at hfits
  unfold printerInvoke
  cases hst : s.ctl.printerState with
  | initializing =>
    rw [hst] at howed
    refine balanced_present hp hs.batch rfl ?_
    exact (account_emptyPacket _ _ _).trans (congrArg some howed)
  | transfer =>
    rw [hst] at howed
    refine balanced_present hp hs.batch ?_ (account_dataPacket hd.cfg howed)
    have hsent := hfits hst
    simp only [Controller.Fits, chunkSize]
    omega
  | print =>
    rw [hst] at howed
    exact balanced_present hp hs.batch trivial (account_print hd.room howed _ _ _ _)

/-- The batch stands in the FIFO whole, and nothing of it counts as sent (R203). -/
theorem balanced_initStatus (w : Half) (hs : s.Balanced) (hp : s.pending = [])
    (hpt : s.ctl.point = .initStatus) : (initStatus w s).Balanced := by
  have hfill : s.fill = s.ctl.batchLen := by simpa [Controller.owed, hpt] using hs.fill_eq hp
  have hsent : s.ctl.bytesSent = 0 := by simpa [Controller.Fits, hpt] using hs.fits
  refine balanced_withCtl hp hs.batch ?_ ?_
  · simp [Controller.Fits, hsent]
  · cases hr : isReady s.cfg w <;> simp [Controller.owed, hsent, hfill]

/-- On a ready status the chunk counts as sent: the rest is owed, or the batch is complete (R205, R217). -/
theorem balanced_dataStatus {chunk : Nat} {w : Half} (hs : s.Balanced) (hp : s.pending = [])
    (hpt : s.ctl.point = .dataStatus chunk) (hw : isReady s.cfg w = true) :
    (dataStatus chunk w s).Balanced := by
  have hfill : s.fill = s.ctl.batchLen - s.ctl.bytesSent - chunk := by
    simpa [Controller.owed, hpt] using hs.fill_eq hp
  have hfits : s.ctl.bytesSent + chunk ≤ s.ctl.batchLen := by
    simpa [Controller.Fits, hpt] using hs.fits
  simp only [dataStatus, hw, if_true]
  split
  · refine balanced_withCtl hp hs.batch (fun _ => hfits) ?_
    simp only [Controller.owed]
    omega
  · refine balanced_present hp hs.batch trivial ((account_emptyPacket _ _ _).trans ?_)
    simp only [Controller.owed]
    congr 1
    omega

theorem balanced_endStatus (w : Half) (hs : s.Balanced) (hp : s.pending = []) (hfill : s.fill = 0) :
    (endStatus w s).Balanced :=
  balanced_withCtl hp hs.batch nofun hfill

theorem balanced_poll {next : Point} (w : Half) (hnext : next = .pollBusy ∨ next = .pollClear)
    (hs : s.Balanced) (hp : s.pending = []) (hfill : s.fill = 0) : (poll next w s).Balanced := by
  have ho : account s.cfg.capacity (pktReport.map encode) s.fill = some 0 :=
    (account_emptyPacket _ _ _).trans (congrArg some hfill)
  rcases hnext with rfl | rfl
  · exact balanced_present hp hs.batch trivial ho
  · exact balanced_present hp hs.batch trivial ho

theorem balanced_pollBusy (w : Half) (hs : s.Balanced) (hp : s.pending = []) (hfill : s.fill = 0) :
    (pollBusy w s).Balanced := by
  unfold pollBusy
  split
  · exact balanced_poll w (.inr rfl) hs hp hfill
  · exact balanced_poll w (.inl rfl) hs hp hfill

theorem balanced_pollClear (w : Half) (hs : s.Balanced) (hp : s.pending = []) (hfill : s.fill = 0) :
    (pollClear w s).Balanced := by
  unfold pollClear
  split
  · exact balanced_poll w (.inr rfl) hs hp hfill
  · exact balanced_withCtl hp hs.batch trivial hfill

/-! ### Any move -/

/-- Without a status word the controller waits. -/
theorem balanced_withStatus {k : Half → State → State} (hs : s.Balanced)
    (hk : ∀ w, s.result = some (.status w) → (k w s).Balanced) : (withStatus k s).Balanced := by
  unfold withStatus
  split
  · next w hr => exact hk w hr
  · exact hs

/-- Every move of the reference controller but the fallback leaves the books balanced (R216, R237). -/
theorem balanced_referenceMove (hd : s.Driven) (hs : s.Balanced) (hp : s.pending = [])
    (hback : ¬ s.fallsBack) : (referenceMove s).Balanced := by
  have howed := hs.fill_eq hp
  unfold referenceMove
  cases hpt : s.ctl.point <;> simp only [Controller.owed, hpt] at howed
  case hostInvoke => exact balanced_hostInvoke hs hp howed
  case idleRead => exact balanced_idleRead hs hp howed
  case load left =>
    cases left with
    | zero => exact balanced_batchStart hs hp hpt
    | succ left => exact balanced_loadByte hs hp hpt
  case printerInvoke => exact balanced_printerInvoke hd hs hp hpt
  case initStatus => exact balanced_withStatus hs fun w _ => balanced_initStatus w hs hp hpt
  case dataStatus chunk =>
    refine balanced_withStatus hs fun w hr => balanced_dataStatus hs hp hpt ?_
    by_contra hw
    exact hback ⟨hd.idle, hp, chunk, w, hpt, hr, by simpa using hw⟩
  case endStatus => exact balanced_withStatus hs fun w _ => balanced_endStatus w hs hp howed
  case printStatus => exact balanced_withStatus hs fun w _ => balanced_poll w (.inl rfl) hs hp howed
  case pollBusy => exact balanced_withStatus hs fun w _ => balanced_pollBusy w hs hp howed
  case pollClear => exact balanced_withStatus hs fun w _ => balanced_pollClear w hs hp howed
  case batchDone => exact balanced_chunkEnd hs hp howed

end Moves

theorem controllerMove_reference {s : State} (h : s.cfg.driver = .reference) :
    controllerMove s = referenceMove s := by
  simp [controllerMove, h]

theorem accounted_controllerMove {s : State} (hs : s.Accounted) (hp : s.pending = [])
    (hback : ¬ s.fallsBack) : (controllerMove s).Accounted := by
  obtain ⟨hdriven, hbal⟩ := s.accounted_iff.mp hs
  refine (State.accounted_iff _).mpr ⟨hdriven.sameBlock (sameBlock_controllerMove s), ?_⟩
  rw [controllerMove_reference hdriven.driver]
  exact balanced_referenceMove hdriven hbal hp hback

/-- Settles O50: no operation is in progress, so the step is a move of the controller or the instruction presented
first. -/
theorem referenceControllerKeepsTheContract : Obligations.ReferenceControllerKeepsTheContract := by
  intro s t hs hback h
  rcases step_cases h with ⟨hb, -⟩ | ⟨-, hp, rfl⟩ | ⟨-, bytes, rest, i, hp, hd, he⟩
  · rw [hs.idle] at hb
    cases hb
  · exact accounted_controllerMove hs hp hback
  · exact accounted_exec hs hp hd he

end Sys2Proof.Machine
end

section
/-! SUPPORT. The statements of spec/40_fifo_ops.md over sequences of operations. One operation of the abstract queue is
`queueStep`, and one operation of the block does the same to its queue content (`exec_queueStep_some`,
`exec_queueStep_none`); a list of operations, run at once or presented and run step by step, is an induction over that
square. -/

namespace Sys2Proof.Machine

/-! ## One operation of the abstract queue, and the bytes handed back -/

/-- One FIFO operation on the abstract queue: the queue left and the bytes read, or nothing where it overruns or
underruns (R35, R114). -/
def queueStep (capacity : Nat) : Instr → List Byte → Option (List Byte × List Byte)
  | .rbwr b, q => if q.length < capacity then some (q ++ [b], []) else none
  | .rbrd, v :: q => some (q, [v])
  | .rbrst, _ => some ([], [])
  | _, _ => none

/-- A run of the abstract queue is `queueStep`, one operation after another. -/
theorem queueRun_cons (capacity : Nat) (i : Instr) (rest : List Instr) (q : List Byte) :
    queueRun capacity (i :: rest) q =
      (queueStep capacity i q).bind fun p =>
        (queueRun capacity rest p.1).map fun r => (r.1, p.2 ++ r.2) := by
  cases i with
  | rbwr b => by_cases h : q.length < capacity <;> simp [queueRun, queueStep, h]
  | rbrd =>
    cases q with
    | nil => rfl
    | cons v q => cases h : queueRun capacity rest q <;> simp [queueRun, queueStep, h]
  | rbrst => simp [queueRun, queueStep]
  | _ => rfl

/-- The byte handed back by the operation that ended here, if it handed one back (R86). -/
def State.handed (s : State) : List Byte :=
  match s.result with
  | some (.byte v) => [v]
  | _ => []

/-- A run of the block is `exec`, one operation after another. -/
theorem fifoRun_cons {i : Instr} {s t : State} (h : exec i s = .next t) (rest : List Instr) :
    fifoRun (i :: rest) s = (fifoRun rest t).map fun r => (r.1, t.handed ++ r.2) := by
  cases hrest : fifoRun rest t with
  | none => simp [fifoRun, h, hrest]
  | some r =>
    rcases hres : t.result with _ | (v | w) <;> simp [fifoRun, h, hrest, State.handed, hres]

/-! ## One FIFO operation of the block -/

/-- A FIFO operation runs when both cursors are in range, and returns at once (R111, R112, R113, R293). -/
theorem exec_fifoOp_next {i : Instr} {s : State} (hi : isFifoOp i = true)
    (hhead : s.head < s.cfg.capacity) (htail : s.tail < s.cfg.capacity) :
    ∃ t, exec i s = .next t ∧ t.busy = false := by
  cases i with
  | rbwr b => exact ⟨_, exec_rbwr_of_lt b htail, rfl⟩
  | rbrd => exact ⟨_, exec_rbrd_of_lt hhead, rfl⟩
  | rbrst => exact ⟨_, rfl, rfl⟩
  | _ => cases hi

theorem State.Inv.storeInv {s : State} (hs : s.Inv) : s.StoreInv := by
  obtain ⟨hstore, -⟩ := s.inv_iff.mp hs
  exact hstore

theorem exec_keeps_inv {i : Instr} {s t : State} (hs : s.Inv) (h : exec i s = .next t) : t.Inv :=
  t.inv_iff.mpr ⟨(exec_evolves h).storeInv hs.storeInv, exec_waitsForStream h⟩

/-- Where the abstract queue goes on, the block does the same and records no fault (R35, R114). -/
theorem exec_queueStep_some {i : Instr} {s t : State} {q out : List Byte} (hs : s.Inv)
    (hfree : s.fault = none) (hq : queueStep s.cfg.capacity i s.queue = some (q, out))
    (h : exec i s = .next t) : t.queue = q ∧ t.handed = out ∧ t.fault = none := by
  obtain ⟨hwrite, hread, u, hreset, hqueue, hfault⟩ := queueContent s hs hfree
  cases i with
  | rbwr b =>
    obtain ⟨hroom, hq⟩ := Option.ite_none_right_eq_some.mp hq
    cases hq
    obtain ⟨u, hu, hqueue, hfault⟩ := hwrite b (by simpa using hroom)
    obtain rfl := Host.Outcome.next.inj (hu.symm.trans h)
    obtain ⟨-, ht⟩ := rbWrite_ok (answer_next.mp h)
    exact ⟨hqueue, by rw [ht]; rfl, hfault⟩
  | rbrd =>
    cases hsq : s.queue with
    | nil => rw [hsq] at hq; cases hq
    | cons v vs =>
      rw [hsq] at hq
      cases hq
      obtain ⟨u, hu, hresult, hqueue, hfault⟩ := hread v q hsq
      obtain rfl := Host.Outcome.next.inj (hu.symm.trans h)
      exact ⟨hqueue, by simp [State.handed, hresult], hfault⟩
  | rbrst =>
    cases hq
    obtain rfl := Host.Outcome.next.inj (hreset.symm.trans h)
    exact ⟨hqueue, by rw [exec_rbrst_eq h]; rfl, hfault⟩
  | _ => cases hq

/-- Where the abstract queue overruns or underruns, the block records a fault (R116). -/
theorem exec_queueStep_none {i : Instr} {s t : State} (hi : isFifoOp i = true) (hs : s.Inv)
    (hfree : s.fault = none) (hq : queueStep s.cfg.capacity i s.queue = none)
    (h : exec i s = .next t) : t.fault ≠ none := by
  cases i with
  | rbwr b =>
    have hfull : s.fill = s.cfg.capacity := by
      have hge : ¬ s.fill < s.cfg.capacity := by simpa [queueStep] using hq
      exact le_antisymm hs.fillRange (Nat.le_of_not_lt hge)
    obtain ⟨-, hfault⟩ := State.ghostWrite_of_full (s := s.issue) hfree hfull
    obtain ⟨-, rfl⟩ := rbWrite_ok (answer_next.mp h)
    simp [hfault]
  | rbrd =>
    have hempty : s.fill = 0 := by
      cases hsq : s.queue with
      | nil => rw [← s.queue_length, hsq]; rfl
      | cons v vs => rw [hsq] at hq; cases hq
    obtain ⟨-, hfault⟩ := State.ghostRead_of_empty (s := s.issue) none hfree hempty
    obtain rfl := Host.Outcome.next.inj ((exec_rbrd_of_lt hs.headRange).symm.trans h)
    simp [hfault]
  | rbrst => cases hq
  | _ => cases hi

/-! ## A list of FIFO operations, run at once -/

section FifoRun

variable {ops : List Instr} {s : State}

/-- A list of FIFO operations runs to its end, and keeps a fault recorded before (R116, R254). -/
theorem fifoRun_total (hops : ops.all isFifoOp = true) (hs : s.Inv) :
    ∃ t out, fifoRun ops s = some (t, out) ∧ s.Evolves t := by
  induction ops generalizing s with
  | nil => exact ⟨s, [], rfl, .refl⟩
  | cons i rest ih =>
    obtain ⟨hi, hrest⟩ := Bool.and_eq_true_iff.mp hops
    obtain ⟨t, h, -⟩ := exec_fifoOp_next hi hs.headRange hs.tailRange
    obtain ⟨u, out, hrun, hev⟩ := ih hrest (exec_keeps_inv hs h)
    exact ⟨u, t.handed ++ out, by simp [fifoRun_cons h, hrun], (exec_evolves h).trans hev⟩

theorem fifoRun_of_queueRun_some {q out : List Byte} (hops : ops.all isFifoOp = true) (hs : s.Inv)
    (hfree : s.fault = none) (hq : queueRun s.cfg.capacity ops s.queue = some (q, out)) :
    ∃ t, fifoRun ops s = some (t, out) ∧ t.queue = q ∧ t.fault = none := by
  induction ops generalizing s out with
  | nil => cases hq; exact ⟨s, rfl, rfl, hfree⟩
  | cons i rest ih =>
    obtain ⟨hi, hrest⟩ := Bool.and_eq_true_iff.mp hops
    obtain ⟨t, h, -⟩ := exec_fifoOp_next hi hs.headRange hs.tailRange
    rw [queueRun_cons] at hq
    obtain ⟨⟨q1, out1⟩, hstep, hq⟩ := Option.bind_eq_some_iff.mp hq
    obtain ⟨⟨q2, out2⟩, hrun, hq⟩ := Option.map_eq_some_iff.mp hq
    cases hq
    obtain ⟨rfl, rfl, htfree⟩ := exec_queueStep_some hs hfree hstep h
    rw [← (exec_evolves h).cfg_eq] at hrun
    obtain ⟨u, hu, hqueue, hfault⟩ := ih hrest (exec_keeps_inv hs h) htfree hrun
    exact ⟨u, by simp [fifoRun_cons h, hu], hqueue, hfault⟩

/-- The fault is recorded by the operation at which the queue overruns or underruns, and kept from there on. -/
theorem fifoRun_of_queueRun_none (hops : ops.all isFifoOp = true) (hs : s.Inv)
    (hfree : s.fault = none) (hq : queueRun s.cfg.capacity ops s.queue = none) :
    ∃ t out, fifoRun ops s = some (t, out) ∧ t.fault ≠ none := by
  induction ops generalizing s with
  | nil => cases hq
  | cons i rest ih =>
    obtain ⟨hi, hrest⟩ := Bool.and_eq_true_iff.mp hops
    obtain ⟨t, h, -⟩ := exec_fifoOp_next hi hs.headRange hs.tailRange
    have ht : t.Inv := exec_keeps_inv hs h
    have hafter : ∃ u out, fifoRun rest t = some (u, out) ∧ u.fault ≠ none := by
      cases hstep : queueStep s.cfg.capacity i s.queue with
      | none =>
        obtain ⟨r, hr⟩ := Option.ne_none_iff_exists'.mp (exec_queueStep_none hi hs hfree hstep h)
        obtain ⟨u, out, hrun, hev⟩ := fifoRun_total hrest ht
        exact ⟨u, out, hrun, by simp [hev.fault_kept hr]⟩
      | some p =>
        obtain ⟨hqueue, -, htfree⟩ := exec_queueStep_some hs hfree hstep h
        refine ih hrest ht htfree ?_
        rw [queueRun_cons, hstep, Option.bind_some, Option.map_eq_none_iff] at hq
        rw [hqueue, (exec_evolves h).cfg_eq]
        exact hq
    obtain ⟨u, out, hrun, hfault⟩ := hafter
    exact ⟨u, t.handed ++ out, by simp [fifoRun_cons h, hrun], hfault⟩

end FifoRun

/-- Settles O13. -/
theorem fifoRefinesTheQueue : Obligations.FifoRefinesTheQueue := by
  intro ops s hops hs hfree
  split
  · next q out hq => exact fifoRun_of_queueRun_some hops hs hfree hq
  · next hq => exact fifoRun_of_queueRun_none hops hs hfree hq

/-! ## The cursors -/

theorem exec_rbwr_cursors (b : Byte) {s : State} (h : s.tail < s.cfg.capacity) :
    ∃ t, exec (.rbwr b) s = .next t ∧ t.busy = false ∧ t.cfg = s.cfg ∧ t.head = s.head ∧
      t.tail = nextCursor s.cfg.capacity s.tail :=
  ⟨_, exec_rbwr_of_lt b h, rfl, rfl, rfl, rfl⟩

theorem exec_rbrd_cursors {s : State} (h : s.head < s.cfg.capacity) :
    ∃ t, exec .rbrd s = .next t ∧ t.busy = false ∧ t.cfg = s.cfg ∧
      t.head = nextCursor s.cfg.capacity s.head ∧ t.tail = s.tail :=
  ⟨_, exec_rbrd_of_lt h, rfl, rfl, rfl, rfl⟩

theorem runInstrs_cons {i : Instr} {s t : State} (h : exec i s = .next t) (ht : t.busy = false)
    (rest : List Instr) : runInstrs (i :: rest) s = runInstrs rest t := by
  simp [runInstrs, h, State.ended, ht]

/-- The cursors after any reads and writes, whether or not a fault is recorded (R70, R115). -/
theorem runInstrs_cursors {ops : List Instr} {s : State} (hhead : s.head < s.cfg.capacity)
    (htail : s.tail < s.cfg.capacity) (hops : ∀ i ∈ ops, i = .rbrd ∨ ∃ b, i = .rbwr b) :
    ∃ t, runInstrs ops s = some t ∧
      t.tail = (s.tail + (ops.filter (fun i => decide (i ≠ .rbrd))).length) % s.cfg.capacity ∧
      t.head = (s.head + (ops.filter (fun i => decide (i = .rbrd))).length) % s.cfg.capacity := by
  induction ops generalizing s with
  | nil => exact ⟨s, rfl, (Nat.mod_eq_of_lt htail).symm, (Nat.mod_eq_of_lt hhead).symm⟩
  | cons i rest ih =>
    obtain ⟨hi, hrest⟩ := List.forall_mem_cons.mp hops
    have hcap : 0 < s.cfg.capacity := by omega
    rcases hi with rfl | ⟨b, rfl⟩
    · obtain ⟨t, h, hidle, hcfg, hth, htt⟩ := exec_rbrd_cursors hhead
      obtain ⟨u, hrun, htail', hhead'⟩ :=
        ih (s := t) (by rw [hth, hcfg]; exact nextCursor_lt _ _ hcap) (by rwa [htt, hcfg]) hrest
      rw [htt, hcfg] at htail'
      rw [hth, hcfg, nextCursor_add] at hhead'
      exact ⟨u, (runInstrs_cons h hidle rest).trans hrun, htail', hhead'⟩
    · obtain ⟨t, h, hidle, hcfg, hth, htt⟩ := exec_rbwr_cursors b htail
      obtain ⟨u, hrun, htail', hhead'⟩ :=
        ih (s := t) (by rwa [hth, hcfg]) (by rw [htt, hcfg]; exact nextCursor_lt _ _ hcap) hrest
      rw [htt, hcfg, nextCursor_add] at htail'
      rw [hth, hcfg] at hhead'
      exact ⟨u, (runInstrs_cons h hidle rest).trans hrun, htail', hhead'⟩

/-- Settles O14: both cursors begin at 0, which is below `C`. -/
theorem cursorsCountModuloCapacity : Obligations.CursorsCountModuloCapacity := by
  intro ops s hcap hhead htail hops
  have hrun := runInstrs_cursors (s := s) (by omega) (by omega) hops
  rwa [hhead, htail, Nat.zero_add, Nat.zero_add] at hrun

/-! ## A list of FIFO operations, presented and run step by step -/

theorem State.Inv.withPending {s : State} (hs : s.Inv) (ops : List (List Byte)) :
    State.Inv { s with pending := ops } :=
  (State.inv_iff _).mpr ⟨hs.storeInv.beside (s.besideFifo_pending ops), hs.waiting⟩

theorem runSteps_evolves {n : Nat} {s t : State} (h : runSteps n s = some t) : s.Evolves t := by
  induction n generalizing s with
  | zero => cases h; exact .refl
  | succ n ih =>
    obtain ⟨u, hu, hrun⟩ := runSteps_succ h
    exact (step_evolves hu).trans (ih hrun)

/-- No run is good from a state with a fault recorded (R254). -/
theorem goodRun_of_fault (n : Nat) {s : State} (h : s.fault ≠ none) : goodRun n s = false := by
  by_contra hgood
  obtain ⟨t, hrun, -, hfree⟩ := (goodRun_iff n s).mp (by simpa using hgood)
  obtain ⟨r, hr⟩ := Option.ne_none_iff_exists'.mp h
  rw [(runSteps_evolves hrun).fault_kept hr] at hfree
  cases hfree

theorem goodRun_next {s t : State} (h : step s = .next t) (n : Nat) :
    goodRun (n + 1) s = goodRun n t := by
  simp only [goodRun, runSteps_next h]

/-- From any state that meets the invariant, one step an operation (R254, R296). -/
theorem goodRun_presented {ops : List Instr} {s : State} (hops : ops.all isFifoOp = true)
    (hs : s.Inv) (hidle : s.busy = false) (hfree : s.fault = none)
    (hp : s.pending = ops.map encode) :
    goodRun ops.length s = (queueRun s.cfg.capacity ops s.queue).isSome := by
  induction ops generalizing s with
  | nil => exact (goodRun_iff 0 s).mpr ⟨s, rfl, hidle, hfree⟩
  | cons i rest ih =>
    obtain ⟨hi, hrest⟩ := Bool.and_eq_true_iff.mp hops
    have hs' : State.Inv { s with pending := rest.map encode } := hs.withPending _
    obtain ⟨t, h, htidle⟩ := exec_fifoOp_next hi hs'.headRange hs'.tailRange
    have hstep : step s = .next t := (step_presented hidle hp (decode_encode i)).trans h
    rw [List.length_cons, goodRun_next hstep, queueRun_cons]
    cases hq : queueStep s.cfg.capacity i s.queue with
    | none => exact goodRun_of_fault _ (exec_queueStep_none hi hs' hfree hq h)
    | some p =>
      obtain ⟨hqueue, -, htfree⟩ := exec_queueStep_some hs' hfree hq h
      obtain ⟨hcfg, hpending, -, -⟩ := exec_sameOutside h
      rw [ih hrest (exec_keeps_inv hs' h) htidle htfree hpending, hcfg, hqueue]
      simp

/-- Settles O56: the state presented meets the invariant and its queue is empty. -/
theorem fifoRunIsGoodIffQueueIs : Obligations.FifoRunIsGoodIffQueueIs :=
  fun _ boot _ hcfg hops =>
    goodRun_presented hops ((State.inv_resetWith boot hcfg).withPending _) rfl rfl rfl

end Sys2Proof.Machine
end

section
/-! SUPPORT. The statements of spec/41_transceiver.md on exchanges. `XCHG` in `LOOPBACK` has one equation where the stream
has a byte and one where it has none. What an instruction adds to the trace in `LINK` is said once, as a list of pairs
(`exec_link_pairs`), and the byte trace, the timing of the data line and the delays are read off the pairs. -/

namespace Sys2Proof.Machine

/-! ## One exchange over the stream (R138, R266) -/

/-- Everything `XCHG` does in `LOOPBACK` with a byte available (R138). -/
theorem exec_xchg_loopback {b r : Byte} {rest : List Byte} {s : State}
    (hm : s.cfg.mode = .loopback) (hs : s.streamIn = r :: rest) :
    exec (.xchg b) s = .next ((s.issue.looped b r rest).handBack (.byte r)) := by
  rw [exec, execXchg, exchange_loopback b r rest s.issue hm hs]

/-- Everything `XCHG` does in `LOOPBACK` with no byte available (R138, R266). -/
theorem exec_xchg_waits {b : Byte} {s : State} (hm : s.cfg.mode = .loopback)
    (hs : s.streamIn = []) :
    exec (.xchg b) s = .next
      { s.issue with
        trace := s.trace ++ [.streamWrite b]
        xchg := some { out := b, reply := 0, bit := 7 } } := by
  rw [exec, execXchg, exchange_waits b s.issue hm hs]
  rfl

/-- An exchange in progress before an empty stream leaves the state as it is (R266). -/
theorem step_waiting {s : State} (hm : s.cfg.mode = .loopback) (hx : s.xchg.isSome = true)
    (hs : s.streamIn = []) : step s = .next s := by
  obtain ⟨x, hx⟩ := Option.isSome_iff_exists.mp hx
  have hf : fetch s = .busy := by simp [fetch, State.busy, hx]
  have hr : resume s = .ok s := by
    simp only [resume, hx, continueExchange, hm, hs]
    rw [← hx, ← hs]
  simp [step, hf, hr, answer]

/-- Settles O16: the exchange is `exec_xchg_loopback`. -/
theorem xchgOnTheStream : Obligations.XchgOnTheStream := by
  intro b r rest s hm hs
  have hexec := exec_xchg_loopback (b := b) hm hs
  exact ⟨_, hexec, rfl, rfl, rfl, rfl, rfl, rfl, exec_xchg_sameFifo hexec, exec_sameOutside hexec,
    ⟨rfl, rfl, rfl⟩⟩

/-- Settles O17: the exchange waits (`exec_xchg_waits`), and a step of the waiting state is none (`step_waiting`). -/
theorem xchgWaitsForTheStream : Obligations.XchgWaitsForTheStream := by
  refine ⟨fun b s hm hs => ?_, fun s hm hx hs n => ?_⟩
  · have hexec := exec_xchg_waits (b := b) hm hs
    exact ⟨_, hexec, rfl, rfl, rfl, hs, rfl, rfl, exec_xchg_sameFifo hexec, exec_sameOutside hexec⟩
  · induction n with
    | zero => rfl
    | succ n ih => rw [runSteps_next (step_waiting hm hx hs), ih]

/-- Settles O18: the peer lists the bits of the reply, or the stream holds the reply. -/
theorem everyReplyIsPossible : Obligations.EveryReplyIsPossible := by
  refine fun b r s => ⟨fun hm => ?_, fun hm => ?_⟩
  · have hreply : (State.issue { s with sinIn := bitLevels r }).nextReply = r := by
      rw [← State.comingByte_eq]
      exact State.comingByte_listed r [] _ (List.append_nil _).symm
    refine ⟨bitLevels r, _, exec_xchg_link hm, ?_⟩
    rw [State.handBack_result, hreply]
  · exact ⟨[r], _, exec_xchg_loopback hm rfl, rfl⟩

/-! ## The groups of 48 events (R131, R134) -/

/-- The pin events of exchanges one after another, given as their pairs `(out, in)` (R131, R134). -/
def pairEvents (micros : Nat) (pairs : List (Byte × Byte)) : List Event :=
  pairs.flatMap (fun p => exchangeEvents micros p.1 p.2)

theorem pairEvents_cons (micros : Nat) (p : Byte × Byte) (pairs : List (Byte × Byte)) :
    pairEvents micros (p :: pairs) = exchangeEvents micros p.1 p.2 ++ pairEvents micros pairs := rfl

theorem packBytes_length {n : Nat} {ls : List Level} (h : ls.length = 8 * n) :
    (packBytes ls).length = n := by
  induction n generalizing ls with
  | zero => rw [List.length_eq_zero_iff.mp h]; rfl
  | succ n ih =>
    obtain ⟨l7, l6, l5, l4, l3, l2, l1, l0, h8⟩ :=
      eight_levels (ls := ls.take 8) (by rw [List.length_take]; omega)
    have hd : (ls.drop 8).length = 8 * n := by rw [List.length_drop]; omega
    rw [← List.take_append_drop 8 ls, h8]
    simp [packBytes, ih hd]

/-- Bytes sent with any levels sampled are pairs. -/
theorem sendEvents_eq_pairEvents (micros : Nat) {out : List Byte} {ls : List Level}
    (h : ls.length = 8 * out.length) :
    ∃ pairs, pairs.length = out.length ∧ sendEvents micros out ls = pairEvents micros pairs :=
  ⟨out.zip (packBytes ls), by simp [packBytes_length h], sendEvents_groups micros out ls h⟩

/-- The 48 events of one exchange: how many, what they drive, what they sample, how long they wait (R131, R134). -/
theorem exchangeEvents_views (micros : Nat) (b r : Byte) :
    (exchangeEvents micros b r).length = 48 ∧
      soutLevels (exchangeEvents micros b r) = bitLevels b ∧
      sinLevels (exchangeEvents micros b r) = bitLevels r ∧
      delayTotal (exchangeEvents micros b r) = 16 * micros := by
  rw [exchangeEvents_eq]
  exact linkEvents_views micros b (bitLevels r) rfl

section Pairs

variable (micros : Nat) (pairs : List (Byte × Byte))

/-- The same of several exchanges (R134, R294). -/
theorem pairEvents_views :
    (pairEvents micros pairs).length = 48 * pairs.length ∧
      soutLevels (pairEvents micros pairs) = (pairs.map Prod.fst).flatMap bitLevels ∧
      sinLevels (pairEvents micros pairs) = (pairs.map Prod.snd).flatMap bitLevels ∧
      delayTotal (pairEvents micros pairs) = 16 * micros * pairs.length := by
  induction pairs with
  | nil => exact ⟨rfl, rfl, rfl, rfl⟩
  | cons p pairs ih =>
    obtain ⟨hlen, hsout, hsin, hdelay⟩ := ih
    obtain ⟨hlen1, hsout1, hsin1, hdelay1⟩ := exchangeEvents_views micros p.1 p.2
    rw [pairEvents_cons]
    refine ⟨?_, ?_, ?_, ?_⟩
    · rw [List.length_append, hlen, hlen1, List.length_cons]; omega
    · rw [soutLevels_append, hsout, hsout1]; rfl
    · rw [sinLevels_append, hsin, hsin1]; rfl
    · rw [delayTotal_append, hdelay, hdelay1, List.length_cons]; ring

theorem bytesOut_pairEvents : bytesOut .link (pairEvents micros pairs) = pairs.map Prod.fst := by
  obtain ⟨-, hsout, -, -⟩ := pairEvents_views micros pairs
  rw [bytesOut, hsout, packBytes_bitLevels]

theorem bytesIn_pairEvents : bytesIn .link (pairEvents micros pairs) = pairs.map Prod.snd := by
  obtain ⟨-, -, hsin, -⟩ := pairEvents_views micros pairs
  rw [bytesIn, hsin, packBytes_bitLevels]

theorem byteTrace_pairEvents : byteTrace .link (pairEvents micros pairs) = pairs := by
  rw [byteTrace, bytesOut_pairEvents, bytesIn_pairEvents, List.zip_map']
  exact List.map_id pairs

end Pairs

/-! ## The timing of the data line (R133) -/

/-- The six events of a bit are in time whatever stood before, and leave `SCK` at 1 and `SOUT` settled (R131, R133). -/
theorem dataTiming_bitEvents (sck sout settled : Bool) (micros : Nat) (out sampled : Level)
    (rest : List Event) :
    dataTiming sck sout settled (bitEvents micros out sampled ++ rest) =
      dataTiming true out true rest := by
  simp [bitEvents, dataTiming]

theorem dataTiming_pairEvents (sck sout settled : Bool) (micros : Nat)
    (pairs : List (Byte × Byte)) :
    dataTiming sck sout settled (pairEvents micros pairs) = true := by
  induction pairs generalizing sck sout settled with
  | nil => rfl
  | cons p pairs ih =>
    simp only [pairEvents_cons, exchangeEvents, List.append_assoc, dataTiming_bitEvents, ih]

/-! ## What an instruction adds to the trace in `LINK` -/

/-- How many exchanges an instruction makes when it returns (R131, R160). -/
def exchangesOf : Instr → Nat
  | .rbwr _ | .rbrd | .rbrst => 0
  | .xchg _ => 1
  | .sendpkt _ len | .wireInitialize len | .wirePrint len | .wireTransfer len
  | .wireReport len => 10 + len.toNat

theorem exchangesOf_fifo {i : Instr} (h : isFifoOp i = true) : exchangesOf i = 0 := by
  cases i with
  | rbwr _ => rfl
  | rbrd => rfl
  | rbrst => rfl
  | _ => cases h

theorem exchangesOf_packet {i : Instr} {cmd : Byte} {len : Half} (h : packetOf i = some (cmd, len)) :
    exchangesOf i = 10 + len.toNat := by
  cases i <;> simp only [packetOf, Option.some.injEq, Prod.mk.injEq, reduceCtorEq] at h <;>
    obtain ⟨-, rfl⟩ := h <;> rfl

theorem packetBytes_length (cmd : Byte) (len : Half) (payload : List Byte) :
    (packetBytes cmd len payload).length = 10 + payload.length := by
  simp [packetBytes, headerBytes]
  omega

/-- A packet that goes through in `LINK` is that of `sendPacket_link_any`. -/
theorem sendPacket_link_drained {cmd : Byte} {len : Half} {s t : State} (hm : s.cfg.mode = .link)
    (h : sendPacket cmd len s = .ok t) :
    ∃ p u w, p.length = len.toNat ∧ Drained s u 0 p (packetBytes cmd len p) ∧
      t = u.handBack (.status w) := by
  have hh : len = 0#16 ∨ s.head < s.cfg.capacity := by
    by_contra hout
    obtain ⟨hl, hcap⟩ := not_or.mp hout
    rw [sendPacket_link_outside cmd len s hm hl (Nat.le_of_not_lt hcap)] at h
    cases h
  obtain ⟨p, u, w, hlen, hd, -, -, hsend⟩ := sendPacket_link_any cmd len s hm hh
  exact ⟨p, u, w, hlen, hd, (Except.ok.inj (hsend.symm.trans h)).symm⟩

/-- In `LINK` an instruction adds the events of its exchanges and nothing else (R134, R152, R160). -/
theorem exec_link_pairs {i : Instr} {s t : State} (hm : s.cfg.mode = .link)
    (h : exec i s = .next t) :
    ∃ pairs, pairs.length = exchangesOf i ∧
      t.trace = s.trace ++ pairEvents s.cfg.delayUs pairs := by
  rcases instr_kinds i with hi | ⟨b, rfl⟩ | ⟨cmd, len, hi⟩
  · obtain ⟨htrace, -, -⟩ := exec_fifo_facing hi h s.sinIn s.streamIn
    exact ⟨[], (exchangesOf_fifo hi).symm, by rw [htrace]; exact (List.append_nil _).symm⟩
  · obtain rfl := Host.Outcome.next.inj ((exec_xchg_link hm).symm.trans h)
    obtain ⟨pairs, hlen, hevents⟩ := sendEvents_eq_pairEvents s.cfg.delayUs (out := [b])
      (State.upcoming_length 8 s.issue)
    refine ⟨pairs, hlen, ?_⟩
    rw [← hevents, sendEvents, List.take_of_length_le (State.upcoming_length 8 s.issue).le,
      sendEvents, List.append_nil]
    rfl
  · rw [exec_packet hi] at h
    obtain ⟨p, u, w, hp, hd, rfl⟩ := sendPacket_link_drained (s := s.issue) hm (answer_next.mp h)
    obtain ⟨ls, hls, htrace⟩ := hd.trace
    obtain ⟨pairs, hlen, hevents⟩ := sendEvents_eq_pairEvents s.cfg.delayUs hls
    refine ⟨pairs, by rw [hlen, packetBytes_length, hp, exchangesOf_packet hi], ?_⟩
    rw [← hevents]
    exact htrace

/-- Settles O19: the pairs of `exec_link_pairs` are the byte trace of their events. -/
theorem byteTraceFromPinTrace : Obligations.ByteTraceFromPinTrace := by
  intro i s t hm h
  obtain ⟨pairs, -, htrace⟩ := exec_link_pairs hm h
  obtain ⟨hlen, hsout, hsin, -⟩ := pairEvents_views s.cfg.delayUs pairs
  refine ⟨_, htrace, ?_⟩
  rw [byteTrace_pairEvents, bytesOut_pairEvents, bytesIn_pairEvents, List.length_map,
    List.length_map]
  exact ⟨rfl, hlen, rfl, hsout, hsin⟩

/-- Settles O20: every group of `exec_link_pairs` is in time, whatever levels it begins from. -/
theorem dataLineTiming : Obligations.DataLineTiming := by
  intro i s t hm h
  obtain ⟨pairs, -, htrace⟩ := exec_link_pairs hm h
  exact ⟨_, htrace, dataTiming_pairEvents _ _ _ _ pairs⟩

/-- The delays an instruction adds in `LINK`: 16 an exchange (R132, R294). -/
theorem exec_link_delays {i : Instr} {s t : State} (hm : s.cfg.mode = .link)
    (h : exec i s = .next t) :
    ∃ events, t.trace = s.trace ++ events ∧
      delayTotal events = 16 * s.cfg.delayUs * exchangesOf i := by
  obtain ⟨pairs, hlen, htrace⟩ := exec_link_pairs hm h
  obtain ⟨-, -, -, hdelay⟩ := pairEvents_views s.cfg.delayUs pairs
  exact ⟨_, htrace, hlen ▸ hdelay⟩

/-- Settles O21: an `XCHG` makes one exchange, a packet `10 + len`. -/
theorem delaysPerExchange : Obligations.DelaysPerExchange := by
  refine ⟨fun b s t hm h => ?_, fun i cmd len s t hi hm h => ?_⟩
  · obtain ⟨events, htrace, hdelay⟩ := exec_link_delays hm h
    exact ⟨events, htrace, hdelay.trans (Nat.mul_one _)⟩
  · rw [← exchangesOf_packet hi]
    exact exec_link_delays hm h

end Sys2Proof.Machine
end

section
/-! SUPPORT. The statements of spec/41_transceiver.md and spec/42_packet_framer.md on packets over the stream and on packets
short of their payload. A packet in `LOOPBACK` is the reads of its payload (`State.Reads`) and the exchange of its bytes
(`sendPacket_loopback_reads`), whatever the FIFO holds. -/

namespace Sys2Proof.Machine

/-! ## The bytes of a packet (R87) -/

theorem packetBytes_take (cmd : Byte) (len : Half) {payload : List Byte} {k : Nat}
    (h : k ≤ payload.length) :
    (packetBytes cmd len payload).take (6 + k) = headerBytes cmd len ++ payload.take k := by
  have hheader : (headerBytes cmd len).length = 6 := rfl
  rw [packetBytes, List.append_assoc, ← hheader, List.take_length_add_append,
    List.take_append_of_le_length h]

theorem four_bytes {l : List Byte} (h : l.length = 4) : ∃ c0 c1 hi lo, l = [c0, c1, hi, lo] := by
  match l, h with
  | [c0, c1, hi, lo], _ => exact ⟨c0, c1, hi, lo, rfl⟩

theorem six_bytes {l : List Byte} (h : l.length = 6) :
    ∃ r0 r1 r2 r3 r4 r5, l = [r0, r1, r2, r3, r4, r5] := by
  match l, h with
  | [r0, r1, r2, r3, r4, r5], _ => exact ⟨r0, r1, r2, r3, r4, r5, rfl⟩

/-- The replies of a packet: six to the header, one to each payload byte, and four more, of which the last two make the
status (R156, R157). -/
theorem packet_replies {replies : List Byte} {n : Nat} (h : replies.length = 10 + n) :
    ∃ r0 r1 r2 r3 r4 r5 ins c0 c1 hi lo,
      replies = [r0, r1, r2, r3, r4, r5] ++ ins ++ [c0, c1, hi, lo] ∧ ins.length = n ∧
        replies[8 + n]? = some hi ∧ replies[9 + n]? = some lo := by
  obtain ⟨r0, r1, r2, r3, r4, r5, h6⟩ :=
    six_bytes (l := replies.take 6) (by rw [List.length_take]; omega)
  obtain ⟨c0, c1, hi, lo, h4⟩ :=
    four_bytes (l := (replies.drop 6).drop n) (by rw [List.length_drop, List.length_drop]; omega)
  have hins : ((replies.drop 6).take n).length = n := by
    rw [List.length_take, List.length_drop]; omega
  have hsplit : replies = [r0, r1, r2, r3, r4, r5] ++ (replies.drop 6).take n ++ [c0, c1, hi, lo] := by
    rw [← h6, ← h4, List.append_assoc, List.take_append_drop, List.take_append_drop]
  generalize (replies.drop 6).take n = ins at hins hsplit
  subst hsplit hins
  refine ⟨r0, r1, r2, r3, r4, r5, ins, c0, c1, hi, lo, rfl, rfl, ?_, ?_⟩
  · simp [show 8 + ins.length = ins.length + 2 + 6 by omega]
  · simp [show 9 + ins.length = ins.length + 3 + 6 by omega]

/-! ## The reads of a payload, whatever the FIFO holds (R112, R159) -/

/-- Reads of the payload bytes `k`, `k + 1`, and so on, one after another, that draw the bytes `p` (R154, R161). -/
inductive State.Reads : Nat → List Byte → State → State → Prop
  | nil {k : Nat} {s : State} : State.Reads k [] s s
  | cons {k : Nat} {b : Byte} {p : List Byte} {s u t : State}
      (hread : rbRead (some k) s = .ok (b, u)) (hrest : State.Reads (k + 1) p u t) :
      State.Reads k (b :: p) s t

/-- With `head` in range any number of reads goes through (R23). -/
theorem State.exists_reads (n k : Nat) {s : State} (h : s.head < s.cfg.capacity) :
    ∃ p t, p.length = n ∧ State.Reads k p s t := by
  induction n generalizing k s with
  | zero => exact ⟨[], s, rfl, .nil⟩
  | succ n ih =>
    obtain ⟨b, u, hread⟩ := rbRead_of_lt (some k) s h
    have hu : u.head < u.cfg.capacity := by
      obtain ⟨-, -, rfl⟩ := rbRead_ok hread
      exact nextCursor_lt _ _ (Nat.zero_lt_of_lt h)
    obtain ⟨p, t, hlen, hrest⟩ := ih (k + 1) hu
    exact ⟨b :: p, t, by rw [List.length_cons, hlen], .cons hread hrest⟩

namespace State.Reads

variable {k : Nat} {p : List Byte} {s t : State}

/-- Reads move `head`, `fill`, `fault` and the count of draws, and nothing else (R112). -/
theorem frame (h : State.Reads k p s t) :
    t = { s with head := t.head, fill := t.fill, fault := t.fault, draws := t.draws } := by
  induction h with
  | nil => rfl
  | cons hread _ ih =>
    obtain ⟨-, -, rfl⟩ := rbRead_ok hread
    exact ih

theorem head_eq (h : State.Reads k p s t) (hh : s.head < s.cfg.capacity) :
    t.head = (s.head + p.length) % s.cfg.capacity := by
  induction h with
  | nil => exact (Nat.mod_eq_of_lt hh).symm
  | cons hread _ ih =>
    obtain ⟨-, -, rfl⟩ := rbRead_ok hread
    rw [ih (nextCursor_lt _ _ (Nat.zero_lt_of_lt hh)), nextCursor_add, List.length_cons]

/-- After a recorded fault the ghosts stand still (R254). -/
theorem faulted (h : State.Reads k p s t) (hf : s.fault ≠ none) :
    t.fault = s.fault ∧ t.fill = s.fill := by
  induction h with
  | nil => exact ⟨rfl, rfl⟩
  | cons hread _ ih =>
    obtain ⟨-, -, rfl⟩ := rbRead_ok hread
    rw [State.ghostRead_of_fault _ hf] at ih
    exact ih hf

/-- More reads than queued bytes: the queued bytes come first, and the first read past them records the underrun with its
payload index (R159, R253). -/
theorem short (h : State.Reads k p s t) (hf : s.fault = none) (hlt : s.fill < p.length) :
    p.take s.fill = s.queue ∧ t.fill = 0 ∧
      t.fault = some { kind := .fifoUnderrun, op := s.issued, payload := some (k + s.fill) } := by
  induction h with
  | nil => cases hlt
  | @cons k b p s u t hread hrest ih =>
    obtain ⟨hh, -, hu⟩ := rbRead_ok hread
    by_cases hempty : s.fill = 0
    · obtain ⟨hfill, hfault⟩ := s.ghostRead_of_empty (some k) hf hempty
      have hu' : u.fault = (s.ghostRead (some k)).fault ∧ u.fill = (s.ghostRead (some k)).fill := by
        rw [hu]
        exact ⟨rfl, rfl⟩
      obtain ⟨hkept, hzero⟩ := hrest.faulted (by rw [hu'.1, hfault]; exact Option.some_ne_none _)
      refine ⟨by simp [hempty, State.queue], by rw [hzero, hu'.2, hfill], ?_⟩
      rw [hkept, hu'.1, hfault, hempty, Nat.add_zero]
    · rw [rbRead_faultFree (some k) s hh hf hempty] at hread
      obtain ⟨rfl, rfl⟩ := Prod.mk.inj (Except.ok.inj hread)
      have hfill : s.fill = s.fill - 1 + 1 := by omega
      have hrest : s.fill - 1 < p.length := by rw [List.length_cons] at hlt; omega
      have hindex : k + 1 + (s.fill - 1) = k + s.fill := by omega
      obtain ⟨hbytes, hzero, hfault⟩ := ih hf hrest
      refine ⟨?_, hzero, hindex ▸ hfault⟩
      rw [hfill, List.take_succ_cons, s.queue_cons hempty hh]
      exact congrArg _ hbytes

end State.Reads

/-! ## The packet over the stream, whatever the FIFO holds (R140, R151, R159) -/

/-- The payload phases over the stream: the reads of the payload, and the exchange of the bytes they draw. -/
theorem framerRun_reads_stream {k : Nat} {p : List Byte} {s t : State} (h : State.Reads k p s t)
    (n : Nat) (f : Framer) (levels : List Level) (ins rest : List Byte) (tr : List Event)
    (res : Option Reply) (hm : s.cfg.mode = .loopback) (hins : ins.length = p.length)
    (hrem : f.rem.toNat = p.length) (hk : k + p.length = f.len.toNat)
    (hp : f.phase = afterHeader f.rem) :
    framerRun (n + p.length) f (s.facing levels (ins ++ rest) tr res) =
      framerRun n { f with csum := p.foldl addSum f.csum, rem := 0, phase := .chkLo }
        (t.facing levels rest (tr ++ streamEvents p ins) res) := by
  induction h generalizing f ins tr with
  | nil =>
    obtain rfl : ins = [] := List.length_eq_zero_iff.mp hins
    obtain ⟨cmd, len, csum, rem, phase, statHi⟩ := f
    obtain rfl : rem = 0#16 := BitVec.eq_of_toNat_eq hrem
    obtain rfl : phase = .chkLo := hp
    simp [streamEvents]
  | @cons k b p s u t hread _ ih =>
    obtain ⟨r, ins, rfl⟩ := List.exists_cons_of_length_eq_add_one hins
    rw [List.length_cons] at hins hrem hk
    have hne : f.rem ≠ 0#16 := by intro h0; rw [h0] at hrem; simp at hrem
    have hphase : f.phase = .payload := by simp [hp, afterHeader, hne]
    have hnext : (f.rem - 1).toNat = p.length := by
      rw [BitVec.toNat_sub_of_le (BitVec.le_def.mpr (by simp; omega)), hrem]
      rfl
    have hindex : (f.len - f.rem).toNat = k := by
      rw [BitVec.toNat_sub_of_le (BitVec.le_def.mpr (by omega))]
      omega
    have hfetch : framerFetch f (s.facing levels (r :: ins ++ rest) tr res) =
        .ok (b, { f with csum := addSum f.csum b }, u.facing levels (r :: ins ++ rest) tr res) := by
      simp only [framerFetch, hphase, hindex, rbRead_facing levels _ tr res hread]
    have hu : u.cfg = s.cfg := by obtain ⟨-, -, rfl⟩ := rbRead_ok hread; rfl
    rw [List.length_cons, ← Nat.add_assoc,
      framerRun_loopback _ hfetch (show u.cfg.mode = .loopback from hu ▸ hm) rfl]
    simp only [framerNext, hphase]
    have hcount : k + 1 + p.length = f.len.toNat := by omega
    have hrun := ih
      { f with csum := addSum f.csum b, rem := f.rem - 1, phase := afterHeader (f.rem - 1) } ins
      (tr ++ [.streamWrite b, .streamRead r]) (hu ▸ hm) (Nat.succ.inj hins) hnext hcount rfl
    rw [List.append_assoc] at hrun
    exact hrun

/-- The events of a packet over the stream are those of its header, its payload and its trailer. -/
theorem streamEvents_packetBytes (cmd : Byte) (len : Half) {p header ins : List Byte}
    (trailer : List Byte) (hheader : header.length = 6) (hins : ins.length = p.length) :
    streamEvents (packetBytes cmd len p) (header ++ ins ++ trailer) =
      streamEvents (headerBytes cmd len) header ++ streamEvents p ins ++
        streamEvents [low (checksum cmd len p), high (checksum cmd len p), Wire.statusOut,
          Wire.statusOut] trailer := by
  have hlen : (headerBytes cmd len).length = header.length := hheader.symm
  rw [packetBytes, streamEvents_append _ _ _ _ (by simp [hlen, hins]),
    streamEvents_append _ _ _ _ hlen]

/-- Everything a packet does in `LOOPBACK` with a byte for each exchange, whatever the FIFO holds: the reads of its
payload, the exchange of its bytes, and the status of the last two replies (R140, R151, R156, R159). -/
theorem sendPacket_loopback_reads (cmd : Byte) {len : Half} {s t : State}
    {p replies rest : List Byte} (hm : s.cfg.mode = .loopback) (hreads : State.Reads 0 p s t)
    (hp : p.length = len.toNat) (hreplies : replies.length = 10 + len.toNat)
    (hs : s.streamIn = replies ++ rest) :
    ∃ hi lo, replies[8 + len.toNat]? = some hi ∧ replies[9 + len.toNat]? = some lo ∧
      sendPacket cmd len s =
        .ok ((t.loopAll (packetBytes cmd len p) replies rest).handBack (.status (join hi lo))) := by
  obtain ⟨r0, r1, r2, r3, r4, r5, ins, c0, c1, hi, lo, rfl, hins, hhi, hlo⟩ :=
    packet_replies hreplies
  have hrounds : 10 + (Framer.start cmd len).rem.toNat = 0 + 4 + p.length + 6 := by
    rw [hp, show (Framer.start cmd len).rem = len from rfl]
    omega
  obtain ⟨hmode, htrace, hsin, hresult⟩ :
      t.cfg.mode = .loopback ∧ t.trace = s.trace ∧ t.sinIn = s.sinIn ∧ t.result = s.result := by
    rw [hreads.frame]
    exact ⟨hm, rfl, rfl, rfl⟩
  have hpayload := framerRun_reads_stream hreads (0 + 4)
    { Framer.start cmd len with phase := afterHeader len } s.sinIn ins ([c0, c1, hi, lo] ++ rest)
    (s.trace ++ streamEvents (headerBytes cmd len) [r0, r1, r2, r3, r4, r5]) s.result hm
    (hins.trans hp.symm) hp.symm ((Nat.zero_add _).trans hp) rfl
  refine ⟨hi, lo, hhi, hlo, ?_⟩
  rw [sendPacket, framerGo, hrounds,
    framerRun_header_stream _ cmd len s r0 r1 r2 r3 r4 r5 (ins ++ ([c0, c1, hi, lo] ++ rest)) hm
      (by rw [hs]; simp)]
  refine hpayload.trans ?_
  rw [framerRun_trailer_stream 0 _ _ c0 c1 hi lo rest ?mode ?stream ?phase, State.loopAll,
    State.loopAll, streamEvents_packetBytes cmd len _ rfl (hins.trans hp.symm)]
  case mode => exact hmode
  case stream => rfl
  case phase => rfl
  simp only [State.facing, Framer.start, checksum, htrace, ← hsin, ← hresult, List.append_assoc]

/-- What a packet that `sendPacket_loopback_reads` describes adds to the trace: two events an exchange, and its bytes out
and in (R138, R140). -/
theorem packetEvents_stream (cmd : Byte) {len : Half} {p replies : List Byte}
    (hp : p.length = len.toNat) (hreplies : replies.length = 10 + len.toNat) :
    (streamEvents (packetBytes cmd len p) replies).length = 2 * (10 + len.toNat) ∧
      bytesOut .loopback (streamEvents (packetBytes cmd len p) replies) = packetBytes cmd len p ∧
      bytesIn .loopback (streamEvents (packetBytes cmd len p) replies) = replies := by
  have hlen : (packetBytes cmd len p).length = 10 + len.toNat := by rw [packetBytes_length, hp]
  have hviews := streamEvents_views (packetBytes cmd len p) replies (hlen.trans hreplies.symm)
  rwa [hlen] at hviews

/-- Settles O23: the payload is in the FIFO, so the packet is that of `sendPacket_loopback`. -/
theorem packetCompletesOnTheStream : Obligations.PacketCompletesOnTheStream := by
  intro i cmd len replies rest s hi hm hh hf hq hreplies hs
  obtain ⟨r0, r1, r2, r3, r4, r5, ins, c0, c1, hi', lo, rfl, hins, hhi, hlo⟩ :=
    packet_replies hreplies
  have hp : (s.queue.take len.toNat).length = len.toNat := by
    rw [List.length_take, State.queue_length, Nat.min_eq_left hq]
  have hsend := sendPacket_loopback cmd len s.issue r0 r1 r2 r3 r4 r5 c0 c1 hi' lo ins rest hm
    (by rw [State.issue_streamIn, hs]; simp) hins hh hf hq
  have hexec := (exec_packet hi s).trans (answer_next.mpr hsend)
  obtain ⟨hlen, hout, hin⟩ := packetEvents_stream cmd hp hreplies
  exact ⟨_, _, hi', lo, hexec, rfl, hlen, hout, hin, hhi, hlo, rfl, rfl, rfl, hf, rfl,
    fun _ => rfl, rfl, rfl, rfl, rfl, exec_sameOutside hexec, ⟨rfl, rfl, rfl⟩⟩

/-- Reads past the queued bytes drew the queued bytes first (R159). -/
theorem Drained.take_eq_queue {s t : State} {k0 : Nat} {p out : List Byte} (h : Drained s t k0 p out)
    (hf : s.fault = none) (hlt : s.fill < p.length) : p.take s.fill = s.queue := by
  rw [h.bytes hf, List.take_of_length_le (by rw [State.queue_length]; omega)]

/-- Settles O25: the reads of the payload draw the queue first and record the underrun, in `LINK` by `Drained` and over the
stream by `State.Reads`. -/
theorem deficientPacketRecordsUnderrun : Obligations.DeficientPacketRecordsUnderrun := by
  refine ⟨fun i cmd len s hi hm hh hf hlt => ?link,
    fun i cmd len replies rest s hi hm hh hf hlt hreplies hs => ?loopback⟩
  case link =>
    obtain ⟨p, t, w, hp, hd, -, -, hsend⟩ := sendPacket_link_any cmd len s.issue hm (.inr hh)
    have hexec := (exec_packet hi s).trans (answer_next.mpr hsend)
    obtain ⟨ls, hls, htrace⟩ := hd.trace
    obtain ⟨hlen, hsout, -, -⟩ := sendEvents_views s.cfg.delayUs _ ls hls
    obtain ⟨hfault, hfill⟩ := hd.short hf (hp ▸ hlt)
    have hbytes : p.take s.fill = s.queue := hd.take_eq_queue hf (hp ▸ hlt)
    refine ⟨_, _, hexec, htrace, ?length, ?out, ?fault, hfill, ?head, hd.rest.tail, ?memory,
      ⟨w, rfl⟩, exec_sameOutside hexec, ⟨hd.rest.issued, hd.rest.framer, hd.rest.xchg⟩⟩
    case length => rw [State.issue_cfg, hlen, packetBytes_length, hp]
    case out =>
      rw [State.issue_cfg, bytesOut, hsout, packBytes_bitLevels, packetBytes_take cmd len (by omega),
        hbytes]
    case fault => rw [State.handBack_fault, hfault, Nat.zero_add]; rfl
    case head => rw [State.handBack_head, hd.head hh, hp]; rfl
    case memory => exact fun a => congrArg (·.read a) hd.rest.mem
  case loopback =>
    obtain ⟨p, t, hp, hreads⟩ := State.exists_reads len.toNat 0 (s := s.issue) hh
    obtain ⟨hi', lo, hhi, hlo, hsend⟩ :=
      sendPacket_loopback_reads (s := s.issue) cmd hm hreads hp hreplies hs
    have hexec := (exec_packet hi s).trans (answer_next.mpr hsend)
    obtain ⟨hlen, hout, hin⟩ := packetEvents_stream cmd hp hreplies
    obtain ⟨hbytes, hfill, hfault⟩ := hreads.short hf (hp ▸ hlt)
    have hhead := hreads.head_eq hh
    rw [Nat.zero_add] at hfault
    rw [hp] at hhead
    refine ⟨_, _, hi', lo, hexec, ?trace, hlen, ?out, hin, hhi, hlo, rfl, hfault, hfill, hhead,
      ?tail, ?memory, ?sck, ?sout, ?sin, rfl, exec_sameOutside hexec, ?returned⟩
    case out => rw [hout, packetBytes_take cmd len (by omega)]; exact congrArg _ hbytes
    all_goals rw [hreads.frame]
    case returned => exact ⟨rfl, rfl, rfl⟩
    case memory => exact fun _ => rfl
    all_goals rfl

end Sys2Proof.Machine
end

section
/-! SUPPORT. The statements of spec/42_packet_framer.md on a packet that completes on the lines, on a packet of length 0,
and on an operation that the stream interrupts. The events of exchanges in `LINK` are named (`State.sentEvents`) and
read once. An interrupted packet is one run of the framer before two streams, the shorter one a beginning of the longer
(`State.fed`), by induction over the rounds (`framerRun_resumes`). -/

namespace Sys2Proof.Machine

/-! ## What several exchanges in `LINK` send and sample (R134, R160) -/

/-- The events of the bytes `out` sent from a state in `LINK`, with the levels that the peer presents there. -/
def State.sentEvents (out : List Byte) (s : State) : List Event :=
  sendEvents s.cfg.delayUs out (State.upcoming (8 * out.length) s)

theorem State.linkAll_trace (out : List Byte) (s : State) :
    (State.linkAll out s).trace = s.trace ++ s.sentEvents out := by
  rw [State.linkAll_eq]
  rfl

theorem State.sentEvents_views (out : List Byte) (s : State) :
    (s.sentEvents out).length = 48 * out.length ∧
      bytesOut .link (s.sentEvents out) = out ∧
      sinLevels (s.sentEvents out) = State.upcoming (8 * out.length) s ∧
      bytesIn .link (s.sentEvents out) = packBytes (State.upcoming (8 * out.length) s) := by
  obtain ⟨hlen, hsout, hsin, -⟩ := sendEvents_views s.cfg.delayUs out _ (State.upcoming_length _ s)
  refine ⟨hlen, ?_, hsin, ?_⟩
  · rw [State.sentEvents, bytesOut, hsout, packBytes_bitLevels]
  · rw [State.sentEvents, bytesIn, hsin]

/-- The reply of exchange number `k` is the byte sampled after the `k` bytes before it (R134). -/
theorem State.bytesIn_sentEvents (out : List Byte) (s : State) {k : Nat} (hk : k < out.length) :
    (bytesIn .link (s.sentEvents out))[k]? = some (State.linkAll (out.take k) s).nextReply := by
  obtain ⟨-, -, -, hin⟩ := s.sentEvents_views out
  rw [hin, packBytes_upcoming out s k hk]

theorem State.linkAll_sck {out : List Byte} (s : State) (h : out ≠ []) :
    (State.linkAll out s).sck = true := by
  rw [State.linkAll_eq]
  simp [h]

theorem lastSout_append (l : Level) (as bs : List Byte) :
    lastSout l (as ++ bs) = lastSout (lastSout l as) bs := by
  induction as generalizing l with
  | nil => rfl
  | cons a as ih => exact ih _

/-- A packet leaves `SOUT` at 0, the last bit of its last byte (R155, R163). -/
theorem State.linkAll_packetBytes_sout (cmd : Byte) (len : Half) (payload : List Byte) (s : State) :
    (State.linkAll (packetBytes cmd len payload) s).sout = false := by
  rw [State.linkAll_eq, packetBytes, lastSout_append]
  rfl

theorem State.linkAll_sameFifo (out : List Byte) (s : State) :
    s.sameFifo (State.linkAll out s) := by
  rw [State.linkAll_eq]
  exact ⟨fun _ => rfl, rfl, rfl, rfl, rfl⟩

/-- Settles O22: the payload is in the FIFO, so the packet is that of `sendPacket_link`. -/
theorem packetCompletesOnTheLines : Obligations.PacketCompletesOnTheLines := by
  intro i cmd len s hi hm hh hf hq
  have hexec := (exec_packet hi s).trans
    (answer_next.mpr (sendPacket_link cmd len s.issue hm hh hf hq))
  set out := packetBytes cmd len (s.issue.queue.take len.toNat) with hout
  have hlen : out.length = 10 + len.toNat := by
    rw [hout, packetBytes_length, List.length_take, State.queue_length]
    exact congrArg (10 + ·) (Nat.min_eq_left hq)
  have hne : out ≠ [] := List.ne_nil_of_length_pos (by omega)
  have halike := s.issue.alike_linkAll out
  obtain ⟨hevents, hbytes, hsin, -⟩ := s.issue.sentEvents_views out
  rw [hlen] at hevents hsin
  refine ⟨_, s.issue.sentEvents out, _, _, hexec, s.issue.linkAll_trace out, hevents, hbytes,
    hsin.trans (s.upcoming_issue _), s.issue.bytesIn_sentEvents out (by omega),
    s.issue.bytesIn_sentEvents out (by omega), rfl, rfl, rfl, ?fault, halike.tail, ?memory,
    s.issue.linkAll_sck hne, s.issue.linkAll_packetBytes_sout cmd len _, halike.streamIn,
    exec_sameOutside hexec, halike.issued, halike.framer, halike.xchg⟩
  case fault => exact (State.linkAll_fault out s.issue).trans hf
  case memory => exact fun a => congrArg (·.read a) halike.mem

/-! ## A packet of length 0 (R158) -/

theorem packetBytes_empty (cmd : Byte) :
    packetBytes cmd 0 [] = [0x88, 0x33, cmd, 0x00, 0x00, 0x00, cmd, 0x00, 0x00, 0x00] := by
  have hsum : (checksum cmd 0 []).toNat = cmd.toNat := by
    have hcmd := cmd.isLt
    simp only [toNat_checksum, toNat_low, toNat_high, BitVec.ofNat_eq_ofNat, BitVec.toNat_ofNat,
      List.map_nil, List.sum_nil]
    omega
  have hlow : low (checksum cmd 0 []) = cmd :=
    BitVec.eq_of_toNat_eq (by rw [toNat_low, hsum, Nat.mod_eq_of_lt cmd.isLt])
  have hhigh : high (checksum cmd 0 []) = 0 :=
    BitVec.eq_of_toNat_eq (by rw [toNat_high, hsum, Nat.div_eq_of_lt cmd.isLt]; rfl)
  rw [packetBytes, hlow, hhigh]
  rfl

/-- Settles O24: a packet without a payload reads nothing, so in `LINK` it is the exchange of its bytes
(`sendPacket_link_empty`) and in `LOOPBACK` that of its bytes with the first ten of the stream. -/
theorem emptyPacket : Obligations.EmptyPacket := by
  intro i cmd s hi hready
  cases hm : s.cfg.mode with
  | link =>
    have hexec := (exec_packet hi s).trans (answer_next.mpr (sendPacket_link_empty cmd s.issue hm))
    have halike := s.issue.alike_linkAll (packetBytes cmd 0 [])
    obtain ⟨-, hout, -, hin⟩ := s.issue.sentEvents_views (packetBytes cmd 0 [])
    refine ⟨_, _, hexec, s.issue.linkAll_trace _, hout.trans (packetBytes_empty cmd), ?replies,
      ⟨_, rfl⟩, s.issue.linkAll_sameFifo _, exec_sameOutside hexec, halike.issued, halike.framer,
      halike.xchg⟩
    case replies => rw [hin, packBytes_length (State.upcoming_length _ _), packetBytes_length]; rfl
  | loopback =>
    have hten : 10 ≤ s.streamIn.length := by simpa [hm] using hready
    have hreplies : (s.streamIn.take 10).length = 10 + (0 : Half).toNat := by
      rw [List.length_take, Nat.min_eq_left hten]
      rfl
    obtain ⟨_, _, -, -, hsend⟩ := sendPacket_loopback_reads (s := s.issue) cmd (len := 0) hm .nil rfl
      hreplies (List.take_append_drop 10 s.streamIn).symm
    have hexec := (exec_packet hi s).trans (answer_next.mpr hsend)
    obtain ⟨-, hout, hin⟩ := packetEvents_stream cmd (len := 0) (p := []) rfl hreplies
    exact ⟨_, _, hexec, rfl, hout.trans (packetBytes_empty cmd), by rw [hin, hreplies]; rfl, ⟨_, rfl⟩,
      ⟨fun _ => rfl, rfl, rfl, rfl, rfl⟩, exec_sameOutside hexec, ⟨rfl, rfl, rfl⟩⟩

/-! ## An operation that the stream interrupts (R161, R258, R266) -/

/-- `s` with more bytes at the end of its stream. -/
def State.fed (bytes : List Byte) (s : State) : State :=
  { s with streamIn := s.streamIn ++ bytes }

/-- A fetch of the framer moves the FIFO's side of the state and nothing else (R161). -/
theorem framerFetch_keeps {f f1 : Framer} {s s1 : State} {b : Byte}
    (h : framerFetch f s = .ok (b, f1, s1)) :
    s1 = { s with head := s1.head, fill := s1.fill, fault := s1.fault, draws := s1.draws } := by
  rcases framerFetch_cases h with ⟨-, -, rfl⟩ | ⟨-, -, hr⟩
  · rfl
  · obtain ⟨-, -, rfl⟩ := rbRead_ok hr
    rfl

/-- A fetch of the framer does not see the stream (R51, R161). -/
theorem framerFetch_fed (bytes : List Byte) {f f1 : Framer} {s s1 : State} {b : Byte}
    (h : framerFetch f s = .ok (b, f1, s1)) :
    framerFetch f (s.fed bytes) = .ok (b, f1, s1.fed bytes) := by
  rcases framerFetch_cases h with ⟨hp, rfl, rfl⟩ | ⟨hp, rfl, hr⟩
  · exact framerFetch_outside_payload hp h f1.statHi (s1.fed bytes)
  · have hread : rbRead _ (s.fed bytes) = _ :=
      rbRead_facing s.sinIn (s.streamIn ++ bytes) s.trace s.result hr
    simp only [framerFetch, hp, hread]
    rw [framerFetch_keeps h]
    rfl

/-- The state in which a framer has sent the byte `b` of its phase and waits for the reply (R138, R266). -/
def State.suspended (b : Byte) (f : Framer) (s : State) : State :=
  { s with
    trace := s.trace ++ [.streamWrite b]
    xchg := some { out := b, reply := 0, bit := 7 }
    framer := some f }

/-- The reply that arrives makes the exchange what it would have been, and the framer goes on from there (R161). -/
theorem resume_suspended (b : Byte) (f : Framer) (r : Byte) (rest : List Byte) {s : State}
    (hm : s.cfg.mode = .loopback) (hx : s.xchg = none) (hf : s.framer = none) :
    resume { s.suspended b f with streamIn := r :: rest } =
      (framerNext f r).elim (framerGo · (s.looped b r rest))
        (fun w => .ok ((s.looped b r rest).handBack (.status w))) := by
  have hlooped : { s.looped b r rest with framer := none, xchg := none } = s.looped b r rest := by
    rw [State.looped, ← hx, ← hf]
  have htrace : s.trace ++ [.streamWrite b] ++ [.streamRead r] =
      s.trace ++ [.streamWrite b, .streamRead r] := by rw [List.append_assoc]; rfl
  rw [← hlooped]
  cases hnext : framerNext f r <;>
    simp only [resume, State.suspended, continueExchange, hm, State.streamRead, hnext, Sum.elim_inl,
      Sum.elim_inr, State.looped, htrace]

/-- A packet interrupted by an empty stream goes on where it was: when bytes arrive, it does what the run that had them
from the start does (R161, R258). -/
theorem framerRun_resumes {n : Nat} {f : Framer} {s t : State} (hsound : f.sound) (hn : f.left ≤ n)
    (hm : s.cfg.mode = .loopback) (hx : s.xchg = none) (hf : s.framer = none)
    (h : framerRun n f s = .ok t) (hb : t.busy = true) (r : Byte) (rest : List Byte) :
    resume { t with streamIn := r :: rest } = framerRun n f (s.fed (r :: rest)) := by
  induction n generalizing f s with
  | zero => exact absurd hn (Nat.not_le_of_lt f.left_pos)
  | succ n ih =>
    cases hfetch : framerFetch f s with
    | error e => rw [framerRun, hfetch] at h; cases h
    | ok fetched =>
      obtain ⟨b, f1, s1⟩ := fetched
      obtain ⟨hleft, hsound1⟩ := framerFetch_left hfetch
      obtain ⟨hm1, hx1, hf1⟩ : s1.cfg.mode = .loopback ∧ s1.xchg = none ∧ s1.framer = none := by
        rw [framerFetch_keeps hfetch]
        exact ⟨hm, hx, hf⟩
      have hfed := framerFetch_fed (r :: rest) hfetch
      have hleft_next {g : Framer} {r' : Byte} (hnext : framerNext f1 r' = .inl g) : g.left ≤ n := by
        have hone_less := framerNext_left (hsound1 hsound) hnext
        omega
      cases hstream : s1.streamIn with
      | nil =>
        obtain rfl : s1.suspended b f1 = t :=
          Except.ok.inj ((framerRun_waits n hfetch hm1 hstream).symm.trans h)
        have hstream1 : (s1.fed (r :: rest)).streamIn = r :: rest := by
          rw [State.fed, hstream, List.nil_append]
        rw [resume_suspended b f1 r rest hm1 hx1 hf1, framerRun_loopback n hfed hm1 hstream1]
        cases hnext : framerNext f1 r with
        | inl g =>
          have hg := framerNext_sound hnext
          exact (framerRun_enough _ g _ hg g.left_le).trans
            (framerRun_enough n g _ hg (hleft_next hnext)).symm
        | inr w => rfl
      | cons r' rest' =>
        have hstream1 : (s1.fed (r :: rest)).streamIn = r' :: (rest' ++ r :: rest) := by
          rw [State.fed, hstream, List.cons_append]
        rw [framerRun_loopback n hfetch hm1 hstream] at h
        rw [framerRun_loopback n hfed hm1 hstream1]
        cases hnext : framerNext f1 r' with
        | inl g =>
          rw [hnext] at h
          exact ih (s := s1.looped b r' rest') (framerNext_sound hnext) (hleft_next hnext) hm1 hx1
            hf1 h
        | inr w =>
          rw [hnext] at h
          obtain rfl : (s1.looped b r' rest').handBack (.status w) = t := Except.ok.inj h
          have hreturned : State.busy ((s1.looped b r' rest').handBack (.status w)) = false :=
            (State.busy_eq_false_iff _).mpr ⟨hx1, hf1⟩
          rw [hreturned] at hb
          cases hb

/-- A FIFO operation returns at once (R111, R112, R113). -/
theorem exec_fifo_not_busy {i : Instr} {s t : State} (hi : isFifoOp i = true)
    (h : exec i s = .next t) : t.busy = false := by
  rcases exec_cases h with ⟨b, -, hw⟩ | ⟨v, u, -, hr, rfl⟩ | ⟨-, rfl⟩ | ⟨b, r, u, rfl, -, -⟩ |
    ⟨b, rfl, -⟩ | ⟨cmd, len, hp, -⟩
  · obtain ⟨-, rfl⟩ := rbWrite_ok hw
    rfl
  · obtain ⟨-, -, rfl⟩ := rbRead_ok hr
    rfl
  · rfl
  · cases hi
  · cases hi
  · cases i with
    | rbwr | rbrd | rbrst => cases hp
    | _ => cases hi

/-- An exchange that is in progress found no byte in the stream and waits (R138, R266). -/
theorem exec_xchg_busy {b : Byte} {s t : State} (hm : s.cfg.mode = .loopback)
    (h : exec (.xchg b) s = .next t) (hb : t.busy = true) :
    s.streamIn = [] ∧
      t = { s.issue with
        trace := s.trace ++ [.streamWrite b]
        xchg := some { out := b, reply := 0, bit := 7 } } := by
  cases hs : s.streamIn with
  | nil => exact ⟨rfl, Host.Outcome.next.inj (h.symm.trans (exec_xchg_waits hm hs))⟩
  | cons r rest =>
    obtain rfl := Host.Outcome.next.inj ((exec_xchg_loopback hm hs).symm.trans h)
    cases hb

/-- An operation that is in progress has come to the end of its stream (R266). -/
theorem exec_busy_streamIn {i : Instr} {s t : State} (hm : s.cfg.mode = .loopback)
    (h : exec i s = .next t) (hb : t.busy = true) : t.streamIn = [] := by
  rcases instr_kinds i with hi | ⟨b, rfl⟩ | ⟨cmd, len, hi⟩
  · rw [exec_fifo_not_busy hi h] at hb
    cases hb
  · obtain ⟨hs, rfl⟩ := exec_xchg_busy hm h hb
    exact hs
  · rw [exec_packet hi, answer_next] at h
    rcases sendPacket_ends (s := s.issue) rfl rfl h with ⟨hf, hx, -⟩ | ⟨-, -, -, hs, -⟩
    · rw [t.busy_eq_false_iff.mpr ⟨hx, hf⟩] at hb
      cases hb
    · exact hs

theorem step_busy {s : State} (hb : s.busy = true) : step s = answer (resume s) := by
  have hf : fetch s = .busy := by simp [fetch, hb]
  simp [step, hf]

/-- When bytes arrive, an operation in progress answers what its instruction answers with those bytes in the stream from the
start (R161, R258). -/
theorem exec_resumes {i : Instr} {s t : State} (hm : s.cfg.mode = .loopback)
    (h : exec i s = .next t) (hb : t.busy = true) (r : Byte) (rest : List Byte) :
    answer (resume { t with streamIn := r :: rest }) = exec i (s.fed (r :: rest)) := by
  rcases instr_kinds i with hi | ⟨b, rfl⟩ | ⟨cmd, len, hi⟩
  · rw [exec_fifo_not_busy hi h] at hb
    cases hb
  · obtain ⟨hs, rfl⟩ := exec_xchg_busy hm h hb
    have hstream : (s.fed (r :: rest)).streamIn = r :: rest := by
      rw [State.fed, hs, List.nil_append]
    rw [exec_xchg_loopback (s := s.fed (r :: rest)) hm hstream]
    simp [resume, continueExchange, hm, State.streamRead, State.handBack, answer, State.looped,
      State.fed, State.issue]
  · rw [exec_packet hi, answer_next] at h
    have hresume := framerRun_resumes (s := s.issue) (Framer.start_sound cmd len) (Framer.left_le _)
      hm rfl rfl h hb r rest
    rw [exec_packet hi, hresume]
    rfl

/-- Settles O28: an operation in progress waits in `LOOPBACK` before an empty stream, so no bytes change nothing, and with
bytes it goes on as `exec_resumes` says. -/
theorem waitingOperationResumes : Obligations.WaitingOperationResumes := by
  intro i s t bytes h hb
  obtain ⟨hmt, hx⟩ := exec_waitsForStream h hb
  have hm : s.cfg.mode = .loopback := (exec_evolves h).cfg_eq ▸ hmt
  cases bytes with
  | nil =>
    have hs : { t with streamIn := [] } = t := by rw [← exec_busy_streamIn hm h hb]
    rw [hs, List.append_nil, step_waiting hmt hx (exec_busy_streamIn hm h hb), h]
  | cons r rest =>
    have hbusy : State.busy { t with streamIn := r :: rest } = true := hb
    rw [step_busy hbusy, exec_resumes hm h hb]
    rfl

end Sys2Proof.Machine
end

section
/-! SUPPORT. The statements of spec/43_wire_commands.md. In `LINK` the bytes out of every wire command are those of one
packet (`exec_link_bytesOut`); what each command fixes of them is its code, its length and its checksum. -/

namespace Sys2Proof.Machine

/-! ## The status word (R187) -/

/-- Settles O7: `BUSY_MASK` is the power of two of bit 1, and masking with it keeps that bit alone. -/
theorem busyBitIsBitOne : Obligations.BusyBitIsBitOne := by
  intro w
  have hmask : Wire.busyMask = BitVec.twoPow 16 1 := rfl
  rw [busyBit, hmask, BitVec.and_twoPow]
  cases w.getLsbD 1 <;> rfl

/-! ## The bytes out of a wire command (R181 to R184) -/

section BytesOut

variable {i : Instr} {cmd : Byte} {s : State} (hm : s.cfg.mode = .link)
  (hh : s.head < s.cfg.capacity) (hf : s.fault = none)
include hm hh hf

/-- A packet whose payload is in the FIFO, sent in `LINK`, shifts out its own bytes (R151). -/
theorem exec_link_bytesOut {len : Half} (hi : packetOf i = some (cmd, len))
    (hq : len.toNat ≤ s.fill) :
    ∃ t events, exec i s = .next t ∧ t.trace = s.trace ++ events ∧
      bytesOut .link events = packetBytes cmd len (s.queue.take len.toNat) := by
  obtain ⟨t, events, _, _, hexec, htrace, -, hout, -⟩ :=
    packetCompletesOnTheLines i cmd len s hi hm hh hf hq
  exact ⟨t, events, hexec, htrace, hout⟩

/-- The empty INITIALIZE, the empty REPORT and the terminator differ in their code only (R181, R183, R184). -/
theorem exec_link_bytesOut_empty (hi : packetOf i = some (cmd, 0)) :
    ∃ t events, exec i s = .next t ∧ t.trace = s.trace ++ events ∧
      bytesOut .link events = [0x88, 0x33, cmd, 0x00, 0x00, 0x00, cmd, 0x00, 0x00, 0x00] := by
  obtain ⟨t, events, hexec, htrace, hout⟩ := exec_link_bytesOut hm hh hf hi (Nat.zero_le _)
  exact ⟨t, events, hexec, htrace, hout.trans (packetBytes_empty cmd)⟩

end BytesOut

/-- The checksum of PRINT never wraps: code, length and the two fixed bytes make `0x0204` (R182). -/
theorem toNat_checksum_print (tm bm : Byte) :
    (checksum 0x02 4 [tm, bm, 0xFF, 0xFF]).toNat = 0x0204 + tm.toNat + bm.toNat := by
  have htm := tm.isLt
  have hbm := bm.isLt
  simp only [toNat_checksum, toNat_low, toNat_high, BitVec.ofNat_eq_ofNat, BitVec.toNat_ofNat,
    List.map_cons, List.map_nil, List.sum_cons, List.sum_nil]
  omega

/-- Settles O27: each command is a packet of its own code and length, so its bytes are those of `exec_link_bytesOut`, and
only the checksum is left to compute. -/
theorem wireCommandBytes : Obligations.WireCommandBytes := by
  intro i s hm hh hf
  refine ⟨exec_link_bytesOut_empty hm hh hf, exec_link_bytesOut_empty hm hh hf,
    exec_link_bytesOut_empty hm hh hf, ?transfer, ?print⟩
  case transfer =>
    intro len hi _ hq
    obtain ⟨t, events, hexec, htrace, hout⟩ := exec_link_bytesOut hm hh hf hi hq
    exact ⟨t, events, _, hexec, htrace, hout, toNat_checksum 0x04 len _⟩
  case print =>
    intro tm bm q hi hqueue
    have hfill : (4 : Half).toNat ≤ s.fill := by
      rw [← s.queue_length, hqueue]
      exact Nat.le_add_left 4 q.length
    obtain ⟨t, events, hexec, htrace, hout⟩ := exec_link_bytesOut hm hh hf hi hfill
    rw [hqueue] at hout
    exact ⟨t, events, _, hexec, htrace, hout, toNat_checksum_print tm bm⟩

end Sys2Proof.Machine
end

section
/-! SUPPORT. The statements of spec/44_printer_session.md on one move of the controller. At its turn the controller moves
(`step_reference`), and where it waits for a status word the word decides how (`statusMove`); each clause is then
read off the move. -/

namespace Sys2Proof.Machine

/-! ## The controller's turn -/

/-- With nothing presented and no operation in progress, the reference controller moves (R11). -/
theorem step_reference {s : State} (hd : s.cfg.driver = .reference) (hb : s.busy = false)
    (hp : s.pending = []) : step s = .next (referenceMove s) := by
  rw [step_idle hb hp, controllerMove_reference hd]

/-- What the controller does with the status word at each place where it waits for one (R203, R205, R210 to R213). -/
def statusMove : Point → Option (Half → State → State)
  | .initStatus => some initStatus
  | .dataStatus chunk => some (dataStatus chunk)
  | .endStatus => some endStatus
  | .printStatus => some (poll .pollBusy)
  | .pollBusy => some pollBusy
  | .pollClear => some pollClear
  | _ => none

theorem referenceMove_onStatus {s : State} {k : Half → State → State} {w : Half}
    (hk : statusMove s.ctl.point = some k) (hr : s.result = some (.status w)) :
    referenceMove s = k w s := by
  cases hpt : s.ctl.point <;> rw [hpt] at hk <;> cases hk <;>
    simp only [referenceMove, hpt, withStatus, hr]

theorem referenceMove_printerInvoke {s : State} (h : s.ctl.point = .printerInvoke) :
    referenceMove s = printerInvoke s := by
  simp only [referenceMove, h]

/-- Where the controller holds the status word it waits for, it moves on with it. -/
theorem step_onStatus {s : State} {k : Half → State → State} {w : Half}
    (hd : s.cfg.driver = .reference) (hb : s.busy = false) (hp : s.pending = [])
    (hk : statusMove s.ctl.point = some k) (hr : s.result = some (.status w)) :
    step s = .next (k w s) := by
  rw [step_reference hd hb hp, referenceMove_onStatus hk hr]

/-- At the start of an invocation of PrinterSession the controller presents its first operations. -/
theorem step_printerInvoke {s : State} (hd : s.cfg.driver = .reference) (hb : s.busy = false)
    (hp : s.pending = []) (h : s.ctl.point = .printerInvoke) :
    step s = .next (printerInvoke s) := by
  rw [step_reference hd hb hp, referenceMove_printerInvoke h]

/-! ## The invocations of PrinterSession, state by state (R203, R205, R208 to R210) -/

theorem printerInvoke_initializing {s : State} (h : s.ctl.printerState = .initializing) :
    printerInvoke s =
      (s.withCtl { s.ctl with bytesSent := 0, point := .initStatus }).present pktInit := by
  simp only [printerInvoke, h]

theorem printerInvoke_transfer {s : State} (h : s.ctl.printerState = .transfer) :
    printerInvoke s = (s.withCtl { s.ctl with point := .dataStatus (chunkSize s) }).present
      (pktData (BitVec.ofNat 16 (chunkSize s))) := by
  simp only [printerInvoke, h]

theorem printerInvoke_print {s : State} (h : s.ctl.printerState = .print) :
    printerInvoke s = (s.withCtl { s.ctl with point := .printStatus }).present
      (rbwr4 (marginByte s.cfg s.ctl.isFirst) (marginByte s.cfg s.ctl.isLast) Wire.palette
        Wire.exposure ++ pktPrint) := by
  simp only [printerInvoke, h]

/-! ## The status words that decide (R187, R188) -/

theorem isReady_iff (cfg : Config) (w : Half) :
    isReady cfg w = true ↔ w = cfg.readyEmpty ∨ w = cfg.readyData := by
  simp [isReady]

theorem dataStatus_of_not_ready {s : State} {chunk : Nat} {w : Half}
    (h : ¬ isReady s.cfg w = true) :
    dataStatus chunk w s =
      s.withCtl { s.ctl with
        status := w
        bytesSent := s.ctl.bytesSent + chunk
        printerState := .initializing
        point := .printerInvoke } := by
  simp only [dataStatus, if_neg h]

theorem dataStatus_of_more {s : State} {chunk : Nat} {w : Half} (h : isReady s.cfg w = true)
    (hmore : s.ctl.bytesSent + chunk < s.ctl.batchLen) :
    dataStatus chunk w s =
      s.withCtl { s.ctl with
        status := w
        bytesSent := s.ctl.bytesSent + chunk
        printerState := .transfer
        point := .printerInvoke } := by
  simp only [dataStatus, if_pos h, if_pos hmore]

theorem dataStatus_of_sent {s : State} {chunk : Nat} {w : Half} (h : isReady s.cfg w = true)
    (hsent : s.ctl.batchLen ≤ s.ctl.bytesSent + chunk) :
    dataStatus chunk w s =
      (s.withCtl { s.ctl with
        status := w
        bytesSent := s.ctl.bytesSent + chunk
        point := .endStatus }).present pktEnd := by
  simp only [dataStatus, if_pos h, if_neg (Nat.not_lt.mpr hsent)]

theorem pollBusy_of_clear {w : Half} (h : busyBit w = false) (s : State) :
    pollBusy w s = poll .pollBusy w s := by
  simp [pollBusy, h]

theorem pollBusy_of_busy {w : Half} (h : busyBit w = true) (s : State) :
    pollBusy w s = poll .pollClear w s := by
  simp [pollBusy, h]

theorem pollClear_of_busy {w : Half} (h : busyBit w = true) (s : State) :
    pollClear w s = poll .pollClear w s := by
  simp [pollClear, h]

theorem pollClear_of_clear {w : Half} (h : busyBit w = false) (s : State) :
    pollClear w s =
      s.withCtl { s.ctl with status := w, printerState := .initializing, point := .batchDone } := by
  simp [pollClear, h]

/-! ## The obligations on one move -/

/-- Settles O51: nothing is presented and nothing is counted yet. -/
theorem controllerStartsAccounted : Obligations.ControllerStartsAccounted := by
  intro cfg boot hcfg hdriver hmode hroom
  have hdriven : (State.resetWith cfg boot).Driven := ⟨hcfg, hdriver, hmode, hroom, rfl, rfl⟩
  have hbalanced : (State.resetWith cfg boot).Balanced := ⟨Nat.zero_le _, trivial, rfl⟩
  exact ⟨(State.accounted_iff _).mpr ⟨hdriven, hbalanced⟩,
    ⟨Nat.le_refl 0, nofun, fun h => absurd rfl h⟩⟩

/-- Settles O46. -/
theorem printerInitializeState : Obligations.PrinterInitializeState := by
  refine ⟨fun s hd hb hp hpt hst => ?invoke, fun s w hd hb hp hpt hr => ?status⟩
  case invoke =>
    refine ⟨_, step_printerInvoke hd hb hp hpt, ?_⟩
    rw [printerInvoke_initializing hst]
    exact ⟨rfl, rfl, by simp [hp, pktInit, Wire.codeInitialize]⟩
  case status =>
    refine ⟨initStatus w s, step_onStatus hd hb hp (congrArg statusMove hpt) hr, rfl, rfl, hp, rfl, ?_, ?_⟩
    · exact fun hw => if_pos ((isReady_iff _ _).mpr hw)
    · exact fun hw => if_neg ((isReady_iff _ _).not.mpr hw)

/-- Settles O47: a ready status that leaves bytes to send, one that does not, and any other status are the three cases of
`dataStatus`. -/
theorem printerTransferState : Obligations.PrinterTransferState := by
  refine ⟨fun s hd hb hp hmax hpt hst => ?invoke, fun s len w hd hb hp hpt hr => ?data,
    fun s w hd hb hp hpt hr => ?terminator⟩
  case invoke =>
    refine ⟨_, chunkSize s, step_printerInvoke hd hb hp hpt, rfl, ?_⟩
    rw [printerInvoke_transfer hst]
    refine ⟨rfl, by simp [hp, pktData, Wire.codeTransfer], ?_⟩
    have hle : chunkSize s ≤ s.cfg.maxPayload := Nat.min_le_right _ _
    rw [BitVec.toNat_ofNat]
    exact Nat.mod_eq_of_lt (by omega)
  case data =>
    refine ⟨_, step_onStatus hd hb hp (congrArg statusMove hpt) hr, ?_⟩
    rw [← isReady_iff]
    by_cases hw : isReady s.cfg w = true
    · by_cases hmore : s.ctl.bytesSent + len < s.ctl.batchLen
      · rw [dataStatus_of_more hw hmore]
        exact ⟨rfl, rfl, fun _ => ⟨fun _ => ⟨rfl, rfl, hp⟩, fun hle => by omega⟩,
          fun hn => absurd hw hn⟩
      · rw [dataStatus_of_sent hw (Nat.not_lt.mp hmore)]
        exact ⟨rfl, rfl, fun _ => ⟨fun hlt => absurd hlt hmore,
          fun _ => ⟨rfl, by simp [hp, pktEnd, Wire.codeTransfer]⟩⟩, fun hn => absurd hw hn⟩
    · rw [dataStatus_of_not_ready hw]
      exact ⟨rfl, rfl, fun h => absurd h hw, fun _ => ⟨rfl, rfl, hp⟩⟩
  case terminator =>
    exact ⟨endStatus w s, step_onStatus hd hb hp (congrArg statusMove hpt) hr, rfl, rfl, rfl, hp⟩

/-- A poll presents one REPORT packet after one delay (R211, R213). -/
theorem poll_presents {s : State} (hp : s.pending = []) (next : Point) (w : Half) :
    (poll next w s).pending = [encode (.sendpkt 0x0F 0)] ∧
      (poll next w s).ctl.log = s.ctl.log ++ [.pollDelay s.cfg.pollDelay] := by
  simp [poll, hp, pktReport, Wire.codeReport]

/-- Settles O48: after PRINT and after each poll the next one is `poll`, but for the poll that ends the second loop. -/
theorem printerPrintState : Obligations.PrinterPrintState := by
  refine ⟨fun s hd hb hp hpt hst => ?invoke, fun s w hd hb hp hr hpt => ?status⟩
  case invoke =>
    refine ⟨_, step_printerInvoke hd hb hp hpt, ?_⟩
    rw [printerInvoke_print hst]
    exact ⟨rfl, by simp [hp, rbwr4, pktPrint, marginByte, Wire.palette, Wire.exposure,
      Wire.codePrint]⟩
  case status =>
    rw [← busyBitIsBitOne w]
    rcases hpt with hpt | hpt | hpt
    · refine ⟨poll .pollBusy w s, step_onStatus hd hb hp (congrArg statusMove hpt) hr, rfl, fun _ => rfl,
        ?_, ?_, fun _ => poll_presents hp _ w⟩
      · exact fun ⟨hother, _⟩ => absurd hpt hother
      · simp [hpt]
    · refine ⟨pollBusy w s, step_onStatus hd hb hp (congrArg statusMove hpt) hr, ?_⟩
      cases hw : busyBit w with
      | false =>
        rw [pollBusy_of_clear hw]
        exact ⟨rfl, fun _ => rfl, by simp, by simp [hpt], fun _ => poll_presents hp _ w⟩
      | true =>
        rw [pollBusy_of_busy hw]
        exact ⟨rfl, by simp [hpt], fun _ => rfl, by simp, fun _ => poll_presents hp _ w⟩
    · refine ⟨pollClear w s, step_onStatus hd hb hp (congrArg statusMove hpt) hr, ?_⟩
      cases hw : busyBit w with
      | false =>
        rw [pollClear_of_clear hw]
        exact ⟨rfl, by simp [hpt], by simp, fun _ => ⟨rfl, rfl, hp⟩, fun h => absurd rfl h⟩
      | true =>
        rw [pollClear_of_busy hw]
        exact ⟨rfl, by simp [hpt], fun _ => rfl, by simp, fun _ => poll_presents hp _ w⟩

end Sys2Proof.Machine
end

section
/-! SUPPORT. The statements of spec/44_printer_session.md on whole runs in `LINK`. One packet of the session is what it
leaves of the block (`State.Shipped`) and the status word it is answered (`State.Answered`), said once for any packet that
respects the FIFO contract; an invocation is then such packets with moves of the controller between them, and each run is
an induction over its packets. -/

namespace Sys2Proof.Machine

/-! ## A cursor after several accesses (R70) -/

theorem nextCursor_iterate {capacity x : Nat} (h : x < capacity) (n : Nat) :
    (nextCursor capacity)^[n] x = (x + n) % capacity := by
  induction n with
  | zero => exact (Nat.mod_eq_of_lt h).symm
  | succ n ih => rw [Function.iterate_succ_apply', ih, nextCursor_mod]

/-! ## The session in `LINK` -/

/-- The reference controller drives a `LINK` block in which no operation is in progress. -/
structure State.OnLink (s : State) : Prop where
  driver : s.cfg.driver = .reference
  mode : s.cfg.mode = .link
  idle : s.busy = false

/-- A packet of this length respects the FIFO contract (R286); an empty one always does (R158). -/
def State.Supplies (len : Half) (s : State) : Prop :=
  len = 0 ∨ s.head < s.cfg.capacity ∧ s.fault = none ∧ len.toNat ≤ s.fill

/-- Between `s` and `t` this many packets were sent, with this many payload bytes in all, and nothing else was done to the
block that the session can see. -/
structure State.Shipped (packets bytes : Nat) (s t : State) : Prop where
  cfg : t.cfg = s.cfg
  idle : t.busy = s.busy
  mem : t.mem = s.mem
  head : t.head = (nextCursor s.cfg.capacity)^[bytes] s.head
  tail : t.tail = s.tail
  fill : t.fill = s.fill - bytes
  fault : t.fault = s.fault
  issued : t.issued = s.issued + packets

/-- The controller changed its own state and the port, and drew no free value. -/
def State.MovesTo (s t : State) : Prop := t = { s with pending := t.pending, ctl := t.ctl }

theorem State.movesTo_withCtl (s : State) (c : Controller) : s.MovesTo (s.withCtl c) := rfl

theorem State.movesTo_present (s : State) (c : Controller) (ops : List Instr) :
    s.MovesTo ((s.withCtl c).present ops) := rfl

section Composition

variable {s t u : State} {p q m n : Nat}

theorem State.MovesTo.shipped (h : s.MovesTo t) : s.Shipped 0 0 t := by
  unfold State.MovesTo at h
  rw [h]
  constructor <;> rfl

theorem State.Shipped.trans (hst : s.Shipped p m t) (htu : t.Shipped q n u) :
    s.Shipped (p + q) (m + n) u where
  cfg := htu.cfg.trans hst.cfg
  idle := htu.idle.trans hst.idle
  mem := htu.mem.trans hst.mem
  head := by rw [htu.head, hst.cfg, hst.head, Nat.add_comm, Function.iterate_add_apply]
  tail := htu.tail.trans hst.tail
  fill := by rw [htu.fill, hst.fill, Nat.sub_sub]
  fault := htu.fault.trans hst.fault
  issued := by rw [htu.issued, hst.issued, Nat.add_assoc]

theorem State.Shipped.moves (hst : s.Shipped p m t) (htu : t.MovesTo u) : s.Shipped p m u :=
  hst.trans htu.shipped

theorem State.MovesTo.ships (hst : s.MovesTo t) (htu : t.Shipped p m u) : s.Shipped p m u := by
  simpa only [Nat.zero_add] using hst.shipped.trans htu

theorem State.OnLink.shipped (hs : s.OnLink) (h : s.Shipped p m t) : t.OnLink :=
  ⟨h.cfg ▸ hs.driver, h.cfg ▸ hs.mode, h.idle.trans hs.idle⟩

theorem State.OnLink.moves (hs : s.OnLink) (h : s.MovesTo t) : t.OnLink := hs.shipped h.shipped

theorem State.MovesTo.comingStatuses (h : s.MovesTo t) (lens : List Nat) :
    State.comingStatuses lens t = State.comingStatuses lens s := by
  unfold State.MovesTo at h
  rw [h]
  exact State.comingStatuses_congr lens rfl rfl rfl

theorem State.MovesTo.supplies {len : Half} (h : s.MovesTo t) (hs : s.Supplies len) :
    t.Supplies len := by
  unfold State.MovesTo at h
  rw [h]
  exact hs

end Composition

/-! ## One packet of the session (R151, R156, R163) -/

/-- One packet of `len` payload bytes was sent from `s` to `t` and answered with the status word `w`, which stands in the
controller's hand. -/
structure State.Answered (len : Nat) (w : Half) (s t : State) : Prop where
  shipped : s.Shipped 1 len t
  quiet : t.pending = []
  result : t.result = some (.status w)
  coming : ∀ lens, State.comingStatuses (len :: lens) s = w :: State.comingStatuses lens t

theorem State.MovesTo.answered {s t u : State} {len : Nat} {w : Half} (hst : s.MovesTo t)
    (htu : t.Answered len w u) : s.Answered len w u where
  shipped := hst.ships htu.shipped
  quiet := htu.quiet
  result := htu.result
  coming lens := (hst.comingStatuses (len :: lens)).symm.trans (htu.coming lens)

/-- A packet that respects the contract is its exchanges, the reads of its payload, and its status word. -/
theorem sendPacket_supplied (cmd : Byte) {len : Half} {s : State} (hm : s.cfg.mode = .link)
    (hs : s.Supplies len) :
    ∃ out, out.length = 10 + len.toNat ∧ sendPacket cmd len s =
      .ok (((State.linkAll out s).moved ((nextCursor s.cfg.capacity)^[len.toNat] s.head)
        (s.fill - len.toNat)).handBack (.status (s.comingStatus len.toNat))) := by
  rcases hs with rfl | ⟨hhead, hfault, hfill⟩
  · refine ⟨packetBytes cmd 0 [], packetBytes_length _ _ _, ?_⟩
    rw [sendPacket_link_empty cmd s hm]
    simp only [State.linkAll_eq, State.moved]
    rfl
  · refine ⟨packetBytes cmd len (s.queue.take len.toNat), ?_, ?_⟩
    · rw [packetBytes_length, List.length_take, s.queue_length, Nat.min_eq_left hfill]
    · rw [sendPacket_link_status cmd len s hm hhead hfault hfill, nextCursor_iterate hhead]

/-- The step that runs a presented packet. -/
theorem step_packet {s : State} {cmd : Byte} {len : Half} (hs : s.OnLink)
    (hp : s.pending = [encode (.sendpkt cmd len)]) (hq : s.Supplies len) :
    ∃ w t, step s = .next t ∧ s.Answered len.toNat w t ∧ t.ctl = s.ctl := by
  obtain ⟨out, hlen, hsend⟩ := sendPacket_supplied (s := State.issue { s with pending := [] }) cmd
    hs.mode hq
  have hstep := step_presented hs.idle hp (decode_encode _)
  rw [exec_packet (i := .sendpkt cmd len) rfl, hsend] at hstep
  refine ⟨_, _, hstep, ⟨?shipped, ?quiet, rfl, fun lens => ?coming⟩, ?ctl⟩
  case shipped =>
    rw [State.linkAll_eq]
    exact ⟨rfl, hs.idle.symm ▸ rfl, rfl, rfl, rfl, rfl, rfl, rfl⟩
  case quiet => rw [State.linkAll_eq]; rfl
  case ctl => rw [State.linkAll_eq]; rfl
  case coming =>
    rw [State.comingStatuses_congr (s := s) (t := State.issue { s with pending := [] }) _ rfl rfl rfl,
      State.comingStatuses_cons, ← hlen, ← State.comingStatuses_linkAll]
    exact congrArg _ (State.comingStatuses_congr lens rfl rfl rfl)

/-- A presented packet and the move that takes its status word. -/
theorem runSteps_packet {s : State} {cmd : Byte} {len : Half} {k : Half → State → State}
    (hs : s.OnLink) (hp : s.pending = [encode (.sendpkt cmd len)]) (hq : s.Supplies len)
    (hk : statusMove s.ctl.point = some k) :
    ∃ w t, s.Answered len.toNat w t ∧ t.ctl = s.ctl ∧ runSteps 2 s = some (k w t) := by
  obtain ⟨w, t, hstep, ht, hctl⟩ := step_packet hs hp hq
  have hlink := hs.shipped ht.shipped
  have hmove : step t = .next (k w t) :=
    step_onStatus hlink.driver hlink.idle ht.quiet (hctl ▸ hk) ht.result
  exact ⟨w, t, ht, hctl, by rw [runSteps_next hstep, runSteps_next hmove, runSteps_zero]⟩

/-- The three steps of an invocation of PrinterSession that presents one packet: it is presented, it runs, and its status
word is taken. -/
theorem steps_invoke {s : State} {c : Controller} {cmd : Byte} {len : Half}
    {k : Half → State → State} (hs : s.OnLink) (hp : s.pending = [])
    (hpt : s.ctl.point = .printerInvoke)
    (hinvoke : printerInvoke s = (s.withCtl c).present [.sendpkt cmd len]) (hq : s.Supplies len)
    (hk : statusMove c.point = some k) :
    ∃ w t, step s = .next (printerInvoke s) ∧ step (printerInvoke s) = .next t ∧
      step t = .next (k w t) ∧ s.Answered len.toNat w t ∧ t.ctl = c := by
  have hmoves : s.MovesTo (printerInvoke s) := by rw [hinvoke]; rfl
  obtain ⟨w, t, hstep, ht, hctl⟩ := step_packet (hs.moves hmoves)
    (by rw [hinvoke, State.present_pending, State.withCtl_pending, hp]; rfl) (hmoves.supplies hq)
  rw [hinvoke] at hctl
  have hst := hmoves.answered ht
  have hlink := hs.shipped hst.shipped
  have hmove : step t = .next (k w t) :=
    step_onStatus hlink.driver hlink.idle ht.quiet (hctl ▸ hk) ht.result
  exact ⟨w, t, step_printerInvoke hs.driver hs.idle hp hpt, hstep, hmove, hst, hctl⟩

theorem runSteps_three {s t u v : State} (hst : step s = .next t) (htu : step t = .next u)
    (huv : step u = .next v) : runSteps 3 s = some v := by
  rw [runSteps_next hst, runSteps_next htu, runSteps_next huv, runSteps_zero]

theorem runSteps_trans {m n : Nat} {s t u : State} (hst : runSteps m s = some t)
    (htu : runSteps n t = some u) : runSteps (m + n) s = some u := by
  rw [runSteps_add, hst, Option.bind_some, htu]

/-! ## `Initialize` in `LINK` (R203) -/

/-- PrinterSession is about to invoke `Initialize`. -/
structure State.AtInitialize (s : State) : Prop where
  onLink : s.OnLink
  quiet : s.pending = []
  point : s.ctl.point = .printerInvoke
  printerState : s.ctl.printerState = .initializing

/-- The session `t` is in `Initialize` `k` steps after the session `s` was about to invoke it. -/
structure State.InInitialize (k : Nat) (s t : State) : Prop where
  shipped : s.Shipped ((k + 1) / 3) 0 t
  printerState : t.ctl.printerState = .initializing
  point : t.ctl.point = if k % 3 = 0 then .printerInvoke else .initStatus
  log : t.ctl.log = s.ctl.log

theorem State.AtInitialize.inInitialize {s : State} (h : s.AtInitialize) : s.InInitialize 0 s :=
  ⟨State.MovesTo.shipped rfl, h.printerState, h.point, rfl⟩

/-- A round is three steps and one packet. -/
theorem State.InInitialize.after_round {k : Nat} {s t u : State} (h : s.InInitialize 3 t)
    (htu : t.InInitialize k u) : s.InInitialize (k + 3) u where
  shipped := by
    have hpackets : (k + 3 + 1) / 3 = (3 + 1) / 3 + (k + 1) / 3 := by omega
    rw [hpackets]
    exact h.shipped.trans htu.shipped
  printerState := htu.printerState
  point := by rw [htu.point, Nat.add_mod_right]
  log := htu.log.trans h.log

/-- The three steps of an invocation, with the empty INITIALIZE packet. -/
theorem State.AtInitialize.round {s : State} (h : s.AtInitialize) :
    ∃ w t, step s = .next (printerInvoke s) ∧ step (printerInvoke s) = .next t ∧
      step t = .next (initStatus w t) ∧ s.Answered 0 w t ∧
      t.ctl = { s.ctl with bytesSent := 0, point := .initStatus } :=
  steps_invoke (len := 0) h.onLink h.quiet h.point (printerInvoke_initializing h.printerState)
    (.inl rfl) rfl

/-- While no status word is ready, every step leaves the session in `Initialize` (R203, R215). -/
theorem State.AtInitialize.stays {n : Nat} {s : State} (h : s.AtInitialize)
    (hw : ∀ w, w ∈ State.comingStatuses (List.replicate n 0) s → isReady s.cfg w = false)
    {k : Nat} (hk : k ≤ 3 * n) : ∃ t, runSteps k s = some t ∧ s.InInitialize k t := by
  induction n generalizing s k with
  | zero =>
    obtain rfl : k = 0 := by omega
    exact ⟨s, rfl, h.inInitialize⟩
  | succ n ih =>
    obtain ⟨w, t, hfirst, hsecond, hthird, ht, hctl⟩ := h.round
    rw [List.replicate_succ, ht.coming] at hw
    obtain ⟨hnot, hrest⟩ := List.forall_mem_cons.mp hw
    have hstays : (initStatus w t).ctl.printerState = .initializing :=
      if_neg (by rw [ht.shipped.cfg, hnot]; exact Bool.false_ne_true)
    have hlog : t.ctl.log = s.ctl.log := by rw [hctl]
    have hmoves : t.MovesTo (initStatus w t) := rfl
    match k with
    | 0 => exact ⟨s, rfl, h.inInitialize⟩
    | 1 =>
      refine ⟨_, runSteps_next hfirst 0, ?_⟩
      rw [printerInvoke_initializing h.printerState]
      exact ⟨State.MovesTo.shipped rfl, h.printerState, rfl, rfl⟩
    | 2 =>
      refine ⟨t, (runSteps_next hfirst 1).trans (runSteps_next hsecond 0), ht.shipped, ?_, ?_,
        hlog⟩
      · rw [hctl]; exact h.printerState
      · rw [hctl]; rfl
    | k + 3 =>
      have hround : s.InInitialize 3 (initStatus w t) :=
        ⟨ht.shipped.moves hmoves, hstays, rfl, hlog⟩
      have hnext : (initStatus w t).AtInitialize :=
        ⟨(h.onLink.shipped ht.shipped).moves hmoves, ht.quiet, rfl, hstays⟩
      obtain ⟨u, hrun, hu⟩ := ih hnext
        (by rw [hmoves.comingStatuses, hmoves.shipped.cfg, ht.shipped.cfg]; exact hrest)
        (k := k) (by omega)
      refine ⟨u, ?_, hround.after_round hu⟩
      rw [Nat.add_comm]
      exact runSteps_trans (runSteps_three hfirst hsecond hthird) hrun

theorem State.Shipped.sameFifo {packets : Nat} {s t : State} (h : s.Shipped packets 0 t) :
    s.sameFifo t :=
  ⟨fun a => congrArg (·.read a) h.mem, h.head, h.tail, h.fill, h.fault⟩

/-- Settles O52. -/
theorem neverReadyPeerKeepsInitialize : Obligations.NeverReadyPeerKeepsInitialize := by
  intro n s hd hm hb hp hpt hst hw k hk
  obtain ⟨t, hrun, ht⟩ := State.AtInitialize.stays ⟨⟨hd, hm, hb⟩, hp, hpt, hst⟩ hw hk
  exact ⟨t, hrun, ht.printerState, ht.point, ht.shipped.issued, ht.shipped.sameFifo, ht.log⟩

/-! ## `Transfer` in `LINK` (R205, R216, R217) -/

/-- The first data packet takes what fits; the others are those of the rest. -/
theorem dataPackets_cons {maxPayload : Nat} (hmax : 0 < maxPayload) (n : Nat) :
    dataPackets maxPayload n = min n maxPayload ::
      if n ≤ maxPayload then [] else dataPackets maxPayload (n - maxPayload) := by
  rcases Nat.lt_trichotomy n maxPayload with hlt | rfl | hgt
  · by_cases hn : n = 0
    · simp [dataPackets, hn]
    · simp [dataPackets, hn, Nat.div_eq_of_lt hlt, Nat.mod_eq_of_lt hlt, hlt.le]
  · simp [dataPackets, hmax.ne', Nat.div_self hmax]
  · have hn : n ≠ 0 := by omega
    have hrest : n - maxPayload ≠ 0 := by omega
    have hmod : (n - maxPayload) % maxPayload = n % maxPayload := (Nat.mod_eq_sub_mod hgt.le).symm
    simp [dataPackets, hn, hrest, Nat.div_eq_sub_div hmax hgt.le, hmod, hgt.le, Nat.not_le.mpr hgt,
      List.replicate_succ]

/-- As many data packets as it takes, and at least one. -/
theorem dataPackets_length {maxPayload : Nat} (hmax : 0 < maxPayload) (n : Nat) :
    (dataPackets maxPayload n).length = max 1 ((n + maxPayload - 1) / maxPayload) := by
  induction n using Nat.strong_induction_on with
  | _ n ih =>
    rw [dataPackets_cons hmax]
    split
    · next hle =>
      have hone : (n + maxPayload - 1) / maxPayload < 2 :=
        Nat.div_lt_of_lt_mul (by omega)
      simp only [List.length_cons, List.length_nil]
      omega
    · next hgt =>
      have hceil : (n + maxPayload - 1) / maxPayload =
          (n - maxPayload + maxPayload - 1) / maxPayload + 1 := by
        rw [← Nat.add_div_right _ hmax]
        congr 1
        omega
      have hpos : 0 < (n - maxPayload + maxPayload - 1) / maxPayload :=
        Nat.div_pos (by omega) hmax
      rw [List.length_cons, ih _ (by omega), hceil]
      omega

/-- PrinterSession is about to invoke `Transfer` with `rest` bytes of the batch still to send, which the FIFO holds. -/
structure State.Transferring (rest : Nat) (s : State) : Prop where
  wf : s.cfg.Wf
  onLink : s.OnLink
  quiet : s.pending = []
  point : s.ctl.point = .printerInvoke
  printerState : s.ctl.printerState = .transfer
  left : s.ctl.bytesSent + rest = s.ctl.batchLen
  fill : s.fill = rest
  head : s.head < s.cfg.capacity
  noFault : s.fault = none

theorem State.Shipped.head_lt {packets bytes : Nat} {s t : State} (h : s.Shipped packets bytes t)
    (hs : s.head < s.cfg.capacity) : t.head < t.cfg.capacity := by
  rw [h.head, h.cfg, nextCursor_iterate hs]
  exact Nat.mod_lt _ (by omega)

/-- The three steps of an invocation, with a data packet of the next chunk. -/
theorem State.Transferring.round {rest : Nat} {s : State} (h : s.Transferring rest) :
    ∃ w t, s.Answered (min rest s.cfg.maxPayload) w t ∧
      t.ctl = { s.ctl with point := .dataStatus (min rest s.cfg.maxPayload) } ∧
      runSteps 3 s = some (dataStatus (min rest s.cfg.maxPayload) w t) := by
  have hchunk : chunkSize s = min rest s.cfg.maxPayload := by
    rw [chunkSize, ← h.left, Nat.add_sub_cancel_left]
  have hlen : (BitVec.ofNat 16 (min rest s.cfg.maxPayload)).toNat = min rest s.cfg.maxPayload :=
    hchunk ▸ toNat_chunkSize h.wf
  have hfits : (BitVec.ofNat 16 (min rest s.cfg.maxPayload)).toNat ≤ s.fill := by
    rw [hlen, h.fill]
    exact Nat.min_le_left _ _
  obtain ⟨w, t, hfirst, hsecond, hthird, ht, hctl⟩ := steps_invoke
    (k := dataStatus (min rest s.cfg.maxPayload)) h.onLink h.quiet h.point
    (hchunk ▸ printerInvoke_transfer h.printerState) (.inr ⟨h.head, h.noFault, hfits⟩) rfl
  rw [hlen] at ht
  exact ⟨w, t, ht, hctl, runSteps_three hfirst hsecond hthird⟩

section AllReady

variable {s : State}

/-- A ready status that leaves bytes to send is followed by the next invocation of `Transfer` (R205). -/
theorem State.Transferring.next_chunk {rest : Nat} {lens : List Nat} (h : s.Transferring rest)
    (hmore : s.cfg.maxPayload < rest)
    (hw : ∀ w, w ∈ State.comingStatuses (s.cfg.maxPayload :: lens) s → isReady s.cfg w = true) :
    ∃ t, runSteps 3 s = some t ∧ s.Shipped 1 s.cfg.maxPayload t ∧
      t.Transferring (rest - s.cfg.maxPayload) ∧ t.ctl.batchLen = s.ctl.batchLen ∧
      ∀ w, w ∈ State.comingStatuses lens t → isReady s.cfg w = true := by
  obtain ⟨w, t, ht, hctl, hrun⟩ := h.round
  rw [Nat.min_eq_right hmore.le] at ht hctl hrun
  rw [ht.coming] at hw
  obtain ⟨hready, hrest⟩ := List.forall_mem_cons.mp hw
  rw [← ht.shipped.cfg] at hready
  have hleft := h.left
  have hsent : t.ctl.bytesSent = s.ctl.bytesSent := by rw [hctl]
  have hbatch : t.ctl.batchLen = s.ctl.batchLen := by rw [hctl]
  rw [dataStatus_of_more hready (by omega)] at hrun
  have hmoves := t.movesTo_withCtl
    { t.ctl with
      status := w
      bytesSent := t.ctl.bytesSent + s.cfg.maxPayload
      printerState := .transfer
      point := .printerInvoke }
  have hships := ht.shipped.moves hmoves
  exact ⟨_, hrun, hships,
    { wf := hships.cfg ▸ h.wf
      onLink := h.onLink.shipped hships
      quiet := ht.quiet
      point := rfl
      printerState := rfl
      left := by simp only [State.withCtl_ctl]; omega
      fill := by rw [hships.fill, h.fill]
      head := hships.head_lt h.head
      noFault := hships.fault.trans h.noFault },
    hbatch, by rwa [hmoves.comingStatuses]⟩

/-- PrinterSession is about to invoke `Print`, with this many bytes of the batch sent. -/
structure State.AtPrint (sent : Nat) (s : State) : Prop where
  point : s.ctl.point = .printerInvoke
  printerState : s.ctl.printerState = .print
  bytesSent : s.ctl.bytesSent = sent

/-- A ready status that leaves nothing to send is followed by the terminator and by `Print` (R205). -/
theorem State.Transferring.last_chunk {rest : Nat} (h : s.Transferring rest)
    (hlast : rest ≤ s.cfg.maxPayload)
    (hw : ∀ w, w ∈ State.comingStatuses [rest] s → isReady s.cfg w = true) :
    ∃ t, runSteps 5 s = some t ∧ s.Shipped 2 rest t ∧ t.AtPrint s.ctl.batchLen := by
  obtain ⟨w, t, ht, hctl, hrun⟩ := h.round
  rw [Nat.min_eq_left hlast] at ht hctl hrun
  rw [ht.coming] at hw
  have hready := hw w List.mem_cons_self
  rw [← ht.shipped.cfg] at hready
  have hsent : t.ctl.bytesSent + rest = s.ctl.batchLen := by rw [hctl, ← h.left]
  have hbatch : t.ctl.batchLen = s.ctl.batchLen := by rw [hctl]
  rw [dataStatus_of_sent hready (by omega)] at hrun
  have hmoves := t.movesTo_present
    { t.ctl with status := w, bytesSent := t.ctl.bytesSent + rest, point := .endStatus } pktEnd
  obtain ⟨w', u, hu, huctl, hrun'⟩ := runSteps_packet
    ((h.onLink.shipped ht.shipped).moves hmoves)
    (by simp only [State.present_pending, State.withCtl_pending, ht.quiet]; rfl) (.inl rfl) rfl
  have hend : u.MovesTo (endStatus w' u) := rfl
  exact ⟨endStatus w' u, runSteps_trans hrun hrun',
    (ht.shipped.trans (hmoves.answered hu).shipped).moves hend,
    rfl, rfl, (congrArg Controller.bytesSent huctl).trans hsent⟩

/-- While every status word is ready, the rest of the batch is sent, then the terminator, and `Print` is next. -/
theorem State.Transferring.reaches_print {rest : Nat} (h : s.Transferring rest)
    (hw : ∀ w, w ∈ State.comingStatuses (dataPackets s.cfg.maxPayload rest) s →
      isReady s.cfg w = true) :
    ∃ t, runSteps (3 * (dataPackets s.cfg.maxPayload rest).length + 2) s = some t ∧
      s.Shipped ((dataPackets s.cfg.maxPayload rest).length + 1) rest t ∧
      t.AtPrint s.ctl.batchLen := by
  obtain ⟨-, hmax, -⟩ := h.wf
  induction rest using Nat.strong_induction_on generalizing s with
  | _ rest ih =>
    rw [dataPackets_cons hmax] at hw ⊢
    by_cases hlast : rest ≤ s.cfg.maxPayload
    · rw [if_pos hlast, Nat.min_eq_left hlast] at hw
      rw [if_pos hlast]
      exact h.last_chunk hlast hw
    · have hmore : s.cfg.maxPayload < rest := Nat.lt_of_not_le hlast
      rw [if_neg hlast, Nat.min_eq_right hmore.le] at hw
      rw [if_neg hlast]
      obtain ⟨t, hrun, hst, ht, hbatch, hrest⟩ := h.next_chunk hmore hw
      rw [← hst.cfg] at hrest hmax
      obtain ⟨u, hrun', htu, hu⟩ := ih (rest - t.cfg.maxPayload) (by omega)
        (hst.cfg ▸ ht) hrest hmax
      rw [hst.cfg] at hrun' htu
      have hships := hst.trans htu
      rw [Nat.add_sub_cancel' hmore.le] at hships
      refine ⟨u, ?_, ?_, hbatch ▸ hu⟩
      · rw [List.length_cons, Nat.mul_succ, Nat.add_right_comm, Nat.add_comm]
        exact runSteps_trans hrun hrun'
      · rwa [List.length_cons, Nat.add_comm _ 1]

/-- A ready status after the INITIALIZE packet leaves the whole batch to `Transfer` (R203). -/
theorem State.AtInitialize.goes_on {lens : List Nat} (h : s.AtInitialize) (hwf : s.cfg.Wf)
    (hhead : s.head < s.cfg.capacity) (hfault : s.fault = none) (hfill : s.fill = s.ctl.batchLen)
    (hw : ∀ w, w ∈ State.comingStatuses (0 :: lens) s → isReady s.cfg w = true) :
    ∃ t, runSteps 3 s = some t ∧ s.Shipped 1 0 t ∧ t.Transferring s.ctl.batchLen ∧
      t.ctl.batchLen = s.ctl.batchLen ∧
      ∀ w, w ∈ State.comingStatuses lens t → isReady s.cfg w = true := by
  obtain ⟨w, t, hfirst, hsecond, hthird, ht, hctl⟩ := h.round
  rw [ht.coming] at hw
  obtain ⟨hready, hrest⟩ := List.forall_mem_cons.mp hw
  have hbatch : t.ctl.batchLen = s.ctl.batchLen := by rw [hctl]
  have hsent : t.ctl.bytesSent = 0 := by rw [hctl]
  have hmoves : t.MovesTo (initStatus w t) := rfl
  have hships := ht.shipped.moves hmoves
  exact ⟨initStatus w t, runSteps_three hfirst hsecond hthird, hships,
    { wf := hships.cfg ▸ hwf
      onLink := h.onLink.shipped hships
      quiet := ht.quiet
      point := rfl
      printerState := if_pos (by rw [ht.shipped.cfg, hready])
      left := by simp only [initStatus, State.withCtl_ctl, hsent, hbatch, Nat.zero_add]
      fill := hships.fill.trans hfill
      head := hships.head_lt hhead
      noFault := hships.fault.trans hfault },
    hbatch, by rwa [hmoves.comingStatuses]⟩

end AllReady

/-- Settles O53: the INITIALIZE packet is one round, and its ready status leaves the whole batch to `Transfer`. -/
theorem readyPeerReachesPrint : Obligations.ReadyPeerReachesPrint := by
  intro s hwf hd hm hb hp hhead hfault hpt hst hfill hw
  obtain ⟨t, hrun, hinit, ht, hbatch, hrest⟩ :=
    State.AtInitialize.goes_on ⟨⟨hd, hm, hb⟩, hp, hpt, hst⟩ hwf hhead hfault hfill hw
  rw [← hinit.cfg] at hrest
  obtain ⟨u, hrun', htu, hu⟩ := ht.reaches_print hrest
  obtain ⟨-, hmax, -⟩ := hwf
  rw [hinit.cfg, dataPackets_length hmax] at hrun' htu
  have hships := hinit.trans htu
  refine ⟨_, u, rfl, ?_, hu.point, hu.printerState, hu.bytesSent.trans hbatch, ?_, ?_, hships.tail,
    ?_, hships.fault.trans hfault⟩
  · have hall := runSteps_trans hrun hrun'
    rwa [Nat.add_left_comm] at hall
  · rw [hships.issued]
    omega
  · rw [hships.head, Nat.zero_add, nextCursor_iterate hhead]
  · rw [hships.fill, hfill]
    omega

/-! ## `Print` in `LINK` (R208 to R213) -/

/-- Between `s` and `t` this many bytes were written into room of the FIFO, and the peer saw nothing of it (R51, R111). -/
structure State.Written (n : Nat) (s t : State) : Prop where
  cfg : t.cfg = s.cfg
  ctl : t.ctl = s.ctl
  idle : t.busy = s.busy
  head : t.head = s.head
  tail : t.tail = (nextCursor s.cfg.capacity)^[n] s.tail
  fill : t.fill = s.fill + n
  fault : t.fault = s.fault
  issued : t.issued = s.issued + n
  coming : ∀ lens, State.comingStatuses lens t = State.comingStatuses lens s

theorem State.written_refl (s : State) : s.Written 0 s :=
  ⟨rfl, rfl, rfl, rfl, rfl, rfl, rfl, rfl, fun _ => rfl⟩

theorem State.Written.trans {m n : Nat} {s t u : State} (hst : s.Written m t) (htu : t.Written n u) :
    s.Written (m + n) u where
  cfg := htu.cfg.trans hst.cfg
  ctl := htu.ctl.trans hst.ctl
  idle := htu.idle.trans hst.idle
  head := htu.head.trans hst.head
  tail := by rw [htu.tail, hst.cfg, hst.tail, Nat.add_comm, Function.iterate_add_apply]
  fill := by rw [htu.fill, hst.fill, Nat.add_assoc]
  fault := htu.fault.trans hst.fault
  issued := by rw [htu.issued, hst.issued, Nat.add_assoc]
  coming lens := (htu.coming lens).trans (hst.coming lens)

/-- The step that writes a presented byte. -/
theorem step_write {b : Byte} {rest : List (List Byte)} {s : State} (hidle : s.busy = false)
    (hp : s.pending = encode (.rbwr b) :: rest) (htail : s.tail < s.cfg.capacity)
    (hfault : s.fault = none) (hroom : s.fill < s.cfg.capacity) :
    ∃ t, step s = .next t ∧ s.Written 1 t ∧ t.pending = rest := by
  obtain ⟨hfill, hfree⟩ :=
    State.ghostWrite_of_room (s := State.issue { s with pending := rest }) hfault hroom.ne
  exact ⟨_, (step_presented hidle hp (decode_encode _)).trans
      (exec_rbwr_of_lt b (s := { s with pending := rest }) htail),
    ⟨rfl, rfl, hidle.symm, rfl, rfl, hfill, hfree.trans hfault.symm, rfl,
      fun lens => State.comingStatuses_congr lens rfl rfl rfl⟩, rfl⟩

/-- Bytes presented to `RBWR` are written one step a byte. -/
theorem runSteps_writes {bytes : List Byte} {rest : List (List Byte)} {s : State}
    (hidle : s.busy = false) (hp : s.pending = bytes.map (fun b => encode (.rbwr b)) ++ rest)
    (htail : s.tail < s.cfg.capacity) (hfault : s.fault = none)
    (hroom : s.fill + bytes.length ≤ s.cfg.capacity) :
    ∃ t, runSteps bytes.length s = some t ∧ s.Written bytes.length t ∧ t.pending = rest := by
  induction bytes generalizing s with
  | nil => exact ⟨s, rfl, s.written_refl, hp⟩
  | cons b bytes ih =>
    rw [List.length_cons] at hroom ⊢
    obtain ⟨t, hstep, hst, hpending⟩ := step_write hidle hp htail hfault (by omega)
    obtain ⟨u, hrun, htu, hrest⟩ := ih (s := t) (hst.idle.trans hidle) hpending
      (by rw [hst.tail, hst.cfg]; exact nextCursor_lt _ _ (by omega)) (hst.fault.trans hfault)
      (by rw [hst.fill, hst.cfg]; omega)
    exact ⟨u, (runSteps_next hstep _).trans hrun, Nat.add_comm 1 _ ▸ hst.trans htu, hrest⟩

/-- A REPORT packet is presented, its status word is awaited at `p`, and the peer answers it and the empty packets after
it with the words `ws`. -/
structure State.Polling (p : Point) (ws : List Half) (s : State) : Prop where
  onLink : s.OnLink
  point : s.ctl.point = p
  presented : s.pending = [encode (.sendpkt Wire.codeReport 0)]
  coming : State.comingStatuses (List.replicate ws.length 0) s = ws

/-- Between `s` and `t` the session polled this many times, each time after one delay (R211, R213). -/
structure State.Polled (n : Nat) (s t : State) : Prop where
  shipped : s.Shipped n 0 t
  log : t.ctl.log = s.ctl.log ++ List.replicate n (.pollDelay s.cfg.pollDelay)

theorem State.polled_refl (s : State) : s.Polled 0 s :=
  ⟨State.MovesTo.shipped rfl, (List.append_nil _).symm⟩

theorem State.Polled.trans {m n : Nat} {s t u : State} (hst : s.Polled m t) (htu : t.Polled n u) :
    s.Polled (m + n) u where
  shipped := hst.shipped.trans htu.shipped
  log := by
    rw [htu.log, hst.log, hst.shipped.cfg, List.append_assoc, List.replicate_add]

/-- What a poll whose status word is `w` does: the REPORT packet runs, and the move at `p` takes the word. -/
theorem State.Polling.round {p : Point} {w : Half} {ws : List Half} {k : Half → State → State}
    {s : State} (h : s.Polling p (w :: ws)) (hk : statusMove p = some k) :
    ∃ t, s.Answered 0 w t ∧ t.ctl = s.ctl ∧ runSteps 2 s = some (k w t) ∧
      State.comingStatuses (List.replicate ws.length 0) t = ws := by
  obtain ⟨w', t, ht, hctl, hrun⟩ :=
    runSteps_packet (len := 0) h.onLink h.presented (.inl rfl) (h.point ▸ hk)
  have hcoming := h.coming
  rw [List.length_cons, List.replicate_succ] at hcoming
  obtain ⟨rfl, hrest⟩ := List.cons.inj ((ht.coming _).symm.trans hcoming)
  exact ⟨t, ht, hctl, hrun, hrest⟩

/-- The move that presents the next poll, at `q`. -/
theorem poll_polling {ws : List Half} {s : State} (q : Point) (w : Half) (hs : s.OnLink)
    (hp : s.pending = []) (hw : State.comingStatuses (List.replicate ws.length 0) s = ws) :
    (poll q w s).Polling q ws := by
  have hmoves : s.MovesTo (poll q w s) := rfl
  obtain ⟨hpending, -⟩ := poll_presents hp q w
  exact ⟨hs.moves hmoves, rfl, hpending, (hmoves.comingStatuses _).trans hw⟩

/-- A poll that is followed by another one, at `q`. -/
theorem State.Polling.next {p q : Point} {w : Half} {ws : List Half} {k : Half → State → State}
    {s : State} (h : s.Polling p (w :: ws)) (hk : statusMove p = some k)
    (hnext : ∀ t, k w t = poll q w t) :
    ∃ t, runSteps 2 s = some t ∧ t.Polling q ws ∧ s.Polled 1 t := by
  obtain ⟨t, ht, hctl, hrun, hrest⟩ := h.round hk
  have hmoves : t.MovesTo (poll q w t) := rfl
  obtain ⟨-, hlog⟩ := poll_presents ht.quiet q w
  rw [hctl, ht.shipped.cfg] at hlog
  exact ⟨poll q w t, hnext t ▸ hrun, poll_polling q w (h.onLink.shipped ht.shipped) ht.quiet hrest,
    ht.shipped.moves hmoves, hlog⟩

/-- A poll loop goes on for as long as the peer's words let it. -/
theorem State.Polling.loop {p : Point} {ws rest : List Half} {k : Half → State → State} {s : State}
    (h : s.Polling p (ws ++ rest)) (hk : statusMove p = some k)
    (hstay : ∀ w ∈ ws, ∀ t, k w t = poll p w t) :
    ∃ t, runSteps (2 * ws.length) s = some t ∧ t.Polling p rest ∧ s.Polled ws.length t := by
  induction ws generalizing s with
  | nil => exact ⟨s, rfl, h, s.polled_refl⟩
  | cons w ws ih =>
    obtain ⟨hw, hws⟩ := List.forall_mem_cons.mp hstay
    obtain ⟨t, hrun, ht, hst⟩ := h.next hk hw
    obtain ⟨u, hrun', hu, htu⟩ := ih ht hws
    refine ⟨u, ?_, hu, ?_⟩
    · rw [List.length_cons, Nat.mul_succ, Nat.add_comm]
      exact runSteps_trans hrun hrun'
    · rw [List.length_cons, Nat.add_comm]
      exact hst.trans htu

/-- The batch is complete, with this last status word (R204, R212). -/
structure State.BatchDone (last : Half) (s : State) : Prop where
  point : s.ctl.point = .batchDone
  printerState : s.ctl.printerState = .initializing
  status : s.ctl.status = last

/-- A word that is not busy ends the second loop without another poll. -/
theorem State.Polling.ends {last : Half} {s : State} (h : s.Polling .pollClear [last])
    (hlast : busyBit last = false) :
    ∃ t, runSteps 2 s = some t ∧ s.Shipped 1 0 t ∧ t.ctl.log = s.ctl.log ∧ t.BatchDone last := by
  obtain ⟨t, ht, hctl, hrun, -⟩ := h.round rfl
  rw [pollClear_of_clear hlast] at hrun
  have hmoves := t.movesTo_withCtl
    { t.ctl with status := last, printerState := .initializing, point := .batchDone }
  have hlog : t.ctl.log = s.ctl.log := by rw [hctl]
  exact ⟨_, hrun, ht.shipped.moves hmoves, hlog, rfl, rfl, rfl⟩

/-- Both poll loops: words that are not busy, one or more that are, and one that is not (R211, R212). -/
theorem State.Polling.both_loops {before during : List Half} {last : Half} {s : State}
    (h : s.Polling .pollBusy (before ++ during ++ [last]))
    (hbefore : ∀ w ∈ before, busyBit w = false) (hne : during ≠ [])
    (hduring : ∀ w ∈ during, busyBit w = true) (hlast : busyBit last = false) :
    ∃ t, runSteps (2 * (before.length + during.length + 1)) s = some t ∧
      s.Shipped (before.length + during.length + 1) 0 t ∧
      t.ctl.log =
        s.ctl.log ++ List.replicate (before.length + during.length) (.pollDelay s.cfg.pollDelay) ∧
      t.BatchDone last := by
  obtain ⟨busy, during, rfl⟩ := List.exists_cons_of_ne_nil hne
  obtain ⟨hbusy, hduring⟩ := List.forall_mem_cons.mp hduring
  rw [List.append_assoc] at h
  obtain ⟨t, hrunt, ht, hst⟩ := h.loop rfl (fun w hw => pollBusy_of_clear (hbefore w hw))
  obtain ⟨u, hrunu, hu, htu⟩ := ht.next rfl (pollBusy_of_busy hbusy)
  obtain ⟨v, hrunv, hv, huv⟩ := hu.loop rfl (fun w hw => pollClear_of_busy (hduring w hw))
  obtain ⟨x, hrunx, hvx, hlog, hx⟩ := hv.ends hlast
  have hpolled := (hst.trans htu).trans huv
  have hlen : before.length + 1 + during.length = before.length + (busy :: during).length := by
    rw [List.length_cons, Nat.add_assoc, Nat.add_comm 1]
  rw [hlen] at hpolled
  refine ⟨x, ?_, hpolled.shipped.trans hvx, hlog.trans hpolled.log, hx⟩
  have hrun := runSteps_trans (runSteps_trans (runSteps_trans hrunt hrunu) hrunv) hrunx
  rw [← hlen, ← hrun]
  congr 1
  omega

/-- PrinterSession is about to invoke `Print`, with the FIFO empty and room in it for the PRINT payload. -/
structure State.ReadyToPrint (s : State) : Prop where
  onLink : s.OnLink
  room : 4 ≤ s.cfg.capacity
  quiet : s.pending = []
  head : s.head < s.cfg.capacity
  tail : s.tail < s.cfg.capacity
  noFault : s.fault = none
  fill : s.fill = 0
  point : s.ctl.point = .printerInvoke
  printerState : s.ctl.printerState = .print

/-- The PRINT payload: the margins, the palette and the exposure (R208, R209). -/
def printPayload (s : State) : List Byte :=
  [marginByte s.cfg s.ctl.isFirst, marginByte s.cfg s.ctl.isLast, Wire.palette, Wire.exposure]

theorem printPayload_length (s : State) : (printPayload s).length = 4 := rfl

theorem printerInvoke_pending {s : State} (hp : s.pending = [])
    (hst : s.ctl.printerState = .print) :
    (printerInvoke s).pending =
      (printPayload s).map (fun b => encode (.rbwr b)) ++ [encode (.sendpkt Wire.codePrint 4)] := by
  simp [printerInvoke_print hst, hp, printPayload, rbwr4, pktPrint]

/-- The four bytes of the PRINT payload are written, and the PRINT packet stands at the port (R208 to R210). -/
theorem State.ReadyToPrint.payload {s : State} (h : s.ReadyToPrint) :
    ∃ t, runSteps 5 s = some t ∧ State.Written 4 (printerInvoke s) t ∧
      t.pending = [encode (.sendpkt Wire.codePrint 4)] := by
  have hmoves : s.MovesTo (printerInvoke s) := by rw [printerInvoke_print h.printerState]; rfl
  have hstart := hmoves.shipped
  have hwrites := runSteps_writes (hstart.idle.trans h.onLink.idle)
    (printerInvoke_pending h.quiet h.printerState)
    (by rw [hstart.tail, hstart.cfg]; exact h.tail) (hstart.fault.trans h.noFault)
    (by rw [hstart.fill, hstart.cfg, h.fill, printPayload_length]; exact h.room)
  rw [printPayload_length] at hwrites
  obtain ⟨t, hrun, ht, hpending⟩ := hwrites
  have hstep := step_printerInvoke h.onLink.driver h.onLink.idle h.quiet h.point
  exact ⟨t, (runSteps_next hstep 4).trans hrun, ht, hpending⟩

/-- Before the poll loops: the PRINT packet takes the payload out again, and the first poll is presented whatever the
status word (R210, R211). -/
theorem State.ReadyToPrint.polls {printed : Half} {ws : List Half} {s : State} (h : s.ReadyToPrint)
    (hw : State.comingStatuses (4 :: List.replicate ws.length 0) s = printed :: ws) :
    ∃ t, runSteps 7 s = some t ∧ t.Polling .pollBusy ws ∧ t.cfg = s.cfg ∧
      t.ctl.log = s.ctl.log ++ [.pollDelay s.cfg.pollDelay] ∧
      t.head = (s.head + 4) % s.cfg.capacity ∧ t.tail = (s.tail + 4) % s.cfg.capacity ∧
      t.fill = 0 ∧ t.fault = none ∧ t.issued = s.issued + 5 := by
  obtain ⟨t, hrun, ht, hp⟩ := h.payload
  have hinvoke := printerInvoke_print h.printerState
  have hmoves : s.MovesTo (printerInvoke s) := by rw [hinvoke]; rfl
  rw [← hmoves.comingStatuses, ← ht.coming] at hw
  have htctl : t.ctl = { s.ctl with point := .printStatus } := by rw [ht.ctl, hinvoke]; rfl
  have hstart := hmoves.shipped
  have hcfg := ht.cfg.trans hstart.cfg
  have hhead := ht.head.trans hstart.head
  have htlink : t.OnLink := ⟨hcfg ▸ h.onLink.driver, hcfg ▸ h.onLink.mode,
    (ht.idle.trans hstart.idle).trans h.onLink.idle⟩
  have htfault : t.fault = none := (ht.fault.trans hstart.fault).trans h.noFault
  have htfill : t.fill = 4 := by rw [ht.fill, hstart.fill, h.fill]
  obtain ⟨w, u, hu, huctl, hrun'⟩ := runSteps_packet (k := poll .pollBusy) (len := 4) htlink hp
    (.inr ⟨by rw [hhead, hcfg]; exact h.head, htfault, htfill.ge⟩) (by rw [htctl]; rfl)
  rw [show (4 : Half).toNat = 4 from rfl] at hu
  obtain ⟨-, hrest⟩ := List.cons.inj ((hu.coming _).symm.trans hw)
  obtain ⟨-, hlog⟩ := poll_presents hu.quiet .pollBusy w
  have hships := hu.shipped
  refine ⟨poll .pollBusy w u, runSteps_trans hrun hrun',
    poll_polling _ w (htlink.shipped hships) hu.quiet hrest, hships.cfg.trans hcfg, ?log, ?head,
    ?tail, ?fill, hships.fault.trans htfault, ?issued⟩
  case log => rw [hlog, huctl, htctl, hships.cfg, hcfg]
  case head =>
    refine hships.head.trans ?_
    rw [hhead, hcfg]
    exact nextCursor_iterate h.head 4
  case tail =>
    refine (hships.tail.trans ht.tail).trans ?_
    rw [hstart.tail, hstart.cfg]
    exact nextCursor_iterate h.tail 4
  case fill => exact hships.fill.trans (by rw [htfill])
  case issued => exact hships.issued.trans (by rw [ht.issued, hstart.issued])

/-- Settles O54: the PRINT packet and the first poll are presented in seven steps, and each poll takes two. -/
theorem printStateReturns : Obligations.PrintStateReturns := by
  intro before during printed last s hd hm hroom hb hp hhead htail hfault hfill hpt hst hbefore hne
    hduring hlast hw
  have hbit : ∀ w : Half, w.getLsbD 1 = busyBit w := fun w => (busyBitIsBitOne w).symm
  simp only [hbit] at hbefore hduring hlast
  have hready : s.ReadyToPrint :=
    ⟨⟨hd, hm, hb⟩, hroom, hp, hhead, htail, hfault, hfill, hpt, hst⟩
  obtain ⟨t, hrun, ht, hcfg, hlogt, hheadt, htailt, hfillt, hfaultt, hissued⟩ :=
    hready.polls (ws := before ++ during ++ [last]) (by simpa [Nat.add_assoc] using hw)
  obtain ⟨u, hrun', hu, hlogu, hdone⟩ := ht.both_loops hbefore hne hduring hlast
  refine ⟨_, u, rfl, runSteps_trans hrun hrun', hdone.point, hdone.printerState, hdone.status,
    ?issued, ?log, hu.head.trans hheadt, hu.tail.trans htailt, ?fill, hu.fault.trans hfaultt⟩
  case issued => rw [hu.issued, hissued]
  case log =>
    rw [hlogu, hlogt, hcfg, List.append_assoc, List.singleton_append, ← List.replicate_succ]
  case fill => rw [hu.fill, hfillt]

end Sys2Proof.Machine
end

section
/-! SUPPORT. The end of a session (spec/70_reset_and_hazards.md R296). Every step of the reference controller that is no
fallback keeps its accounting and its counts, so the whole session does; at its end nothing is owed, and HostSession goes
back to `Idle` only when `printed` has reached `total`. -/

namespace Sys2Proof.Machine

/-! ## The counts of HostSession (R226, R231) -/

/-- The counts of a controller, without the state around it. -/
structure Controller.Counts (c : Controller) : Prop where
  printed : c.printed.toNat ≤ c.total.toNat
  zeroed : c.point = .idleRead → c.printed = 0
  chunk : c.point ≠ .hostInvoke → c.point ≠ .idleRead →
    c.printed.toNat + c.batchLen ≤ c.total.toNat

theorem State.counted_iff (s : State) : s.Counted ↔ s.ctl.Counts :=
  ⟨fun h => ⟨h.printed, h.zeroed, h.chunk⟩, fun h => ⟨h.printed, h.zeroed, h.chunk⟩⟩

/-- The places inside a `Print` invocation of HostSession, where a chunk is in hand. -/
def Controller.InChunk (c : Controller) : Prop := c.point ≠ .hostInvoke ∧ c.point ≠ .idleRead

theorem Controller.Counts.inChunk {c : Controller} (h : c.Counts) (hc : c.InChunk) :
    c.printed.toNat + c.batchLen ≤ c.total.toNat := by
  obtain ⟨hinvoke, hread⟩ := hc
  exact h.chunk hinvoke hread

/-- Both controllers hold the same chunk of the same image. -/
structure Controller.SameChunk (c d : Controller) : Prop where
  total : d.total = c.total := by rfl
  printed : d.printed = c.printed := by rfl
  batchLen : d.batchLen = c.batchLen := by rfl

section Counts

variable {c d : Controller} {s : State}

/-- Between invocations of HostSession only `printed ≤ total` counts. -/
theorem Controller.counts_of_hostInvoke (hp : c.point = .hostInvoke)
    (h : c.printed.toNat ≤ c.total.toNat) : c.Counts where
  printed := h
  zeroed hi := by rw [hp] at hi; cases hi
  chunk hn := absurd hp hn

/-- A move inside a `Print` invocation keeps the chunk in hand. -/
theorem Controller.Counts.sameChunk (h : c.Counts) (hc : c.InChunk) (hd : d.point ≠ .idleRead)
    (hcd : c.SameChunk d) : d.Counts where
  printed := by rw [hcd.printed, hcd.total]; exact h.printed
  zeroed hi := absurd hi hd
  chunk _ _ := by
    rw [hcd.printed, hcd.batchLen, hcd.total]
    exact h.inChunk hc

theorem counts_setupRead (h : s.ctl.Counts) : (setupRead s).ctl.Counts := by
  unfold setupRead
  split
  · exact h
  · exact Controller.counts_of_hostInvoke rfl h.printed
  · exact Controller.counts_of_hostInvoke rfl h.printed

/-- `toRead` is at most what is left of the image (R231). -/
theorem counts_chunkStart (h : s.ctl.Counts) : (chunkStart s).ctl.Counts where
  printed := h.printed
  zeroed hi := by cases hi
  chunk _ _ := by
    have hread : toRead s ≤ s.ctl.total.toNat - s.ctl.printed.toNat := Nat.min_le_left _ _
    have hprinted := h.printed
    simp only [chunkStart, State.withCtl_ctl]
    omega

theorem counts_hostInvoke (h : s.ctl.Counts) : (hostInvoke s).ctl.Counts := by
  unfold hostInvoke
  split
  · exact ⟨Nat.le_refl _, fun _ => rfl, fun _ hn => absurd rfl hn⟩
  · exact counts_setupRead h
  · exact counts_chunkStart h

/-- Nothing is printed when the size of the image is read (R227). -/
theorem counts_idleRead (h : s.ctl.Counts) (hp : s.ctl.point = .idleRead) :
    (idleRead s).ctl.Counts := by
  unfold idleRead
  split
  · exact h
  · exact Controller.counts_of_hostInvoke rfl h.printed
  · next bytes rest _ =>
    refine Controller.counts_of_hostInvoke rfl ?_
    have hzero := h.zeroed hp
    simp [Controller.hostWrite, hzero]

theorem counts_loadByte (left : Nat) (h : s.ctl.Counts) (hc : s.ctl.InChunk) :
    (loadByte left s).ctl.Counts := by
  unfold loadByte
  split
  · exact h
  · exact h.sameChunk hc nofun {}

/-- The chunk counts as printed, without a wrap (R231). -/
theorem toNat_printed_chunkEnd (h : s.ctl.Counts) (hc : s.ctl.InChunk) :
    (chunkEnd s).ctl.printed.toNat = s.ctl.printed.toNat + s.ctl.batchLen := by
  have hchunk := h.inChunk hc
  have htotal := s.ctl.total.isLt
  simp only [chunkEnd, Controller.hostWrite, State.withCtl_ctl, BitVec.toNat_add, BitVec.toNat_ofNat]
  omega

theorem counts_chunkEnd (h : s.ctl.Counts) (hc : s.ctl.InChunk) : (chunkEnd s).ctl.Counts := by
  refine Controller.counts_of_hostInvoke rfl ?_
  rw [toNat_printed_chunkEnd h hc]
  exact h.inChunk hc

theorem counts_printerInvoke (h : s.ctl.Counts) (hc : s.ctl.InChunk) :
    (printerInvoke s).ctl.Counts := by
  unfold printerInvoke
  split
  · exact h.sameChunk hc nofun {}
  · exact h.sameChunk hc nofun {}
  · exact h.sameChunk hc nofun {}

/-- What the controller does with a status word keeps the chunk in hand (R203, R205, R210 to R213). -/
theorem counts_onStatus {k : Half → State → State} (w : Half) (hk : statusMove s.ctl.point = some k)
    (h : s.ctl.Counts) (hc : s.ctl.InChunk) : (k w s).ctl.Counts := by
  have poll_counts (next : Point) (hn : next ≠ .idleRead) : (poll next w s).ctl.Counts :=
    h.sameChunk hc hn {}
  cases hpt : s.ctl.point <;> rw [hpt] at hk <;> cases hk
  case initStatus => exact h.sameChunk hc nofun {}
  case dataStatus chunk =>
    simp only [dataStatus]
    split
    · split
      · exact h.sameChunk hc nofun {}
      · exact h.sameChunk hc nofun {}
    · exact h.sameChunk hc nofun {}
  case endStatus => exact h.sameChunk hc nofun {}
  case printStatus => exact poll_counts _ nofun
  case pollBusy =>
    unfold pollBusy
    split
    · exact poll_counts _ nofun
    · exact poll_counts _ nofun
  case pollClear =>
    unfold pollClear
    split
    · exact poll_counts _ nofun
    · exact h.sameChunk hc nofun {}

theorem counts_withStatus {k : Half → State → State} (hk : statusMove s.ctl.point = some k)
    (h : s.ctl.Counts) (hc : s.ctl.InChunk) : (withStatus k s).ctl.Counts := by
  unfold withStatus
  split
  · exact counts_onStatus _ hk h hc
  · exact h

theorem counts_referenceMove (h : s.ctl.Counts) : (referenceMove s).ctl.Counts := by
  unfold referenceMove
  cases hpt : s.ctl.point
  case hostInvoke => exact counts_hostInvoke h
  case idleRead => exact counts_idleRead h hpt
  all_goals have hc : s.ctl.InChunk := by simp [Controller.InChunk, hpt]
  case load left =>
    cases left with
    | zero => exact h.sameChunk hc nofun {}
    | succ left => exact counts_loadByte left h hc
  case printerInvoke => exact counts_printerInvoke h hc
  case batchDone => exact counts_chunkEnd h hc
  all_goals exact counts_withStatus (congrArg statusMove hpt) h hc

end Counts

/-- A move of either controller keeps the counts (R226). -/
theorem counted_controllerMove {s : State} (h : s.Counted) : (controllerMove s).Counted := by
  unfold controllerMove
  split
  · exact h
  · exact (State.counted_iff _).mpr (counts_referenceMove ((State.counted_iff _).mp h))

/-! ## The session -/

/-- A step that begins with no operation in progress keeps the counts: a move of the controller does, and no instruction
reaches the controller. -/
theorem counted_step_idle {s t : State} (hidle : s.busy = false) (h : s.Counted)
    (hstep : step s = .next t) : t.Counted := by
  rcases step_cases hstep with ⟨hb, -⟩ | ⟨-, -, rfl⟩ | ⟨-, bytes, rest, i, -, -, he⟩
  · rw [hidle] at hb
    cases hb
  · exact counted_controllerMove h
  · obtain ⟨-, -, hctl, -⟩ := exec_sameOutside he
    rw [State.counted_iff] at h ⊢
    exact hctl ▸ h

/-- Accounting and counts hold all along a run without a fallback. -/
theorem runSteps_accounted_counted {n : Nat} {s t : State} (ha : s.Accounted) (hc : s.Counted)
    (hback : ∀ k u, k < n → runSteps k s = some u → ¬ u.fallsBack)
    (h : runSteps n s = some t) : t.Accounted ∧ t.Counted := by
  induction n generalizing s with
  | zero => cases h; exact ⟨ha, hc⟩
  | succ n ih =>
    obtain ⟨u, hstep, hrun⟩ := runSteps_succ h
    have hfirst := hback 0 s (Nat.succ_pos n) rfl
    exact ih (referenceControllerKeepsTheContract s u ha hfirst hstep)
      (counted_step_idle ha.idle hc hstep)
      (fun k v hk hv => hback (k + 1) v (Nat.succ_lt_succ hk) ((runSteps_next hstep k).trans hv)) hrun

theorem State.atIdle_iff (s : State) :
    s.atIdle = true ↔
      s.busy = false ∧ s.pending = [] ∧ s.ctl.point = .hostInvoke ∧ s.ctl.hostState = .idle := by
  simp [State.atIdle, State.ended, and_assoc]

/-- The step that takes the controller from the end of a batch to another place closes the `Print` invocation. -/
theorem step_batchDone {s t : State} (ha : s.Accounted) (hp : s.ctl.point = .batchDone)
    (hstep : step s = .next t) (ht : t.ctl.point ≠ .batchDone) : t = chunkEnd s := by
  rcases step_cases hstep with ⟨hb, -⟩ | ⟨-, -, rfl⟩ | ⟨-, bytes, rest, i, -, -, he⟩
  · rw [ha.idle] at hb
    cases hb
  · rw [controllerMove_reference ha.driver, referenceMove, hp]
  · obtain ⟨-, -, hctl, -⟩ := exec_sameOutside he
    exact absurd (hctl ▸ hp) ht

/-- HostSession goes back to `Idle` only when the whole image is counted (R231). -/
theorem total_le_printed_chunkEnd {s : State} (h : (chunkEnd s).ctl.hostState = .idle) :
    (chunkEnd s).ctl.total ≤ (chunkEnd s).ctl.printed := by
  by_contra hn
  have hprint : (chunkEnd s).ctl.hostState = .print := if_neg hn
  rw [hprint] at h
  cases h

/-- Settles O57: the accounting gives `fill = 0` where nothing is owed, the counts and the test of R231 give
`printed = total`. -/
theorem sessionEndsAsExpected : Obligations.SessionEndsAsExpected := by
  intro n s t ha hc hback h
  obtain ⟨-, m, u, hm, hrun, hdone, hstep, hidle⟩ := session_some h
  obtain ⟨hau, hcu⟩ := runSteps_accounted_counted ha hc
    (fun k v hk => hback k v (hk.trans hm)) hrun
  have hat := referenceControllerKeepsTheContract u t hau (hback m u hm hrun) hstep
  have hct := counted_step_idle hau.idle hcu hstep
  obtain ⟨hbusy, hpending, hpoint, hhost⟩ := t.atIdle_iff.mp hidle
  obtain ⟨-, hbalanced⟩ := t.accounted_iff.mp hat
  have hfill : t.fill = 0 := by
    rw [hbalanced.fill_eq hpending, Controller.owed, hpoint]
  have hprinted : t.ctl.printed = t.ctl.total := by
    refine BitVec.eq_of_toNat_eq (Nat.le_antisymm hct.printed ?_)
    obtain rfl : t = chunkEnd u := step_batchDone hau hdone hstep (by rw [hpoint]; nofun)
    exact total_le_printed_chunkEnd hhost
  exact ⟨by simp [State.sessionEnd, hidle, hfill, hprinted], t.good_iff.mpr ⟨hbusy, hat.noFault⟩⟩

end Sys2Proof.Machine
end

section
/-! SUPPORT. The counts of HostSession along every step (spec/45_host_session.md R226, R231). The moves of the controller
keep them (`counted_controllerMove`); an operation that begins or goes on never reaches the controller. -/

namespace Sys2Proof.Machine

theorem continueExchange_sameStorage {x : Exchange} {o : Option Byte} {s t : State}
    (h : continueExchange x s = (o, t)) : s.SameStorage t := by
  obtain rfl : (continueExchange x s).2 = t := congrArg Prod.snd h
  rw [continueExchange_keeps]
  exact {}

theorem State.sameStorage_transients (s : State) (f : Option Framer) (x : Option Exchange) :
    s.SameStorage { s with framer := f, xchg := x } := {}

/-- The operation in progress goes on without a change of the storage, the port or the controller (R11, R51). -/
theorem resume_sameStorage {s t : State} (h : resume s = .ok t) : s.SameStorage t := by
  have exchanged : ∀ {x o u}, continueExchange x { s with xchg := none } = (o, u) →
      s.SameStorage u :=
    fun hc => (s.sameStorage_transients s.framer none).trans (continueExchange_sameStorage hc)
  cases resume_resumes h with
  | waits _ hc => exact exchanged hc
  | returnsByte _ hc _ => exact (exchanged hc).trans (State.sameStorage_handBack _ _)
  | @returnsStatus _ _ u _ _ _ hc _ _ =>
    exact ((exchanged hc).trans (u.sameStorage_transients none u.xchg)).trans
      (State.sameStorage_handBack _ _)
  | @goesOn _ _ u _ _ _ _ hc _ _ hg =>
    exact ((exchanged hc).trans (u.sameStorage_transients none u.xchg)).trans
      (framerRun_sameStorage hg)
  | runsFramer _ _ hg =>
    exact (s.sameStorage_transients none s.xchg).trans (framerRun_sameStorage hg)
  | nothing => exact {}

/-- Settles O49: an operation in progress goes on beside the controller; every other step is a move of the controller or
the start of an instruction. -/
theorem printedNeverPassesTotal : Obligations.PrintedNeverPassesTotal := by
  intro s t h hstep
  cases hb : s.busy with
  | false => exact counted_step_idle hb h hstep
  | true =>
    rw [step_busy hb] at hstep
    obtain ⟨-, -, hctl, -⟩ := (resume_sameStorage (answer_next.mp hstep)).outside
    rw [State.counted_iff] at h ⊢
    exact hctl ▸ h

end Sys2Proof.Machine
end

section
/-! SUPPORT. The statements of spec/45_host_session.md on one move of the controller. What a move does is one equation
for each outcome of its read of the host stream; each clause is then read off the equation. -/

namespace Sys2Proof.Machine

/-! ## Numbers on the host stream (R57, R227) -/

/-- One more byte of a big-endian number: what lies above 24 bits before it is lost. -/
theorem toNat_shiftLeft_or_byte (acc : Word) (b : Byte) :
    (acc <<< 8 ||| b.setWidth 32).toNat = acc.toNat % 2 ^ 24 * 2 ^ 8 + b.toNat := by
  have hshift : (acc <<< 8).toNat = (acc.toNat % 2 ^ 24) <<< 8 := by
    rw [BitVec.toNat_shiftLeft, Nat.shiftLeft_eq, Nat.shiftLeft_eq]
    omega
  have hbyte : (b.setWidth 32).toNat = b.toNat := BitVec.toNat_setWidth_of_le (by decide)
  rw [BitVec.toNat_or, hshift, hbyte, ← Nat.shiftLeft_add_eq_or_of_lt b.isLt, Nat.shiftLeft_eq]

/-- The image size is the big-endian value of its four bytes (R227). -/
theorem toNat_word32 (x0 x1 x2 x3 : Byte) :
    (word32 [x0, x1, x2, x3]).toNat =
      x0.toNat * 2 ^ 24 + x1.toNat * 2 ^ 16 + x2.toNat * 2 ^ 8 + x3.toNat := by
  have h0 := x0.isLt
  have h1 := x1.isLt
  have h2 := x2.isLt
  simp only [word32, List.foldl_cons, List.foldl_nil, toNat_shiftLeft_or_byte]
  omega

/-- The byte of a 32-bit number that begins at bit `k` (R57). -/
theorem extractLsb'_ofNat_byte {k : Nat} (hk : k + 8 ≤ 32) (n : Nat) :
    (BitVec.ofNat 32 n).extractLsb' k 8 = BitVec.ofNat 8 (n / 2 ^ k % 256) := by
  refine BitVec.eq_of_getLsbD_eq fun i hi => ?_
  have hlow : k + i < 32 := by omega
  have hmod : n / 2 ^ k % 256 = n / 2 ^ k % 2 ^ 8 := rfl
  simp only [BitVec.getLsbD_extractLsb', BitVec.getLsbD_ofNat, hi, hlow, hmod, decide_true,
    Bool.true_and, Nat.testBit_mod_two_pow, Nat.testBit_div_two_pow, Nat.add_comm]

/-- The capacity reply is sent highest byte first (R227). -/
theorem bigEndian32_ofNat (n : Nat) :
    bigEndian32 (BitVec.ofNat 32 n) =
      [BitVec.ofNat 8 (n / 2 ^ 24 % 256), BitVec.ofNat 8 (n / 2 ^ 16 % 256),
        BitVec.ofNat 8 (n / 2 ^ 8 % 256), BitVec.ofNat 8 (n % 256)] := by
  simp only [bigEndian32, extractLsb'_ofNat_byte (k := 24) (by decide),
    extractLsb'_ofNat_byte (k := 16) (by decide), extractLsb'_ofNat_byte (k := 8) (by decide),
    extractLsb'_ofNat_byte (k := 0) (by decide), Nat.pow_zero, Nat.div_one]

/-! ## What the host is sent -/

/-- Only a write to the host adds to what the host is sent. -/
theorem Controller.hostOut_of_log {c d : Controller} {e : HostEvent}
    (he : ∀ bytes, e ≠ .write bytes) (h : d.log = c.log ++ [e]) : d.hostOut = c.hostOut := by
  cases e with
  | write bytes => exact absurd rfl (he bytes)
  | read | shortRead | pollDelay => simp [Controller.hostOut, h]

/-- The answer to what was read is all that is added (R227, R230). -/
theorem Controller.hostOut_answer {c d : Controller} {bytes : List Byte} (reply : List Byte)
    (h : d.log = c.log ++ [.read bytes]) : (d.hostWrite reply).hostOut = c.hostOut ++ reply := by
  rw [Controller.hostWrite_hostOut, Controller.hostOut_of_log (e := .read bytes) nofun h]

/-- A short read keeps the session's state, and the host is sent nothing (R228). -/
theorem shortRead_retries (bytes : List Byte) (rest : List HostInput) (s : State) :
    (shortRead bytes rest s).ctl.hostState = s.ctl.hostState ∧
      (shortRead bytes rest s).ctl.point = .hostInvoke ∧
      (shortRead bytes rest s).ctl.hostOut = s.ctl.hostOut ∧
      (shortRead bytes rest s).pending = s.pending :=
  ⟨rfl, rfl, Controller.hostOut_of_log (e := .shortRead bytes) nofun rfl, rfl⟩

/-! ## The moves of HostSession, by its place in the invocation -/

section Moves

variable {s : State} {left : Nat} {bytes : List Byte} {rest : List HostInput} {b : Byte}

theorem referenceMove_idle (h : s.ctl.point = .hostInvoke) (hst : s.ctl.hostState = .idle) :
    referenceMove s = idleStart s := by
  simp only [referenceMove, h, hostInvoke, hst]

theorem referenceMove_setup (h : s.ctl.point = .hostInvoke) (hst : s.ctl.hostState = .setup) :
    referenceMove s = setupRead s := by
  simp only [referenceMove, h, hostInvoke, hst]

theorem referenceMove_print (h : s.ctl.point = .hostInvoke) (hst : s.ctl.hostState = .print) :
    referenceMove s = chunkStart s := by
  simp only [referenceMove, h, hostInvoke, hst]

theorem referenceMove_idleRead (h : s.ctl.point = .idleRead) : referenceMove s = idleRead s := by
  simp only [referenceMove, h]

theorem referenceMove_loaded (h : s.ctl.point = .load 0) : referenceMove s = batchStart s := by
  simp only [referenceMove, h]

theorem referenceMove_load (h : s.ctl.point = .load (left + 1)) :
    referenceMove s = loadByte left s := by
  simp only [referenceMove, h]

theorem referenceMove_batchDone (h : s.ctl.point = .batchDone) : referenceMove s = chunkEnd s := by
  simp only [referenceMove, h]

/-! ### What the read of the host stream decides (R227, R228, R230, R231) -/

theorem idleRead_of_got (h : hostRead 4 s.ctl.hostIn = .got bytes rest) :
    idleRead s =
      s.withCtl (Controller.hostWrite (bigEndian32 (BitVec.ofNat 32 s.cfg.capacity))
        { s.ctl with
          total := word32 bytes
          hostState := .setup
          point := .hostInvoke
          hostIn := rest
          log := s.ctl.log ++ [.read bytes] }) := by
  simp only [idleRead, h]

theorem idleRead_of_short (h : hostRead 4 s.ctl.hostIn = .short bytes rest) :
    idleRead s = shortRead bytes rest s := by
  simp only [idleRead, h]

theorem idleRead_of_blocked (h : hostRead 4 s.ctl.hostIn = .blocked) : idleRead s = s := by
  simp only [idleRead, h]

theorem setupRead_of_got (h : hostRead 2 s.ctl.hostIn = .got bytes rest) :
    setupRead s =
      s.withCtl (Controller.hostWrite (if bytes = ackOk then ackOk else ackKo)
        { s.ctl with
          hostState := if bytes = ackOk then .print else .idle
          point := .hostInvoke
          hostIn := rest
          log := s.ctl.log ++ [.read bytes] }) := by
  simp only [setupRead, h]

theorem setupRead_of_short (h : hostRead 2 s.ctl.hostIn = .short bytes rest) :
    setupRead s = shortRead bytes rest s := by
  simp only [setupRead, h]

theorem setupRead_of_blocked (h : hostRead 2 s.ctl.hostIn = .blocked) : setupRead s = s := by
  simp only [setupRead, h]

theorem loadByte_of_byte (h : hostByte s.ctl.hostIn = some (b, rest)) :
    loadByte left s =
      (s.withCtl { s.ctl with
        hostIn := rest
        log := s.ctl.log ++ [.read [b]]
        point := .load left }).present [.rbwr b] := by
  simp only [loadByte, h]

theorem loadByte_of_none (h : hostByte s.ctl.hostIn = none) : loadByte left s = s := by
  simp only [loadByte, h]

end Moves

theorem ackOk_iff (x0 x1 : Byte) : [x0, x1] = ackOk ↔ x0 = 0x4F ∧ x1 = 0x4B := by
  simp [ackOk]

/-- The chunk that is counted as printed does not wrap when the sum fits 32 bits (R231). -/
theorem toNat_printed_chunkEnd_of_lt {s : State} (h : s.ctl.printed.toNat + s.ctl.batchLen < 2 ^ 32) :
    (chunkEnd s).ctl.printed.toNat = s.ctl.printed.toNat + s.ctl.batchLen := by
  simp only [chunkEnd, Controller.hostWrite, State.withCtl_ctl, BitVec.toNat_add, BitVec.toNat_ofNat]
  omega

theorem chunkEnd_hostState (s : State) :
    (chunkEnd s).ctl.hostState =
      if s.ctl.total.toNat ≤ (chunkEnd s).ctl.printed.toNat then .idle else .print := rfl

/-! ## The obligations on one move -/

/-- Settles O43: `RBRST` is presented; then four bytes, a timeout before them, and neither are the three outcomes of
`HostRead(4)`. -/
theorem hostIdleState : Obligations.HostIdleState := by
  refine ⟨fun s hd hb hp hpt hst => ?start, fun s x0 x1 x2 x3 rest hd hb hp hpt hin => ?size,
    fun s xs rest hd hb hp hpt hlen hin => ?short, fun s xs hd hb hp hpt hlen hin => ?blocked⟩
  case start =>
    refine ⟨idleStart s, ?_, rfl, rfl, by simp [idleStart, hp], rfl, rfl⟩
    rw [step_reference hd hb hp, referenceMove_idle hpt hst]
  all_goals rw [step_reference hd hb hp, referenceMove_idleRead hpt]
  case size =>
    have hgot : hostRead 4 s.ctl.hostIn = .got [x0, x1, x2, x3] rest :=
      hin ▸ hostRead_got [x0, x1, x2, x3] rest
    rw [idleRead_of_got hgot]
    refine ⟨_, rfl, toNat_word32 x0 x1 x2 x3, ?_, rfl, rfl, rfl, hp⟩
    rw [← bigEndian32_ofNat]
    exact Controller.hostOut_answer _ rfl
  case short =>
    rw [idleRead_of_short (hin ▸ hostRead_short 4 xs rest hlen)]
    exact ⟨_, rfl, hp ▸ shortRead_retries xs rest s⟩
  case blocked => rw [idleRead_of_blocked (hin ▸ hostRead_blocked 4 xs hlen)]

/-- Settles O44: two bytes, which are `"OK"` or not, a timeout before them, and neither are the outcomes of
`HostRead(2)`. -/
theorem hostSetupState : Obligations.HostSetupState := by
  refine ⟨fun s x0 x1 rest hd hb hp hpt hst hin => ?ack,
    fun s xs rest hd hb hp hpt hst hlen hin => ?short, fun s xs hd hb hp hpt hst hlen hin => ?blocked⟩
  all_goals rw [step_reference hd hb hp, referenceMove_setup hpt hst]
  case ack =>
    have hgot : hostRead 2 s.ctl.hostIn = .got [x0, x1] rest := hin ▸ hostRead_got [x0, x1] rest
    rw [setupRead_of_got hgot, ← ackOk_iff]
    refine ⟨_, rfl, hp, rfl, rfl, fun hok => ⟨if_pos hok, ?_⟩, fun hko => ⟨if_neg hko, ?_⟩⟩
    · rw [if_pos hok]
      exact Controller.hostOut_answer ackOk rfl
    · rw [if_neg hko]
      exact Controller.hostOut_answer ackKo rfl
  case short =>
    rw [setupRead_of_short (hin ▸ hostRead_short 2 xs rest hlen)]
    exact ⟨_, rfl, hp ▸ hst ▸ shortRead_retries xs rest s⟩
  case blocked => rw [setupRead_of_blocked (hin ▸ hostRead_blocked 2 xs hlen)]

/-- Settles O45: the chunk begins, takes a byte or waits for one, is handed to PrinterSession, and is counted. -/
theorem hostPrintState : Obligations.HostPrintState := by
  refine ⟨fun s hd hb hp hpt hst => ?start, fun s n k b rest hd hb hp hpt hin => ?byte,
    fun s n k hd hb hp hpt hin => ?blocked, fun s hd hb hp hpt => ?loaded,
    fun s hd hb hp hpt hlt => ?done⟩
  all_goals rw [step_reference hd hb hp]
  case start =>
    rw [referenceMove_print hpt hst]
    exact ⟨chunkStart s, rfl, rfl, rfl, beq_iff_eq, decide_eq_true_iff, hp⟩
  case byte =>
    rw [referenceMove_load hpt, loadByte_of_byte (hin ▸ hostByte_skips k b rest)]
    exact ⟨_, rfl, by simp [hp], rfl, rfl⟩
  case blocked => rw [referenceMove_load hpt, loadByte_of_none (hin ▸ hostByte_none k)]
  case loaded =>
    rw [referenceMove_loaded hpt]
    exact ⟨batchStart s, rfl, rfl, rfl, rfl, rfl, rfl, rfl, hp⟩
  case done =>
    rw [referenceMove_batchDone hpt]
    have hprinted := toNat_printed_chunkEnd_of_lt hlt
    refine ⟨chunkEnd s, rfl, hprinted, Controller.hostWrite_hostOut _ _, ?_, rfl, hp⟩
    rw [chunkEnd_hostState, hprinted]

end Sys2Proof.Machine
end

section
/-! SUPPORT. The statements of spec/60_exceptions.md. An instruction makes a FIFO access of its own, makes none, or runs
the framer; what a run of the framer can record is said once, for both modes (`framerRun_fault`). In `LINK` no operation
is in progress at the end of a step, so there a run is good unless a fault is recorded. -/

namespace Sys2Proof.Machine

/-! ## The fault that a FIFO access records (R111, R112, R253) -/

theorem State.ghostWrite_records {s : State} {r : FaultRecord} (hfree : s.fault = none)
    (hr : s.ghostWrite.fault = some r) :
    s.fill = s.cfg.capacity ∧ r = { kind := .fifoOverrun, op := s.issued, payload := none } := by
  by_cases hfull : s.fill = s.cfg.capacity
  · exact ⟨hfull, Option.some.inj (hr.symm.trans (State.ghostWrite_of_full hfree hfull).2)⟩
  · cases (State.ghostWrite_of_room hfree hfull).2.symm.trans hr

theorem State.ghostRead_records {s : State} {p : Option Nat} {r : FaultRecord}
    (hfree : s.fault = none) (hr : (s.ghostRead p).fault = some r) :
    s.fill = 0 ∧ r = { kind := .fifoUnderrun, op := s.issued, payload := p } := by
  by_cases hempty : s.fill = 0
  · exact ⟨hempty, Option.some.inj (hr.symm.trans (State.ghostRead_of_empty p hfree hempty).2)⟩
  · cases (State.ghostRead_of_queued p hfree hempty).2.symm.trans hr

/-! ## The fault that a run of the framer records (R159, R253) -/

theorem exchange_ghosts {b : Byte} {o : Option Byte} {s t : State} (h : exchange b s = (o, t)) :
    t.fill = s.fill ∧ t.fault = s.fault ∧ t.issued = s.issued := by
  obtain rfl : (exchange b s).2 = t := congrArg Prod.snd h
  rw [exchange_keeps]
  exact ⟨rfl, rfl, rfl⟩

theorem framerFetch_len {f f1 : Framer} {s s1 : State} {b : Byte}
    (h : framerFetch f s = .ok (b, f1, s1)) : f1.len = f.len := by
  rcases framerFetch_cases h with ⟨-, rfl, -⟩ | ⟨-, rfl, -⟩ <;> rfl

/-- One round of a framer's run: a fetch and an exchange, and then the run goes on from the next phase, or it ends, the
packet complete or waiting (R161, R266). -/
theorem framerRun_succ {n : Nat} {f : Framer} {s t : State} (h : framerRun (n + 1) f s = .ok t) :
    ∃ b f1 s1 o u, framerFetch f s = .ok (b, f1, s1) ∧ exchange b s1 = (o, u) ∧
      ((∃ r g, framerNext f1 r = .inl g ∧ framerRun n g u = .ok t) ∨ u.BesideFifo t) := by
  rw [framerRun] at h
  split at h
  · cases h
  · next b f1 s1 hfetch =>
    split at h
    · next u hex =>
      cases h
      exact ⟨b, f1, s1, none, u, hfetch, hex, .inr (u.besideFifo_transients _ u.xchg)⟩
    · next r u hex =>
      refine ⟨b, f1, s1, some r, u, hfetch, hex, ?_⟩
      split at h
      · next g hnext => exact .inl ⟨r, g, hnext, h⟩
      · next w hnext => cases h; exact .inr (u.besideFifo_handBack _)

/-- The payload phase alone counts `rem` down (R161). -/
theorem framerNext_count {f g : Framer} {r : Byte} (h : framerNext f r = .inl g) :
    g.len = f.len ∧ g.rem = if f.phase = .payload then f.rem - 1 else f.rem := by
  cases hp : f.phase <;> simp only [framerNext, hp, Sum.inl.injEq, reduceCtorEq] at h <;> subst h <;>
    exact ⟨rfl, rfl⟩

/-- A fetch while no fault is recorded, with `k` payload bytes sent: it finds the FIFO empty and records payload index
`k`, or it records nothing and the bytes sent and the bytes queued make the same sum at the next phase (R159, R161,
R253). -/
theorem framerFetch_ghosts {k : Nat} {f f1 : Framer} {s s1 : State} {b : Byte} (hsound : f.sound)
    (hk : k + f.rem.toNat = f.len.toNat) (hfree : s.fault = none)
    (h : framerFetch f s = .ok (b, f1, s1)) :
    (s.fill = 0 ∧ 0 < f.rem.toNat ∧
      s1.fault = some { kind := .fifoUnderrun, op := s.issued, payload := some k }) ∨
    (s1.fault = none ∧ ∀ r g, framerNext f1 r = .inl g →
      ∃ k', k' + g.rem.toNat = g.len.toNat ∧ k' + s1.fill = k + s.fill) := by
  rcases framerFetch_cases h with ⟨hp, rfl, rfl⟩ | ⟨hp, rfl, hr⟩
  · refine .inr ⟨hfree, fun r g hnext => ⟨k, ?_, rfl⟩⟩
    obtain ⟨hlen, hrem⟩ := framerNext_count hnext
    rw [hlen, hrem, if_neg hp, hk]
  · have hne : f.rem ≠ 0#16 := hsound hp
    have hless : (f.rem - 1).toNat + 1 = f.rem.toNat := by bv_omega
    have hindex : (f.len - f.rem).toNat = k := by
      rw [BitVec.toNat_sub_of_le (BitVec.le_def.mpr (by omega))]
      omega
    rw [hindex] at hr
    obtain ⟨-, -, rfl⟩ := rbRead_ok hr
    by_cases hempty : s.fill = 0
    · exact .inl ⟨hempty, by omega, (s.ghostRead_of_empty (some k) hfree hempty).2⟩
    · obtain ⟨hfill, hnone⟩ := s.ghostRead_of_queued (some k) hfree hempty
      refine .inr ⟨hnone, fun r g hnext => ⟨k + 1, ?_, ?_⟩⟩
      · obtain ⟨hlen, hrem⟩ := framerNext_count hnext
        rw [if_pos hp] at hrem
        simp only [hlen, hrem]
        omega
      · simp only [hfill]
        omega

/-- The one fault that a framer's run records, with `k` payload bytes sent: the underrun at the first byte that the FIFO
lacks (R159, R253). -/
theorem framerRun_fault {n k : Nat} {f : Framer} {s t : State} {r : FaultRecord}
    (hsound : f.sound) (hk : k + f.rem.toNat = f.len.toNat) (hfree : s.fault = none)
    (h : framerRun n f s = .ok t) (hr : t.fault = some r) :
    k + s.fill < f.len.toNat ∧
      r = { kind := .fifoUnderrun, op := s.issued, payload := some (k + s.fill) } := by
  induction n generalizing k f s with
  | zero => cases h; cases hfree.symm.trans hr
  | succ n ih =>
    obtain ⟨b, f1, s1, o, u, hfetch, hex, hend⟩ := framerRun_succ h
    obtain ⟨hufill, hufault, huissued⟩ := exchange_ghosts hex
    have hissued : s1.issued = s.issued := by rw [framerFetch_keeps hfetch]
    rcases framerFetch_ghosts hsound hk hfree hfetch with ⟨hempty, hpos, hfault⟩ | ⟨hnone, hnext⟩
    · have hut : u.Evolves t := hend.elim (fun ⟨_, _, _, hrun⟩ => framerRun_evolves hrun) (·.evolves)
      have hkept := hut.fault_kept (hufault.trans hfault)
      rw [hempty, Nat.add_zero]
      exact ⟨by omega, Option.some.inj (hr.symm.trans hkept)⟩
    · rcases hend with ⟨b', g, hg, hrun⟩ | hbeside
      · obtain ⟨k', hk', hcount⟩ := hnext b' g hg
        have hrest := ih (framerNext_sound hg) hk' (hufault.trans hnone) hrun
        rwa [hufill, hcount, huissued, hissued, (framerNext_count hg).1,
          framerFetch_len hfetch] at hrest
      · rw [hbeside.fault, hufault, hnone] at hr
        cases hr

/-- Settles O29: the fault is the one that the write, the read or the framer's run records. -/
theorem faultsAreTheTwoOfTheTable : Obligations.FaultsAreTheTwoOfTheTable := by
  intro i s t r hfree h hr
  rcases exec_cases h with ⟨b, rfl, hw⟩ | ⟨v, u, rfl, hread, rfl⟩ | ⟨-, rfl⟩ | ⟨b, _, _, rfl, -, -⟩ |
    ⟨b, rfl, -⟩ | ⟨cmd, len, hi, hp⟩
  · obtain ⟨-, rfl⟩ := rbWrite_ok hw
    obtain ⟨hfull, rfl⟩ := State.ghostWrite_records (s := s.issue) hfree hr
    exact ⟨rfl, .inl ⟨rfl, rfl, hfull, b, rfl⟩⟩
  · obtain ⟨-, -, rfl⟩ := rbRead_ok hread
    obtain ⟨hempty, rfl⟩ := State.ghostRead_records (s := s.issue) hfree hr
    exact ⟨rfl, .inr (.inl ⟨rfl, rfl, hempty, rfl⟩)⟩
  · cases hfree.symm.trans hr
  · cases (exec_xchg_fill_fault hfree h).2.symm.trans hr
  · cases (exec_xchg_fill_fault hfree h).2.symm.trans hr
  · obtain ⟨hlt, rfl⟩ := framerRun_fault (s := s.issue) (k := 0) (Framer.start_sound cmd len)
      (Nat.zero_add _) hfree hp hr
    rw [Nat.zero_add] at hlt ⊢
    exact ⟨rfl, .inr (.inr ⟨rfl, rfl, cmd, len, hi, hlt⟩)⟩

/-! ## Good runs (R254, R266, R296) -/

theorem runSteps_waitsForStream {n : Nat} {s t : State} (hs : s.WaitsForStream)
    (h : runSteps n s = some t) : t.WaitsForStream := by
  induction n generalizing s with
  | zero => cases h; exact hs
  | succ n ih =>
    obtain ⟨u, hstep, hrun⟩ := runSteps_succ h
    exact ih (step_waitsForStream hs hstep) hrun

/-- In `LINK` every operation of a run has returned at its end (R137). -/
theorem runSteps_link_not_busy {n : Nat} {s t : State} (hs : s.WaitsForStream)
    (hm : s.cfg.mode = .link) (h : runSteps n s = some t) : t.busy = false := by
  by_contra hb
  obtain ⟨hloop, -⟩ := runSteps_waitsForStream hs h (by simpa using hb)
  rw [(runSteps_evolves h).cfg_eq, hm] at hloop
  cases hloop

/-- Settles O55: a run from a recorded fault is not good, a waiting state is its own successor and busy, and in `LINK` a
run ends with every operation returned. -/
theorem goodRunHasReturned : Obligations.GoodRunHasReturned := by
  refine ⟨fun m n s hgood => ?before, fun n s hm hx hs => ?waiting, fun n s hs hm => ?link⟩
  case before =>
    obtain ⟨t, hrun, hidle, hfree⟩ := (goodRun_iff _ _).mp hgood
    obtain ⟨u, hfirst, hrest⟩ := Option.bind_eq_some_iff.mp (runSteps_add m n s ▸ hrun)
    refine ⟨u, hfirst, by_contra fun hfault => ?_⟩
    have hbad := goodRun_of_fault n hfault
    rw [(goodRun_iff n u).mpr ⟨t, hrest, hidle, hfree⟩] at hbad
    cases hbad
  case waiting =>
    have hstays : runSteps n s = some s := xchgWaitsForTheStream.2 s hm hx hs n
    simp [goodRun, hstays, State.good, State.ended, State.busy, hx]
  case link =>
    have hwaits : s.WaitsForStream := (s.inv_iff.mp hs).2
    rw [goodRun_iff]
    exact ⟨fun ⟨t, hrun, _, hfree⟩ => ⟨t, hrun, hfree⟩,
      fun ⟨t, hrun, hfree⟩ => ⟨t, hrun, runSteps_link_not_busy hwaits hm hrun, hfree⟩⟩

end Sys2Proof.Machine
end

section
/-! SUPPORT. The stop of log entry 20 (spec/00_scope.md R12, spec/20_memory.md R53). What `RBWR` and `RBRD` answer with
their cursor outside the storage is one equation each, beside the two for a cursor inside it (`exec_rbwr_of_lt`,
`exec_rbrd_of_lt`). -/

namespace Sys2Proof.Machine

theorem exec_rbwr_of_le (b : Byte) {s : State} (h : s.cfg.capacity ≤ s.tail) :
    exec (.rbwr b) s = .fault (.indexOutOfRange s.tail) := by
  have hw : rbWrite b s.issue = .error (.indexOutOfRange s.tail) := if_neg (Nat.not_lt.mpr h)
  rw [exec, execRbwr, hw, answer]

theorem exec_rbrd_of_le {s : State} (h : s.cfg.capacity ≤ s.head) :
    exec .rbrd s = .fault (.indexOutOfRange s.head) := by
  have hr : rbRead none s.issue = .error (.indexOutOfRange s.head) := if_neg (Nat.not_lt.mpr h)
  rw [exec, execRbrd, hr]

/-- Settles O11: with the cursor inside the storage both operations answer a next state. -/
theorem cursorOutsideStops : Obligations.CursorOutsideStops := by
  refine ⟨fun b s => ⟨fun hstop => ?write, exec_rbwr_of_le b⟩,
    fun s => ⟨fun hstop => ?read, exec_rbrd_of_le⟩⟩
  case write =>
    by_contra hout
    cases hstop.symm.trans (exec_rbwr_of_lt b (Nat.lt_of_not_le hout))
  case read =>
    by_contra hout
    cases hstop.symm.trans (exec_rbrd_of_lt (Nat.lt_of_not_le hout))

end Sys2Proof.Machine
end

section
/-! SUPPORT. The statements of spec/70_reset_and_hazards.md on an operation in progress. Its going on is made of exchanges
and of the framer's run, and neither issues an operation; that they reach neither the port nor the controller is
`resume_sameStorage`. -/

namespace Sys2Proof.Machine

theorem continueExchange_issued {x : Exchange} {o : Option Byte} {s t : State}
    (h : continueExchange x s = (o, t)) : t.issued = s.issued := by
  obtain rfl : (continueExchange x s).2 = t := congrArg Prod.snd h
  rw [continueExchange_keeps]

/-- The `RBRD`s and the exchanges inside a packet are no operations of their own: none takes an index (R161). -/
theorem framerRun_issued {n : Nat} {f : Framer} {s t : State} (h : framerRun n f s = .ok t) :
    t.issued = s.issued := by
  refine framerRun_preserves (·.issued = s.issued) ?read ?exchange (fun _ _ hs => hs)
    (fun _ _ hs => hs) n f s t rfl h
  case read =>
    intro k u v w hu hr
    obtain ⟨-, -, rfl⟩ := rbRead_ok hr
    exact hu
  case exchange =>
    intro b u hu
    obtain ⟨-, -, hissued⟩ := exchange_ghosts (b := b) (s := u) rfl
    exact hissued.trans hu

/-- The operation in progress goes on under the index it was issued with (R31, R293). -/
theorem resume_issued {s t : State} (h : resume s = .ok t) : t.issued = s.issued := by
  cases resume_resumes h with
  | waits _ hc => exact (continueExchange_issued hc :)
  | returnsByte _ hc _ => exact (continueExchange_issued hc :)
  | returnsStatus _ hc _ _ => exact (continueExchange_issued hc :)
  | goesOn _ hc _ _ hg => exact (framerRun_issued hg :).trans (continueExchange_issued hc :)
  | runsFramer _ _ hg => exact (framerRun_issued hg :)
  | nothing => rfl

/-- Settles O40: while an operation is in progress the step is its going on. -/
theorem noOperationWhileOneRuns : Obligations.NoOperationWhileOneRuns := by
  intro s t hbusy hstep
  have hresume : resume s = .ok t := answer_next.mp (step_busy hbusy ▸ hstep)
  obtain ⟨-, hpending, hctl, -⟩ := (resume_sameStorage hresume).outside
  exact ⟨hpending, hctl, resume_issued hresume⟩

end Sys2Proof.Machine
end
